-- ==== Sys2Proof/Word.lean ====
section
/-! DEFINITION. The word types of RAST1 (spec/00_scope.md R8, R12). -/

namespace Sys2Proof

/-- A byte of memory. -/
abbrev Byte := BitVec 8

/-- A 32-bit register or bus word (R12). -/
abbrev Word := BitVec 32

/-- A bus byte address. Addresses are 32 bits, and every sum of addresses is reduced modulo 2^32 (R8, R39). -/
abbrev Addr := BitVec 32

end Sys2Proof
end

