-- ==== Sys2Proof/Syntax.lean ====
section
/-! DEFINITION. The twenty commands (spec/30_encoding.md R65), and the statements of a host program (R66, R67). -/

namespace Sys2Proof

/-- The RAST1 command set (R3, R65): one constructor per row of spec/opcode_table.json. A command word carries no
operand (R57), so no constructor has an argument. -/
inductive Instr where
  | nop
  | plot
  | hline
  | fillrect
  | clearrect
  | blit8Or
  | blit8Xor
  | blit8Rep
  | blit8Repinv
  | blit16Or
  | blit16Xor
  | blit16Rep
  | blit16Repinv
  | blit32Or
  | blit32Xor
  | blit32Rep
  | blit32Repinv
  | alpha8
  | alpha16
  | alpha32
deriving DecidableEq, Repr

/-- The word width of a sprite command (R59). -/
inductive WordWidth where
  | w8
  | w16
  | w32
deriving DecidableEq, Repr

/-- The five merge expressions (R93): the four composition modes of BLITw (R60) and the one of ALPHAw. -/
inductive Mode where
  | or
  | xor
  | rep
  | repinv
  | alpha
deriving DecidableEq, Repr

/-- The register names of a host program (R66). -/
inductive RegName where
  | fbBase
  | bmBase
  | arg0
  | arg1
  | cmd
  | status
  | geom
deriving DecidableEq, Repr

/-- One statement of a host program: the statements of R66 and the pseudo-instructions of R67. Coordinates are the
integers the source text names; `Stmt.wellFormed` says which of them an assembler accepts. -/
inductive Stmt where
  /-- `W <reg>, <value>` (R66). -/
  | write (reg : RegName) (value : Word)
  /-- `R <reg>` (R66). -/
  | read (reg : RegName)
  /-- `CMD <mnemonic>` (R66). -/
  | cmd (i : Instr)
  /-- `NOP` (R67). -/
  | nop
  /-- `SETFB a` (R67). -/
  | setFb (a : Word)
  /-- `SETBM a` (R67). -/
  | setBm (a : Word)
  /-- `PLOT x, y` (R67). -/
  | plot (x y : Int)
  /-- `HLINE x1, x2, y` (R67). -/
  | hline (x1 x2 y : Int)
  /-- `FILLRECT x, len, y, h` (R67). -/
  | fillrect (x len y h : Int)
  /-- `CLEARRECT x, len, y, h` (R67). -/
  | clearrect (x len y h : Int)
  /-- `BLITw.mode x, y, h` and `ALPHAw x, y, h`, with `, bm` where `bm` is given (R67). -/
  | sprite (i : Instr) (x y h : Int) (bm : Option Word)
deriving DecidableEq, Repr

end Sys2Proof
end

