-- ==== Sys2Proof/Decode.lean ====
section
/-! DEFINITION. From command words to commands and back (spec/30_encoding.md): the fields of format C (R57), the
decoder (R58 to R61), the encoder (R65), the mnemonics and the disassembler (R65, R68). -/

namespace Sys2Proof

/-! ### The fields of a command word (R57) -/

/-- OP, bits [3:0]. -/
def cmdOp (c : Word) : BitVec 4 := c.extractLsb' 0 4

/-- WSEL, bits [5:4]. -/
def cmdWsel (c : Word) : BitVec 2 := c.extractLsb' 4 2

/-- DESTR, bit [6]. -/
def cmdDestr (c : Word) : Bool := c.getLsbD 6

/-- INV, bit [7]. -/
def cmdInv (c : Word) : Bool := c.getLsbD 7

/-- RSVD, bits [31:8]. -/
def cmdRsvd (c : Word) : BitVec 24 := c.extractLsb' 8 24

/-- The word with the given fields and RSVD = 0 (R57). -/
def cmdWord (op : BitVec 4) (wsel : BitVec 2) (destr inv : Bool) : Word :=
  (0#24 ++ BitVec.ofBool inv ++ BitVec.ofBool destr ++ wsel ++ op : BitVec 32)

/-! ### Decoding -/

/-- Why a word is no command: the reserved encodings of R63, one constructor each. -/
inductive DecodeError where
  /-- Some of bits [31:8] is set. -/
  | reservedBits
  /-- OP is 7 to 15. -/
  | reservedOp
  /-- Some of bits [7:4] is set with OP 0 to 4. -/
  | fieldsOnPlainOp
  /-- WSEL = 3 with OP 5 or 6. -/
  | reservedWidth
  /-- DESTR or INV is set with OP 6. -/
  | flagsOnAlpha
deriving DecidableEq, Repr

/-- The word width that WSEL selects (R59); WSEL = 3 is reserved. -/
def decodeWidth (wsel : BitVec 2) : Option WordWidth :=
  match wsel.toNat with
  | 0 => some .w8
  | 1 => some .w16
  | 2 => some .w32
  | _ => none

/-- The BLIT command of a width and of the pair (DESTR, INV) (R60, R65): the four composition modes OR, XOR, REP and
REPINV, in the order of R60's table. -/
def blitInstr : WordWidth → (destr inv : Bool) → Instr
  | .w8, false, false => .blit8Or
  | .w8, false, true => .blit8Xor
  | .w8, true, false => .blit8Rep
  | .w8, true, true => .blit8Repinv
  | .w16, false, false => .blit16Or
  | .w16, false, true => .blit16Xor
  | .w16, true, false => .blit16Rep
  | .w16, true, true => .blit16Repinv
  | .w32, false, false => .blit32Or
  | .w32, false, true => .blit32Xor
  | .w32, true, false => .blit32Rep
  | .w32, true, true => .blit32Repinv

/-- The ALPHA command of a width (R65). -/
def alphaInstr : WordWidth → Instr
  | .w8 => .alpha8
  | .w16 => .alpha16
  | .w32 => .alpha32

/-- A command of OP 0 to 4: bits [7:4] must be 0 (R57, R61). -/
def decodePlain (c : Word) (i : Instr) : Except DecodeError Instr :=
  if c.extractLsb' 4 4 = 0#4 then .ok i else .error .fieldsOnPlainOp

/-- OP 5 (R59, R60). -/
def decodeBlit (c : Word) : Except DecodeError Instr :=
  match decodeWidth (cmdWsel c) with
  | none => .error .reservedWidth
  | some w => .ok (blitInstr w (cmdDestr c) (cmdInv c))

/-- OP 6: DESTR and INV must be 0 (R60, R61). -/
def decodeAlpha (c : Word) : Except DecodeError Instr :=
  match decodeWidth (cmdWsel c) with
  | none => .error .reservedWidth
  | some w => if cmdDestr c || cmdInv c then .error .flagsOnAlpha else .ok (alphaInstr w)

/-- The decoder: "A decoder reads the whole word and classifies it by rule R61" (R64). Total, and it refuses each
reserved encoding of R63 by name. -/
def decode (c : Word) : Except DecodeError Instr :=
  if cmdRsvd c = 0#24 then
    match (cmdOp c).toNat with
    | 0 => decodePlain c .nop
    | 1 => decodePlain c .plot
    | 2 => decodePlain c .hline
    | 3 => decodePlain c .fillrect
    | 4 => decodePlain c .clearrect
    | 5 => decodeBlit c
    | 6 => decodeAlpha c
    | _ => .error .reservedOp
  else .error .reservedBits

/-- `Legal(c)` (R61, R69). -/
def legal (c : Word) : Bool :=
  match decode c with
  | .ok _ => true
  | .error _ => false

/-! ### Encoding -/

/-- The command word of a command (the OP, WSEL, DESTR and INV columns of R65). -/
def encode : Instr → Word
  | .nop => cmdWord 0 0 false false
  | .plot => cmdWord 1 0 false false
  | .hline => cmdWord 2 0 false false
  | .fillrect => cmdWord 3 0 false false
  | .clearrect => cmdWord 4 0 false false
  | .blit8Or => cmdWord 5 0 false false
  | .blit8Xor => cmdWord 5 0 false true
  | .blit8Rep => cmdWord 5 0 true false
  | .blit8Repinv => cmdWord 5 0 true true
  | .blit16Or => cmdWord 5 1 false false
  | .blit16Xor => cmdWord 5 1 false true
  | .blit16Rep => cmdWord 5 1 true false
  | .blit16Repinv => cmdWord 5 1 true true
  | .blit32Or => cmdWord 5 2 false false
  | .blit32Xor => cmdWord 5 2 false true
  | .blit32Rep => cmdWord 5 2 true false
  | .blit32Repinv => cmdWord 5 2 true true
  | .alpha8 => cmdWord 6 0 false false
  | .alpha16 => cmdWord 6 1 false false
  | .alpha32 => cmdWord 6 2 false false

/-- What the decoder reads from an instruction whose bits are `w`, `nbits` of them given and the rest 0. A command is
one 32-bit word, the data of a write to CMD (R57, R64), and stands in no memory: bit 0 of the table is bit 0 of the
word. -/
def decodeTableWord (nbits w : Nat) : Option Instr :=
  if w % 2 ^ nbits < 2 ^ 32 then
    match decode (BitVec.ofNat 32 (w % 2 ^ nbits)) with
    | .ok i => some i
    | .error _ => none
  else none

/-! ### Mnemonics and the disassembler -/

/-- All commands, in the order of R65. -/
def allInstrs : List Instr :=
  [.nop, .plot, .hline, .fillrect, .clearrect,
   .blit8Or, .blit8Xor, .blit8Rep, .blit8Repinv,
   .blit16Or, .blit16Xor, .blit16Rep, .blit16Repinv,
   .blit32Or, .blit32Xor, .blit32Rep, .blit32Repinv,
   .alpha8, .alpha16, .alpha32]

/-- The mnemonic of a command (R65). -/
def mnemonic : Instr → String
  | .nop => "NOP"
  | .plot => "PLOT"
  | .hline => "HLINE"
  | .fillrect => "FILLRECT"
  | .clearrect => "CLEARRECT"
  | .blit8Or => "BLIT8.OR"
  | .blit8Xor => "BLIT8.XOR"
  | .blit8Rep => "BLIT8.REP"
  | .blit8Repinv => "BLIT8.REPINV"
  | .blit16Or => "BLIT16.OR"
  | .blit16Xor => "BLIT16.XOR"
  | .blit16Rep => "BLIT16.REP"
  | .blit16Repinv => "BLIT16.REPINV"
  | .blit32Or => "BLIT32.OR"
  | .blit32Xor => "BLIT32.XOR"
  | .blit32Rep => "BLIT32.REP"
  | .blit32Repinv => "BLIT32.REPINV"
  | .alpha8 => "ALPHA8"
  | .alpha16 => "ALPHA16"
  | .alpha32 => "ALPHA32"

/-- One hexadecimal digit; digits above 9 are capitals, as in the tables of R65. -/
def hexDigit (d : BitVec 4) : Char :=
  if d.toNat < 10 then Char.ofNat (48 + d.toNat) else Char.ofNat (55 + d.toNat)

/-- The `n` lowest hexadecimal digits of a word, most significant first. -/
def hexDigits (v : Word) : Nat → List Char
  | 0 => []
  | n + 1 => hexDigit (v.extractLsb' (4 * n) 4) :: hexDigits v n

/-- The disassembler: a legal word's mnemonic, or `.word 0x` and the word's 8 hexadecimal digits (R68). -/
def disassemble (c : Word) : String :=
  match decode c with
  | .ok i => mnemonic i
  | .error _ => ".word 0x" ++ String.ofList (hexDigits c 8)

end Sys2Proof
end

