-- ==== Sys2Proof/Config.lean ====
section
/-! DEFINITION. What one piece of hardware fixes (R6, R7, R29), and the free values of the spec (U3, U5, U8),
which have no body. -/

namespace Sys2Proof

/-- `SW`, the screen width in pixels (R6; 640 for this hardware, notes/assumptions/13.md). -/
def Config.SW : Nat := 640

/-- `SH`, the screen height in pixels (R6; 400 for this hardware). -/
def Config.SH : Nat := 400

/-- `BPL = SW / 8`, the bytes of one scanline (R7). -/
def Config.BPL : Nat := Config.SW / 8

/-- `FBSIZE = SH * BPL`, the bytes of a framebuffer (R7). -/
def Config.FBSIZE : Nat := Config.SH * Config.BPL

/-- The constant of the GEOM register, `pack(SW, SH)`: SCREEN_W in [15:0], SCREEN_H in [31:16] (R29). -/
def Config.GEOM : Word := BitVec.ofNat 16 Config.SH ++ BitVec.ofNat 16 Config.SW

/-- Free value: the byte that the `n`-th drawn read of a device region gives (U8: "any value").
DESIGN CHOICE, notes/assumptions/8.md. -/
opaque Config.deviceByte : Nat → Byte

/-- Free value: how many of a command's accesses were performed before the reset that arrived during it (R135,
U5: "a nondeterministic choice among the prefixes"). notes/assumptions/6.md. -/
opaque Config.resetPoint : Nat → Nat

/-- Free value: how many of the foreign writes still outstanding land just before the `k`-th access of a command
that runs in breach of the exclusive-access contract, in the `n`-th draw (R52, U3). notes/assumptions/7.md. -/
opaque Config.landing : Nat → Nat → Nat

end Sys2Proof
end

