-- ==== Sys2Proof/Machine/State.lean ====
section
/-! DEFINITION. The state of RAST1 as plain data (spec/10_state.md), the platform's open parameters, the accesses of
the host, and the ways a step can stop. -/

namespace Sys2Proof.Machine

/-- Memory: the listed cells, by rising address and none of them 0; every other byte reads as 0
(notes/assumptions/1.md). Memory is not the block's state (R20, R40) but the space it is a bus master on (R38). -/
abbrev Memory := List Host.Cell

/-- A range of byte addresses, both ends included. -/
structure AddrRange where
  first : Addr
  last : Addr
deriving DecidableEq, Repr

/-- The platform's parameters, which the spec leaves OPEN (R10, R11, U8, U11, U12). No step changes them. -/
structure Platform where
  /-- `RAST_BASE`, the bus address of the 32-byte register window (R10). -/
  rastBase : Addr
  /-- Where `MemOK` is false (R11); the reference platform has no such range. notes/assumptions/3.md. -/
  refused : List AddrRange
  /-- Memory with read side effects (R47, U8). notes/assumptions/8.md. -/
  device : List AddrRange
deriving DecidableEq, Repr

/-- The width of a host access to the window (R22). -/
inductive AccessWidth where
  | byte
  | half
  | word
deriving DecidableEq, Repr

/-- One access of the host, performed by one step. Accesses of several masters stand in the order the bus grants
them (R70, R130). -/
inductive HostAccess where
  /-- A read of the register window at byte offset `off` (R22). -/
  | regRead (off : BitVec 5) (width : AccessWidth)
  /-- A write of the register window at byte offset `off` (R22). A 32-bit write at 0x10 issues a command (R69). -/
  | regWrite (off : BitVec 5) (width : AccessWidth) (data : Word)
  /-- The host reads a byte of memory (R51, R144). -/
  | memRead (a : Addr)
  /-- The host writes a byte of memory (R51, R137). -/
  | memWrite (a : Addr) (v : Byte)
  /-- Reset, between commands (R133). -/
  | reset
  /-- A write of `c` to CMD, while the command of which other agents write the bytes `others`, in this order, in
  breach of the exclusive-access contract (R52, R140, U3). -/
  | contendedCmd (c : Word) (others : List (Addr × Byte))
  /-- A write of `c` to CMD during whose command reset arrives (R135, U5), with foreign writes as in
  `contendedCmd` (none when `others` is empty). -/
  | resetDuringCmd (c : Word) (others : List (Addr × Byte))
deriving DecidableEq, Repr

/-- The state of the machine. The first six fields are the register file (R20, R21); GEOM and offset 0x1C are
hard-wired (R29, R30) and stand in `State.readReg`. -/
structure State where
  /-- FB_BASE (R23). -/
  fbBase : Word
  /-- BM_BASE (R24). -/
  bmBase : Word
  /-- ARG0 (R25). -/
  arg0 : Word
  /-- ARG1 (R26). -/
  arg1 : Word
  /-- CMD (R27). -/
  cmd : Word
  /-- STATUS (R28). -/
  status : Word
  /-- The memory the block is a bus master on (R38). -/
  mem : Memory
  /-- The platform's open parameters (R10, R11, U8). -/
  platform : Platform
  /-- The model's own: the host accesses still to be performed, the next one first (R69, R70). -/
  host : List HostAccess
  /-- The model's own: what the host's reads gave, newest first (R66). -/
  recorded : List Word
  /-- The model's own: how many free values have been drawn (U3, U5, U8). -/
  draws : Nat
deriving DecidableEq, Repr

/-- Why a step stops with a fault. There is no such reason: the spec's two errors leave the machine running
(R119, R120, R124), so no step faults. Safe. -/
inductive Fault where
deriving DecidableEq, Repr

/-- Why a step has no meaning. -/
inductive Refusal where
  /-- An instruction without a meaning; raised by no arm of `exec` in this model. Safe. -/
  | notModelled (mnemonic : String)
  /-- A command's own access fell at address `a` of the register window: "has no meaning in this spec and a model
  refuses it" (R22, U7, D35). Raised by every drawing command. Safe: nothing can be proved of what follows. -/
  | blockAccessToOwnWindow (a : Addr)
  /-- A host access to the register window that is not a 32-bit access at a multiple of 4: "has no meaning in this
  spec: a model refuses it" (R22, U6, D26). Raised by the host accesses to the window, and by byte accesses to
  memory, the host's own and those of other agents, whose address falls in the window. Safe. -/
  | hostAccessNotAligned32
deriving DecidableEq, Repr

/-- The platform right after reset: `MemOK` true everywhere and plain memory (R11, R47), and a window at
0xFFFFFFE0 (DESIGN CHOICE, notes/assumptions/2.md: the spec leaves RAST_BASE open). -/
def Platform.reference : Platform := { rastBase := 0xFFFFFFE0#32, refused := [], device := [] }

/-- The machine right after reset (R36, R133): every register 0, nothing pending, memory with nothing listed. -/
def State.reset : State where
  fbBase := 0#32
  bmBase := 0#32
  arg0 := 0#32
  arg1 := 0#32
  cmd := 0#32
  status := 0#32
  mem := []
  platform := Platform.reference
  host := []
  recorded := []
  draws := 0

end Sys2Proof.Machine
end

