-- ==== Sys2Proof/Machine/Flags.lean ====
section
/-! DEFINITION. The STATUS word: the block's only flags (R28, R33) and its error codes (R118). -/

namespace Sys2Proof.Machine

/-- How a command ended (R118). Codes 3 to 15 are never produced (U15). -/
inductive ErrCode where
  | ok
  | illegalCmd
  | busError
deriving DecidableEq, Repr

/-- ERRCODE of an end (R118). -/
def errCodeBits : ErrCode → BitVec 4
  | .ok => 0
  | .illegalCmd => 1
  | .busError => 2

/-- ERR of an end: 1 when the command ended with an error (R28). -/
def errBit : ErrCode → Bool
  | .ok => false
  | .illegalCmd => true
  | .busError => true

/-- The STATUS word of an end: ERR in bit 0, ERRCODE in [7:4], every other bit 0 (R28). -/
def statusWord (e : ErrCode) : Word :=
  (0#24 ++ errCodeBits e ++ 0#3 ++ BitVec.ofBool (errBit e) : BitVec 32)

/-- STATUS.ERR (R28). -/
def statusErr (v : Word) : Bool := v.getLsbD 0

/-- STATUS.ERRCODE (R28). -/
def statusErrCode (v : Word) : BitVec 4 := v.extractLsb' 4 4

end Sys2Proof.Machine
end

