-- ==== Sys2Proof/Machine/Ops.lean ====
section
/-! DEFINITION. The shared operations: bytes of memory, the platform's predicates, the register window, the end of a
command with and without an error (R69, R119, R120), and reset (R133). -/

namespace Sys2Proof.Machine

/-! ### Memory -/

/-- What a byte that is not listed reads as (R134 leaves it open; DESIGN CHOICE, notes/assumptions/1.md). -/
def Memory.unlisted : Byte := 0#8

/-- The byte at an address. -/
def Memory.readAt : Memory → Nat → Byte
  | [], _ => unlisted
  | (b, w) :: rest, a => if a = b then w else readAt rest a

/-- Puts a cell in its place by rising address. -/
def Memory.insertCell : Memory → Nat → Byte → Memory
  | [], a, v => [(a, v)]
  | (b, w) :: rest, a, v => if a < b then (a, v) :: (b, w) :: rest else (b, w) :: insertCell rest a v

/-- Every cell but those at an address. -/
def Memory.without (m : Memory) (a : Nat) : Memory := m.filter (fun c => c.1 != a)

/-- Writes a byte, keeping the canonical form: a byte with the value an unlisted one has is not listed. -/
def Memory.writeAt (m : Memory) (a : Nat) (v : Byte) : Memory :=
  if v = unlisted then m.without a else (m.without a).insertCell a v

/-- `MemRead(a, 1)` on plain memory (R16). -/
def Memory.read (m : Memory) (a : Addr) : Byte := m.readAt a.toNat

/-- `MemWrite(a, 1, v)` on plain memory (R16). -/
def Memory.write (m : Memory) (a : Addr) (v : Byte) : Memory := m.writeAt a.toNat v

/-- The canonical form: addresses below 2^32 and strictly rising, and no cell with the value of an unlisted byte. -/
def Memory.wf : Memory → Bool
  | [] => true
  | (a, v) :: rest => decide (a < 2 ^ 32) && v != unlisted && rest.all (fun c => decide (a < c.1)) && wf rest

/-! ### The platform -/

/-- An address lies in a range. -/
def AddrRange.contains (r : AddrRange) (a : Addr) : Bool :=
  decide (r.first.toNat ≤ a.toNat) && decide (a.toNat ≤ r.last.toNat)

/-- `MemOK(a)` (R11). -/
def Platform.memOK (p : Platform) (a : Addr) : Bool := !p.refused.any (fun r => r.contains a)

/-- An address has read side effects (U8). -/
def Platform.isDevice (p : Platform) (a : Addr) : Bool := p.device.any (fun r => r.contains a)

/-- An address lies in the register window `[RAST_BASE, RAST_BASE + 32)`, modulo 2^32
(R22; notes/assumptions/5.md). -/
def Platform.inWindow (p : Platform) (a : Addr) : Bool := decide ((a - p.rastBase).toNat < 32)

/-- Plain memory the block may access: `MemOK`, no device, outside the register window. -/
def Platform.ordinary (p : Platform) (a : Addr) : Bool := p.memOK a && !p.isDevice a && !p.inWindow a

/-! ### The register window -/

/-- The registers of the window (R21). -/
inductive WindowReg where
  | fbBase
  | bmBase
  | arg0
  | arg1
  | cmd
  | status
  | geom
  | reserved
deriving DecidableEq, Repr

/-- The register at a byte offset; none at an offset that is no multiple of 4 (R21, R22). -/
def windowReg (off : BitVec 5) : Option WindowReg :=
  match off.toNat with
  | 0x00 => some .fbBase
  | 0x04 => some .bmBase
  | 0x08 => some .arg0
  | 0x0C => some .arg1
  | 0x10 => some .cmd
  | 0x14 => some .status
  | 0x18 => some .geom
  | 0x1C => some .reserved
  | _ => none

/-- The register a host access reaches: only a 32-bit access at a multiple of 4 reaches one (R22). -/
def accessedReg (off : BitVec 5) : AccessWidth → Option WindowReg
  | .word => windowReg off
  | .byte => none
  | .half => none

/-- The value of a register (R22). GEOM is the constant `pack(SW, SH)` (R29) and offset 0x1C reads 0 (R30);
notes/assumptions/11.md. -/
def State.readReg (s : State) : WindowReg → Word
  | .fbBase => s.fbBase
  | .bmBase => s.bmBase
  | .arg0 => s.arg0
  | .arg1 => s.arg1
  | .cmd => s.cmd
  | .status => s.status
  | .geom => Config.GEOM
  | .reserved => 0#32

/-- What a host write stores (R22): all 32 bits in FB_BASE, BM_BASE, ARG0, ARG1 and CMD; nothing in STATUS, GEOM and
offset 0x1C. That a write to CMD also starts a command is `issue`. -/
def State.writeReg (s : State) : WindowReg → Word → State
  | .fbBase, v => { s with fbBase := v }
  | .bmBase, v => { s with bmBase := v }
  | .arg0, v => { s with arg0 := v }
  | .arg1, v => { s with arg1 := v }
  | .cmd, v => { s with cmd := v }
  | .status, _ => s
  | .geom, _ => s
  | .reserved, _ => s

/-- A value the host's program records (R66). -/
def State.record (s : State) (v : Word) : State := { s with recorded := v :: s.recorded }

/-! ### The end of a command -/

/-- Taking an error, the spec's only trap entry: "What an error saves is STATUS" (R124). No control is transferred,
and CMD already holds the command word. -/
def State.raiseError (s : State) (e : ErrCode) : State := { s with status := statusWord e }

/-- The end of a command without an error: STATUS <- 0x00000000 (R69, R71). This is also all there is of a return
from an error (R125): the next command overwrites STATUS. -/
def State.complete (s : State) : State := { s with status := statusWord .ok }

/-! ### Reset -/

/-- Reset sets every register to its reset value and does not touch memory (R133, R134). The platform, the host and
the model's own fields are not the block's registers. -/
def State.resetRegisters (s : State) : State :=
  { s with fbBase := 0#32, bmBase := 0#32, arg0 := 0#32, arg1 := 0#32, cmd := 0#32, status := 0#32 }

end Sys2Proof.Machine
end

