-- ==== Sys2Proof/Machine/Bus.lean ====
section
/-! DEFINITION. The block as a bus master (spec/20_memory.md): a command is the sequence of its byte accesses (R16,
R50), and running it performs them one at a time until the end or the first refused access (R120). -/

namespace Sys2Proof.Machine

/-- The memory accesses of a command, in order (R50). What follows a read may depend on the byte read (R47). -/
inductive BusProg where
  /-- The end of the command, or of a part of it. -/
  | done
  /-- `MemRead(a, 1)`, and what follows for the byte read (R16). -/
  | read (a : Addr) (k : Byte → BusProg)
  /-- `MemWrite(a, 1, v)`, and what follows (R16). -/
  | write (a : Addr) (v : Byte) (k : BusProg)

/-! ### Building sequences -/

/-- First the accesses of `p`, then those of `q`. -/
def BusProg.seq : BusProg → BusProg → BusProg
  | .done, q => q
  | .read a k, q => .read a (fun v => (k v).seq q)
  | .write a v k, q => .write a v (k.seq q)

/-- `for`: the accesses of each program of a list, in the list's order (R17). -/
def BusProg.seqAll : List BusProg → BusProg
  | [] => .done
  | p :: ps => p.seq (seqAll ps)

/-- The rest of `ReadBE`: `n` more bytes from `a` on, after bytes whose value is `acc` (R16). -/
def BusProg.readBytes : (n : Nat) → (a : Addr) → (acc : Nat) → (Nat → BusProg) → BusProg
  | 0, _, acc, k => k acc
  | n + 1, a, acc, k => .read a (fun v => readBytes n (a + 1#32) (acc * 256 + v.toNat) k)

/-- `ReadBE(a, n)`: `n` bytes in increasing address order, the byte at `a` the most significant (R16, R44). -/
def BusProg.readBE (w : Nat) (a : Addr) (n : Nat) (k : BitVec w → BusProg) : BusProg :=
  readBytes n a 0 (fun v => k (BitVec.ofNat w v))

/-- `WriteBE(a, n, v)`: `n` bytes in increasing address order, the most significant first (R16, R44). -/
def BusProg.writeBE {w : Nat} : (n : Nat) → (a : Addr) → (v : BitVec w) → BusProg
  | 0, _, _ => .done
  | n + 1, a, v => .write a (v.extractLsb' (8 * n) 8) (writeBE n (a + 1#32) v)

/-- The first `n` accesses of a command: what is performed when a reset arrives then (R135). -/
def BusProg.cut : BusProg → Nat → BusProg
  | _, 0 => .done
  | .done, _ + 1 => .done
  | .read a k, n + 1 => .read a (fun v => (k v).cut n)
  | .write a v k, n + 1 => .write a v (k.cut n)

/-- The addresses of a command's accesses, in order, with every byte read taken as 0: no command of RAST1 computes
an address from a byte it read (R37, R62). -/
def BusProg.addresses : BusProg → List Addr
  | .done => []
  | .read a k => a :: (k 0#8).addresses
  | .write a _ k => a :: k.addresses

/-! ### Performing accesses -/

/-- One performed byte access. -/
inductive Access where
  | read (a : Addr) (v : Byte)
  | write (a : Addr) (v : Byte)
deriving DecidableEq, Repr

/-- What a running command acts on: memory, the count of free values drawn, and the accesses performed so far,
newest first. The list of accesses is no state of the machine (R35); it is what R146 and R50 speak of. -/
structure Bus where
  mem : Memory
  draws : Nat
  log : List Access
deriving DecidableEq, Repr

/-- Why a command ends before its last access. -/
inductive BusStop where
  /-- `MemOK` is false at the access's address: BUS_ERROR (R120). -/
  | refused
  /-- The access's address lies in the block's own window (R22, U7). -/
  | ownWindow (a : Addr)
deriving DecidableEq, Repr

/-- The check before every byte access (R16): the window (R22, U7) and then `MemOK` (R11). -/
def Platform.check (p : Platform) (a : Addr) : Option BusStop :=
  if p.inWindow a then some (.ownWindow a) else if p.memOK a then none else some .refused

/-- The value a permitted read gives: the byte in memory, or a free value from a device (U8). -/
def Bus.valueAt (b : Bus) (p : Platform) (a : Addr) : Byte :=
  if p.isDevice a then Config.deviceByte b.draws else b.mem.read a

/-- A permitted read, done. -/
def Bus.afterRead (b : Bus) (p : Platform) (a : Addr) : Bus :=
  { b with draws := if p.isDevice a then b.draws + 1 else b.draws, log := .read a (b.valueAt p a) :: b.log }

/-- A permitted write, done; a write to a device changes no memory (U8). -/
def Bus.afterWrite (b : Bus) (p : Platform) (a : Addr) (v : Byte) : Bus :=
  { b with mem := if p.isDevice a then b.mem else b.mem.write a v, log := .write a v :: b.log }

/-- How a run ended: at its last access (`none`) or before it, and what it left. -/
structure RunEnd where
  stop : Option BusStop
  bus : Bus
deriving DecidableEq, Repr

/-- Performs a command's accesses in order. "The refused access is not performed and no later one is" (R94, R120). -/
def BusProg.run (p : Platform) : BusProg → Bus → RunEnd
  | .done, b => ⟨none, b⟩
  | .read a k, b =>
    match p.check a with
    | some e => ⟨some e, b⟩
    | none => (k (b.valueAt p a)).run p (b.afterRead p a)
  | .write a v k, b =>
    match p.check a with
    | some e => ⟨some e, b⟩
    | none => k.run p (b.afterWrite p a v)

/-- Foreign byte writes land in memory, in order (R52); one to a device changes no memory (U8). -/
def Bus.land (b : Bus) (p : Platform) (others : List (Addr × Byte)) : Bus :=
  { b with mem := others.foldl (fun m o => if p.isDevice o.1 then m else m.write o.1 o.2) b.mem }

/-- Performs a command's accesses while other agents write the bytes `others` (R52, U3): just before its `n`-th
access a free number of the foreign writes still outstanding land, and when the command has ended the rest do. Every
interleaving of the two orders is one value of the free numbers. notes/assumptions/7.md. -/
def BusProg.runAmong (p : Platform) (draw : Nat) : BusProg → (n : Nat) → List (Addr × Byte) → Bus → RunEnd
  | .done, _, others, b => ⟨none, b.land p others⟩
  | .read a k, n, others, b =>
    match p.check a with
    | some e => ⟨some e, b.land p others⟩
    | none =>
      let b' := b.land p (others.take (Config.landing draw n))
      (k (b'.valueAt p a)).runAmong p draw (n + 1) (others.drop (Config.landing draw n)) (b'.afterRead p a)
  | .write a v k, n, others, b =>
    match p.check a with
    | some e => ⟨some e, b.land p others⟩
    | none =>
      let b' := b.land p (others.take (Config.landing draw n))
      k.runAmong p draw (n + 1) (others.drop (Config.landing draw n)) (b'.afterWrite p a v)

/-! ### A command on the state -/

/-- The bus a command starts on. -/
def State.bus (s : State) : Bus := { mem := s.mem, draws := s.draws, log := [] }

/-- The state with what a run left in memory. -/
def State.withBus (s : State) (b : Bus) : State := { s with mem := b.mem, draws := b.draws }

/-- The end of a command after its run (R69): STATUS = OK, or BUS_ERROR with the accesses before the refused one
performed (R120), or no meaning when an access met the block's own window (U7). -/
def State.finish (s : State) (r : RunEnd) : Host.Outcome State Fault Refusal :=
  match r.stop with
  | none => .next (s.withBus r.bus).complete
  | some .refused => .next ((s.withBus r.bus).raiseError .busError)
  | some (.ownWindow a) => .refused (.blockAccessToOwnWindow a)

/-- Runs a legal command's accesses, with no other agent writing memory (R51, R69, R70). -/
def State.runCommand (s : State) (p : BusProg) : Host.Outcome State Fault Refusal :=
  s.finish (p.run s.platform s.bus)

end Sys2Proof.Machine
end

