-- ==== Sys2Proof/Machine/Operands.lean ====
section
/-! DEFINITION. The operands of a command, as the operand registers give them (R25, R26, R37, R62), and the packing
of two 16-bit operands into one register (R15). -/

namespace Sys2Proof.Machine

/-- Bits [15:0] of a register as a 16-bit two's complement number (R15, R25, R26). -/
def lowHalf (v : Word) : Int := (v.extractLsb' 0 16).toInt

/-- Bits [31:16] of a register as a 16-bit two's complement number (R15, R25, R26). -/
def highHalf (v : Word) : Int := (v.extractLsb' 16 16).toInt

/-- `pack(lo, hi)`: the word with `hi mod 2^16` above `lo mod 2^16` (R15, R145). -/
def pack (lo hi : Int) : Word := BitVec.ofInt 16 hi ++ BitVec.ofInt 16 lo

/-- The operands a command is run on (R62). `x2` is HLINE's second endpoint and the rectangles' length. -/
structure Operands where
  fb : Addr
  bm : Addr
  x : Int
  x2 : Int
  y : Int
  h : Int
deriving DecidableEq, Repr

/-- Operand assembly: the registers sampled when the CMD write arrives (R32, R62, R69). -/
def State.operands (s : State) : Operands where
  fb := s.fbBase
  bm := s.bmBase
  x := lowHalf s.arg0
  x2 := highHalf s.arg0
  y := lowHalf s.arg1
  h := highHalf s.arg1

end Sys2Proof.Machine
end

