-- ==== Sys2Proof/Machine/Span.lean ====
section
/-! DEFINITION. The pixel and span primitives (spec/41_pixel_span.md): PLOT, HLINE, FILLRECT, CLEARRECT. -/

namespace Sys2Proof.Machine

open Sys2Proof.Config

/-! ### Shared procedures -/

/-- The address of byte `j` of row `row`: `FB_BASE + row * BPL + j`, modulo 2^32 (R39, R40). -/
def fbByteAddr (fb : Addr) (row j : Nat) : Addr := fb + BitVec.ofNat 32 (row * BPL + j)

/-- A coordinate pair is on screen: `0 <= x < SW` and `0 <= y < SH` (R41). -/
def onScreen (x y : Int) : Bool :=
  decide (0 ≤ x) && decide (x < SW) && decide (0 ≤ y) && decide (y < SH)

/-- `SpanMask(lo, hi, j)`: the pixels of the span `lo..hi` inside byte `j` (R74). -/
def spanMask (lo hi j : Nat) : Byte :=
  let a := max lo (8 * j) - 8 * j
  let b := min hi (8 * j + 7) - 8 * j
  (0xFF#8 >>> a) &&& (0xFF#8 <<< (7 - b))

/-- What a span does to its pixels (R75). -/
inductive SpanOp where
  | set
  | clr
deriving DecidableEq, Repr

/-- The accesses of `SpanRow` to byte `j`: an interior byte is written without a read, a boundary byte is
read-modify-written (R75). -/
def spanByte (fb : Addr) (row lo hi : Nat) (op : SpanOp) (j : Nat) : BusProg :=
  let a := fbByteAddr fb row j
  let mk := spanMask lo hi j
  if mk = 0xFF#8 then
    match op with
    | .set => .write a 0xFF#8 .done
    | .clr => .write a 0x00#8 .done
  else
    .read a fun v =>
      match op with
      | .set => .write a (v ||| mk) .done
      | .clr => .write a (v &&& ~~~mk) .done

/-- `SpanRow(y, lo, hi, op)`: the bytes from `lo div 8` to `hi div 8`, in increasing order (R75). -/
def spanRow (fb : Addr) (row lo hi : Nat) (op : SpanOp) : BusProg :=
  .seqAll ((List.range' (lo / 8) (hi / 8 + 1 - lo / 8)).map (spanByte fb row lo hi op))

/-- A rectangle on screen: columns `col .. col + len - 1` of rows `row .. row + height - 1`. -/
structure Rect where
  col : Nat
  len : Nat
  row : Nat
  height : Nat
deriving DecidableEq, Repr

/-- `RectClip(x, len, y, h)`: none where the command is a no-op; a negative origin is rejected, not clipped, and the
length and the height are clamped to what is left of the screen (R76). -/
def rectClip (x len y h : Int) : Option Rect :=
  if x < 0 ∨ x ≥ SW ∨ y < 0 ∨ y ≥ SH ∨ len < 1 ∨ h < 1 then none
  else some
    { col := x.toNat, len := (min len (SW - x)).toNat, row := y.toNat, height := (min h (SH - y)).toNat }

/-- SpanRow on each row of a rectangle, rows in increasing order (R50, R79, R80). -/
def rectRows (fb : Addr) (r : Rect) (op : SpanOp) : BusProg :=
  .seqAll ((List.range' r.row r.height).map fun row => spanRow fb row r.col (r.col + r.len - 1) op)

/-- The columns HLINE fills on a row of the screen, clamped to the screen; none where it is a no-op (R78). -/
def hlineClip (x1 x2 y : Int) : Option (Nat × Nat) :=
  if y < 0 ∨ y ≥ SH then none
  else
    let lo := min x1 x2
    let hi := max x1 x2
    if hi < 0 ∨ lo ≥ SW then none
    else some ((max lo 0).toNat, (min hi (SW - 1)).toNat)

/-! ### PLOT -/

/-- The accesses of PLOT (R77). -/
def plotProg (o : Operands) : BusProg :=
  if onScreen o.x o.y then
    let a := fbByteAddr o.fb o.y.toNat (o.x.toNat / 8)
    .read a fun v => .write a (v ||| (0x80#8 >>> (o.x.toNat % 8))) .done
  else .done

/-- PLOT (R77): the pixel is set by OR; the source's "toggle" is not followed (C1). -/
def execPlot (s : State) : Host.Outcome State Fault Refusal := s.runCommand (plotProg s.operands)

/-! ### HLINE -/

/-- The accesses of HLINE (R78). -/
def hlineProg (o : Operands) : BusProg :=
  match hlineClip o.x o.x2 o.y with
  | none => .done
  | some (lo, hi) => spanRow o.fb o.y.toNat lo hi .set

/-- HLINE (R78); an endpoint at `x = SW` is off screen (D12). -/
def execHline (s : State) : Host.Outcome State Fault Refusal := s.runCommand (hlineProg s.operands)

/-! ### FILLRECT -/

/-- The accesses of FILLRECT (R79). -/
def fillrectProg (o : Operands) : BusProg :=
  match rectClip o.x o.x2 o.y o.h with
  | none => .done
  | some r => rectRows o.fb r .set

/-- FILLRECT (R79). -/
def execFillrect (s : State) : Host.Outcome State Fault Refusal := s.runCommand (fillrectProg s.operands)

/-! ### CLEARRECT -/

/-- The accesses of CLEARRECT (R80). -/
def clearrectProg (o : Operands) : BusProg :=
  match rectClip o.x o.x2 o.y o.h with
  | none => .done
  | some r => rectRows o.fb r .clr

/-- CLEARRECT (R80). -/
def execClearrect (s : State) : Host.Outcome State Fault Refusal := s.runCommand (clearrectProg s.operands)

end Sys2Proof.Machine
end

