-- ==== Sys2Proof/Machine/Compose.lean ====
section
/-! DEFINITION. The shared procedures of the sprite compositor (spec/42_sprite.md R85 to R94): the vertical clip, the
horizontal clip regimes and their target words, the merge expressions and the row loop. -/

namespace Sys2Proof.Machine

open Sys2Proof.Config

/-- `W` (R59). -/
def wordBits : WordWidth → Nat
  | .w8 => 8
  | .w16 => 16
  | .w32 => 32

/-- `NB(W) = W / 8` (R7). -/
def wordBytes (w : WordWidth) : Nat := wordBits w / 8

/-- `WPL(W) = SW / W`, the W-bit words of one scanline (R7). -/
def wordsPerLine (w : WordWidth) : Nat := SW / wordBits w

/-- A W-bit word. -/
abbrev SpriteWord (w : WordWidth) := BitVec (wordBits w)

/-- `VClip(y, h)`: the first and the last screen row drawn; none where the command is a no-op (R86). -/
def vclip (y h : Int) : Option (Nat × Nat) :=
  if h ≤ 0 then none
  else
    let first := max 0 y
    let last := min (y + h - 1) (SH - 1)
    if first > last then none else some (first.toNat, last.toNat)

/-- The clip regimes with what each needs: the intra-word offset `m`, and in FULL the word index `k` (R88). -/
inductive Regime where
  | left (m : Nat)
  | right (m : Nat)
  | full (k m : Nat)
deriving DecidableEq, Repr

/-- `HClip(x, W)`: none where no column of the sprite is on screen (R88). -/
def hclip (x : Int) (w : WordWidth) : Option Regime :=
  let W : Int := wordBits w
  if x ≤ -W ∨ x ≥ SW then none
  else if x < 0 then some (.left (-x).toNat)
  else if x > SW - W then some (.right (x % W).toNat)
  else some (.full (x / W).toNat (x % W).toNat)

/-- How a sprite word is moved onto a target word: right or left by a number of columns, zero fill (R14). -/
inductive Shift where
  | right (n : Nat)
  | left (n : Nat)
deriving DecidableEq, Repr

/-- One target word of a sprite row: its word index in the row, and the shift that positions the sprite on it. -/
structure Target where
  widx : Nat
  shift : Shift
deriving DecidableEq, Repr

/-- A W-bit word moved as a shift says (R14). -/
def Shift.apply {w : WordWidth} : Shift → SpriteWord w → SpriteWord w
  | .right n, s => s >>> n
  | .left n, s => s <<< n

/-- The positioned sprite word `S` of a target, from the bitmap row word `s` (R89 to R91). -/
def Target.positioned {w : WordWidth} (t : Target) (s : SpriteWord w) : SpriteWord w := t.shift.apply s

/-- The footprint mask `F` of a target: `ONES(W)` moved as the sprite is (R89 to R91). -/
def Target.mask (t : Target) (w : WordWidth) : SpriteWord w := t.shift.apply (BitVec.allOnes (wordBits w))

/-- The target words of a row, in the order they are composed (R89, R90, R91; the masks follow the shifts, C2). -/
def targets (w : WordWidth) : Regime → List Target
  | .left m => [⟨0, .left m⟩]
  | .right m => [⟨wordsPerLine w - 1, .right m⟩]
  | .full k m =>
    if m = 0 then [⟨k, .right 0⟩]
    else [⟨k, .right m⟩, ⟨k + 1, .left (wordBits w - m)⟩]

/-- `Merge(mode, fb, S, F)` (R93; XOR and REPINV as C3 and D13 settle them, ALPHA as D14). -/
def merge {w : WordWidth} (mode : Mode) (fb s f : SpriteWord w) : SpriteWord w :=
  match mode with
  | .or => fb ||| s
  | .xor => fb ^^^ s
  | .rep => (fb &&& ~~~f) ||| s
  | .repinv => (fb &&& ~~~f) ||| (s ^^^ f)
  | .alpha => fb &&& ~~~s

/-- The address of word `widx` of row `row`: `FB_BASE + row * BPL + widx * NB(W)`, modulo 2^32 (R42). -/
def fbWordAddr (w : WordWidth) (fb : Addr) (row widx : Nat) : Addr := fbByteAddr fb row (widx * wordBytes w)

/-- The address of bitmap row `i`: `BM_BASE + i * NB(W)`, modulo 2^32 (R43, R87). -/
def bitmapRowAddr (w : WordWidth) (bm : Addr) (i : Nat) : Addr := bm + BitVec.ofNat 32 (i * wordBytes w)

/-- One target word: read in full, merged, written back in full (R94). -/
def composeTarget (w : WordWidth) (mode : Mode) (fb : Addr) (row : Nat) (s : SpriteWord w) (t : Target) : BusProg :=
  .readBE (wordBits w) (fbWordAddr w fb row t.widx) (wordBytes w) fun old =>
    .writeBE (wordBytes w) (fbWordAddr w fb row t.widx) (merge mode old (t.positioned s) (t.mask w))

/-- One screen row: bitmap row `row - y` is read, then each target word is composed (R87, R94). -/
def composeRow (w : WordWidth) (mode : Mode) (o : Operands) (ts : List Target) (row : Nat) : BusProg :=
  .readBE (wordBits w) (bitmapRowAddr w o.bm ((row : Int) - o.y).toNat) (wordBytes w) fun s =>
    .seqAll (ts.map (composeTarget w mode o.fb row s))

/-- `Compose(W, mode)`: the row loop, rows in increasing order (R94). -/
def compose (w : WordWidth) (mode : Mode) (o : Operands) : BusProg :=
  match vclip o.y o.h with
  | none => .done
  | some (first, last) =>
    match hclip o.x w with
    | none => .done
    | some regime => .seqAll ((List.range' first (last + 1 - first)).map (composeRow w mode o (targets w regime)))

end Sys2Proof.Machine
end

