-- ==== Sys2Proof/Machine/Alpha.lean ====
section
/-! DEFINITION. The three ALPHA commands (spec/42_sprite.md R107 to R109): for each its accesses, and its meaning. -/

namespace Sys2Proof.Machine

/-- The accesses of ALPHA8: `Compose(8, ALPHA)` (R107). -/
def alpha8Prog (o : Operands) : BusProg := compose .w8 .alpha o

/-- ALPHA8 (R107). -/
def execAlpha8 (s : State) : Host.Outcome State Fault Refusal := s.runCommand (alpha8Prog s.operands)

/-- The accesses of ALPHA16: `Compose(16, ALPHA)` (R108). -/
def alpha16Prog (o : Operands) : BusProg := compose .w16 .alpha o

/-- ALPHA16 (R108). -/
def execAlpha16 (s : State) : Host.Outcome State Fault Refusal := s.runCommand (alpha16Prog s.operands)

/-- The accesses of ALPHA32: `Compose(32, ALPHA)` (R109). -/
def alpha32Prog (o : Operands) : BusProg := compose .w32 .alpha o

/-- ALPHA32 (R109). -/
def execAlpha32 (s : State) : Host.Outcome State Fault Refusal := s.runCommand (alpha32Prog s.operands)

end Sys2Proof.Machine
end

