-- ==== Sys2Proof/Machine/Blit.lean ====
section
/-! DEFINITION. The twelve BLIT commands (spec/42_sprite.md R95 to R106): for each its accesses, and its meaning. -/

namespace Sys2Proof.Machine

/-- The accesses of BLIT8.OR: `Compose(8, OR)` (R95). -/
def blit8OrProg (o : Operands) : BusProg := compose .w8 .or o

/-- BLIT8.OR (R95). -/
def execBlit8Or (s : State) : Host.Outcome State Fault Refusal := s.runCommand (blit8OrProg s.operands)

/-- The accesses of BLIT8.XOR: `Compose(8, XOR)` (R96). -/
def blit8XorProg (o : Operands) : BusProg := compose .w8 .xor o

/-- BLIT8.XOR (R96). -/
def execBlit8Xor (s : State) : Host.Outcome State Fault Refusal := s.runCommand (blit8XorProg s.operands)

/-- The accesses of BLIT8.REP: `Compose(8, REP)` (R97). -/
def blit8RepProg (o : Operands) : BusProg := compose .w8 .rep o

/-- BLIT8.REP (R97). -/
def execBlit8Rep (s : State) : Host.Outcome State Fault Refusal := s.runCommand (blit8RepProg s.operands)

/-- The accesses of BLIT8.REPINV: `Compose(8, REPINV)` (R98). -/
def blit8RepinvProg (o : Operands) : BusProg := compose .w8 .repinv o

/-- BLIT8.REPINV (R98). -/
def execBlit8Repinv (s : State) : Host.Outcome State Fault Refusal := s.runCommand (blit8RepinvProg s.operands)

/-- The accesses of BLIT16.OR: `Compose(16, OR)` (R99). -/
def blit16OrProg (o : Operands) : BusProg := compose .w16 .or o

/-- BLIT16.OR (R99). -/
def execBlit16Or (s : State) : Host.Outcome State Fault Refusal := s.runCommand (blit16OrProg s.operands)

/-- The accesses of BLIT16.XOR: `Compose(16, XOR)` (R100). -/
def blit16XorProg (o : Operands) : BusProg := compose .w16 .xor o

/-- BLIT16.XOR (R100). -/
def execBlit16Xor (s : State) : Host.Outcome State Fault Refusal := s.runCommand (blit16XorProg s.operands)

/-- The accesses of BLIT16.REP: `Compose(16, REP)` (R101). -/
def blit16RepProg (o : Operands) : BusProg := compose .w16 .rep o

/-- BLIT16.REP (R101). -/
def execBlit16Rep (s : State) : Host.Outcome State Fault Refusal := s.runCommand (blit16RepProg s.operands)

/-- The accesses of BLIT16.REPINV: `Compose(16, REPINV)` (R102). -/
def blit16RepinvProg (o : Operands) : BusProg := compose .w16 .repinv o

/-- BLIT16.REPINV (R102). -/
def execBlit16Repinv (s : State) : Host.Outcome State Fault Refusal := s.runCommand (blit16RepinvProg s.operands)

/-- The accesses of BLIT32.OR: `Compose(32, OR)` (R103). -/
def blit32OrProg (o : Operands) : BusProg := compose .w32 .or o

/-- BLIT32.OR (R103). -/
def execBlit32Or (s : State) : Host.Outcome State Fault Refusal := s.runCommand (blit32OrProg s.operands)

/-- The accesses of BLIT32.XOR: `Compose(32, XOR)` (R104). -/
def blit32XorProg (o : Operands) : BusProg := compose .w32 .xor o

/-- BLIT32.XOR (R104). -/
def execBlit32Xor (s : State) : Host.Outcome State Fault Refusal := s.runCommand (blit32XorProg s.operands)

/-- The accesses of BLIT32.REP: `Compose(32, REP)` (R105). -/
def blit32RepProg (o : Operands) : BusProg := compose .w32 .rep o

/-- BLIT32.REP (R105). -/
def execBlit32Rep (s : State) : Host.Outcome State Fault Refusal := s.runCommand (blit32RepProg s.operands)

/-- The accesses of BLIT32.REPINV: `Compose(32, REPINV)` (R106). -/
def blit32RepinvProg (o : Operands) : BusProg := compose .w32 .repinv o

/-- BLIT32.REPINV (R106). -/
def execBlit32Repinv (s : State) : Host.Outcome State Fault Refusal := s.runCommand (blit32RepinvProg s.operands)

end Sys2Proof.Machine
end

