-- ==== Sys2Proof/Machine/Nop.lean ====
section
/-! DEFINITION. NOP (spec/40_command.md R72). -/

namespace Sys2Proof.Machine

/-- NOP makes no memory access and reads no operand (R72). -/
def nopProg : BusProg := .done

/-- NOP: STATUS <- 0x00000000 and nothing else (R69, R72). -/
def execNop (s : State) : Host.Outcome State Fault Refusal := s.runCommand nopProg

end Sys2Proof.Machine
end

