-- ==== Sys2Proof/Machine/Dispatch.lean ====
section
/-! DEFINITION. One arm per command: each is one direct call of its meaning. -/

namespace Sys2Proof.Machine

open Sys2Proof

def exec (i : Instr) (s : State) : Host.Outcome State Fault Refusal :=
  match i with
  | .nop => Sys2Proof.Machine.execNop s
  | .plot => Sys2Proof.Machine.execPlot s
  | .hline => Sys2Proof.Machine.execHline s
  | .fillrect => Sys2Proof.Machine.execFillrect s
  | .clearrect => Sys2Proof.Machine.execClearrect s
  | .blit8Or => Sys2Proof.Machine.execBlit8Or s
  | .blit8Xor => Sys2Proof.Machine.execBlit8Xor s
  | .blit8Rep => Sys2Proof.Machine.execBlit8Rep s
  | .blit8Repinv => Sys2Proof.Machine.execBlit8Repinv s
  | .blit16Or => Sys2Proof.Machine.execBlit16Or s
  | .blit16Xor => Sys2Proof.Machine.execBlit16Xor s
  | .blit16Rep => Sys2Proof.Machine.execBlit16Rep s
  | .blit16Repinv => Sys2Proof.Machine.execBlit16Repinv s
  | .blit32Or => Sys2Proof.Machine.execBlit32Or s
  | .blit32Xor => Sys2Proof.Machine.execBlit32Xor s
  | .blit32Rep => Sys2Proof.Machine.execBlit32Rep s
  | .blit32Repinv => Sys2Proof.Machine.execBlit32Repinv s
  | .alpha8 => Sys2Proof.Machine.execAlpha8 s
  | .alpha16 => Sys2Proof.Machine.execAlpha16 s
  | .alpha32 => Sys2Proof.Machine.execAlpha32 s

end Sys2Proof.Machine
end

