-- ==== Sys2Proof/Machine/Programs.lean ====
section
/-! DEFINITION. The accesses of each command as a function of its operands: what `exec` runs
(`Sys2Proof.Machine.exec_eq_runCommand`), for the runs that are disturbed (R52, R135) and for the statements about a
command's accesses (R50, R146). -/

namespace Sys2Proof.Machine

open Sys2Proof

/-- The memory accesses of a command (R50). -/
def program (i : Instr) (o : Operands) : BusProg :=
  match i with
  | .nop => nopProg
  | .plot => plotProg o
  | .hline => hlineProg o
  | .fillrect => fillrectProg o
  | .clearrect => clearrectProg o
  | .blit8Or => blit8OrProg o
  | .blit8Xor => blit8XorProg o
  | .blit8Rep => blit8RepProg o
  | .blit8Repinv => blit8RepinvProg o
  | .blit16Or => blit16OrProg o
  | .blit16Xor => blit16XorProg o
  | .blit16Rep => blit16RepProg o
  | .blit16Repinv => blit16RepinvProg o
  | .blit32Or => blit32OrProg o
  | .blit32Xor => blit32XorProg o
  | .blit32Rep => blit32RepProg o
  | .blit32Repinv => blit32RepinvProg o
  | .alpha8 => alpha8Prog o
  | .alpha16 => alpha16Prog o
  | .alpha32 => alpha32Prog o

end Sys2Proof.Machine
end

