-- ==== Sys2Proof/Machine/Issue.lean ====
section
/-! DEFINITION. What the host's accesses do (spec/10_state.md R22, spec/40_command.md R69, R70): command issue, reads
and writes of the window and of memory, reset, and the two disturbed runs (R52, R135). -/

namespace Sys2Proof.Machine

/-- Command issue (R69): CMD holds the word, legal or not (R27); an illegal word takes ILLEGAL_CMD (R119), a legal
one is run. -/
def issue (c : Word) (s : State) : Host.Outcome State Fault Refusal :=
  match decode c with
  | .error _ => .next ((s.writeReg .cmd c).raiseError .illegalCmd)
  | .ok i => exec i (s.writeReg .cmd c)

/-- A host read of the window (R22); the program records the value (R66). -/
def hostRegRead (off : BitVec 5) (width : AccessWidth) (s : State) : Host.Outcome State Fault Refusal :=
  match accessedReg off width with
  | none => .refused .hostAccessNotAligned32
  | some r => .next (s.record (s.readReg r))

/-- A host write of the window (R22); one to CMD starts a command (R69). -/
def hostRegWrite (off : BitVec 5) (width : AccessWidth) (data : Word) (s : State) :
    Host.Outcome State Fault Refusal :=
  match accessedReg off width with
  | none => .refused .hostAccessNotAligned32
  | some .cmd => issue data s
  | some r => .next (s.writeReg r data)

/-- A host read of a byte of memory (R51, R144); the value is recorded (notes/assumptions/12.md). A byte of the
window cannot be read alone (U6). -/
def hostMemRead (a : Addr) (s : State) : Host.Outcome State Fault Refusal :=
  if s.platform.inWindow a then .refused .hostAccessNotAligned32
  else
    let b := s.bus
    .next ((s.withBus (b.afterRead s.platform a)).record ((b.valueAt s.platform a).setWidth 32))

/-- A host write of a byte of memory (R51, R137). A byte of the window cannot be written alone (U6). -/
def hostMemWrite (a : Addr) (v : Byte) (s : State) : Host.Outcome State Fault Refusal :=
  if s.platform.inWindow a then .refused .hostAccessNotAligned32
  else .next (s.withBus (s.bus.afterWrite s.platform a v))

/-- The bus a disturbed run starts on: the draw with the number `s.draws` is the run's own. -/
def State.drawnBus (s : State) : Bus := { s.bus with draws := s.draws + 1 }

/-- Some foreign write falls in the window, where only 32-bit accesses have a meaning (U6). -/
def foreignInWindow (others : List (Addr × Byte)) (s : State) : Bool :=
  others.any fun o => s.platform.inWindow o.1

/-- A CMD write of `c` while other agents write `others` (R52, U3). -/
def contendedCmd (c : Word) (others : List (Addr × Byte)) (s : State) : Host.Outcome State Fault Refusal :=
  if foreignInWindow others s then .refused .hostAccessNotAligned32
  else
    match decode c with
    | .error _ =>
      .next (((s.writeReg .cmd c).withBus (s.bus.land s.platform others)).raiseError .illegalCmd)
    | .ok i =>
      (s.writeReg .cmd c).finish ((program i s.operands).runAmong s.platform s.draws 0 others s.drawnBus)

/-- The end of a command that reset cut short: what its accesses left in memory stays, and the registers take their
reset values, whatever its end would have been (R133, R135). -/
def State.finishByReset (s : State) (r : RunEnd) : Host.Outcome State Fault Refusal :=
  match r.stop with
  | some (.ownWindow a) => .refused (.blockAccessToOwnWindow a)
  | some .refused => .next (s.withBus r.bus).resetRegisters
  | none => .next (s.withBus r.bus).resetRegisters

/-- A CMD write of `c` during whose command reset arrives (R135, U5): a free number of the command's first accesses
has been performed, and then the registers take their reset values. -/
def resetDuringCmd (c : Word) (others : List (Addr × Byte)) (s : State) : Host.Outcome State Fault Refusal :=
  if foreignInWindow others s then .refused .hostAccessNotAligned32
  else
    match decode c with
    | .error _ => .next (s.withBus (s.bus.land s.platform others)).resetRegisters
    | .ok i =>
      s.finishByReset
        (((program i s.operands).cut (Config.resetPoint s.draws)).runAmong s.platform s.draws 0 others s.drawnBus)

/-- One access of the host. -/
def perform (a : HostAccess) (s : State) : Host.Outcome State Fault Refusal :=
  match a with
  | .regRead off width => hostRegRead off width s
  | .regWrite off width data => hostRegWrite off width data s
  | .memRead a => hostMemRead a s
  | .memWrite a v => hostMemWrite a v s
  | .reset => .next s.resetRegisters
  | .contendedCmd c others => contendedCmd c others s
  | .resetDuringCmd c others => resetDuringCmd c others s

/-- The next access of the host; with none pending the block is idle, keeps its registers and makes no access
(R132). -/
def performNext (s : State) : Host.Outcome State Fault Refusal :=
  match s.host with
  | [] => .next s
  | a :: rest => perform a { s with host := rest }

/-- The host access that issues command word `c`: a 32-bit write at offset 0x10 (R21, R69). -/
def cmdWrite (c : Word) : HostAccess := .regWrite 0x10#5 .word c

end Sys2Proof.Machine
end

