-- ==== Sys2Proof/WellFormed.lean ====
section
/-! DEFINITION. Which terms of the syntax are meaningful: every command (a command has no operand), and the host
statements an assembler accepts (R67). -/

namespace Sys2Proof

/-- Every command is well formed: its word is one exact 32-bit value (R65) and carries no operand (R57). -/
def Instr.wellFormed : Instr → Bool
  | .nop | .plot | .hline | .fillrect | .clearrect
  | .blit8Or | .blit8Xor | .blit8Rep | .blit8Repinv
  | .blit16Or | .blit16Xor | .blit16Rep | .blit16Repinv
  | .blit32Or | .blit32Xor | .blit32Rep | .blit32Repinv
  | .alpha8 | .alpha16 | .alpha32 => true

/-- BLITw.mode and ALPHAw, the commands that the sprite pseudo-instructions of R67 name. -/
def Instr.isSprite : Instr → Bool
  | .nop | .plot | .hline | .fillrect | .clearrect => false
  | .blit8Or | .blit8Xor | .blit8Rep | .blit8Repinv
  | .blit16Or | .blit16Xor | .blit16Rep | .blit16Repinv
  | .blit32Or | .blit32Xor | .blit32Rep | .blit32Repinv
  | .alpha8 | .alpha16 | .alpha32 => true

/-- A coordinate operand must lie in `[-32768, 32767]`: "an assembler refuses any other value" (R67). -/
def Stmt.coordinateOk (v : Int) : Bool := decide (-32768 ≤ v) && decide (v ≤ 32767)

/-- The statements an assembler accepts (R67). R67 checks "each coordinate operand" and does not say whether `len` and
`h`, which R62 names apart as length and height, are among them: here they are checked too (DESIGN CHOICE,
notes/assumptions/19.md). -/
def Stmt.wellFormed : Stmt → Bool
  | .write _ _ => true
  | .read _ => true
  | .cmd i => i.wellFormed
  | .nop => true
  | .setFb _ => true
  | .setBm _ => true
  | .plot x y => coordinateOk x && coordinateOk y
  | .hline x1 x2 y => coordinateOk x1 && coordinateOk x2 && coordinateOk y
  | .fillrect x len y h => coordinateOk x && coordinateOk len && coordinateOk y && coordinateOk h
  | .clearrect x len y h => coordinateOk x && coordinateOk len && coordinateOk y && coordinateOk h
  | .sprite i x y h _ => i.isSprite && coordinateOk x && coordinateOk y && coordinateOk h

end Sys2Proof
end

