-- ==== Sys2Proof/Machine/Assembler.lean ====
section
/-! DEFINITION. Host programs (spec/30_encoding.md R66, R67): their text, their statements, and the host accesses
they expand to. -/

namespace Sys2Proof.Machine

open Sys2Proof

/-! ### Expansion -/

/-- The window offset of a register (R21). -/
def regOffset : RegName → BitVec 5
  | .fbBase => 0x00
  | .bmBase => 0x04
  | .arg0 => 0x08
  | .arg1 => 0x0C
  | .cmd => 0x10
  | .status => 0x14
  | .geom => 0x18

/-- `W <reg>, <value>`: a 32-bit host write (R66). -/
def regWriteAccess (r : RegName) (v : Word) : HostAccess := .regWrite (regOffset r) .word v

/-- The writes of ARG0, ARG1 and CMD that every drawing pseudo-instruction ends with (R67). -/
def drawAccesses (arg0 arg1 : Word) (i : Instr) : List HostAccess :=
  [regWriteAccess .arg0 arg0, regWriteAccess .arg1 arg1, regWriteAccess .cmd (encode i)]

/-- The accesses of a statement (R66, R67). "The expansions write 0 to fields the command does not read." -/
def expand : Stmt → List HostAccess
  | .write r v => [regWriteAccess r v]
  | .read r => [.regRead (regOffset r) .word]
  | .cmd i => [regWriteAccess .cmd (encode i)]
  | .nop => [regWriteAccess .cmd (encode .nop)]
  | .setFb a => [regWriteAccess .fbBase a]
  | .setBm a => [regWriteAccess .bmBase a]
  | .plot x y => drawAccesses (pack x 0) (pack y 0) .plot
  | .hline x1 x2 y => drawAccesses (pack x1 x2) (pack y 0) .hline
  | .fillrect x len y h => drawAccesses (pack x len) (pack y h) .fillrect
  | .clearrect x len y h => drawAccesses (pack x len) (pack y h) .clearrect
  | .sprite i x y h none => drawAccesses (pack x 0) (pack y h) i
  | .sprite i x y h (some bm) => regWriteAccess .bmBase bm :: drawAccesses (pack x 0) (pack y h) i

/-- The accesses of a host program, in its order; none where a statement is not well formed: "an assembler refuses
any other value" (R66, R67). -/
def assemble (p : List Stmt) : Option (List HostAccess) :=
  if p.all Stmt.wellFormed then some (p.flatMap expand) else none

/-! ### The text of a host program (R66) -/

/-- The text before a character, and the text after it where it occurs. -/
def splitAtChar (c : Char) : List Char → List Char × Option (List Char)
  | [] => ([], none)
  | d :: ds => if d = c then ([], some ds) else ((d :: (splitAtChar c ds).1), (splitAtChar c ds).2)

/-- The pieces of a text between the occurrences of a character. -/
def splitOnChar (c : Char) : List Char → List (List Char)
  | [] => [[]]
  | d :: ds =>
    if d = c then [] :: splitOnChar c ds
    else
      match splitOnChar c ds with
      | [] => [[d]]
      | p :: ps => (d :: p) :: ps

/-- A space or a tab. -/
def isBlank (c : Char) : Bool := c = ' ' || c = '\t'

/-- The text without blanks at its two ends. -/
def trim (cs : List Char) : List Char := ((cs.dropWhile isBlank).reverse.dropWhile isBlank).reverse

/-- The value of a decimal digit. -/
def decDigit (c : Char) : Option Nat :=
  if 48 ≤ c.toNat ∧ c.toNat ≤ 57 then some (c.toNat - 48) else none

/-- The value of a hexadecimal digit, either case. -/
def hexDigitVal (c : Char) : Option Nat :=
  if 48 ≤ c.toNat ∧ c.toNat ≤ 57 then some (c.toNat - 48)
  else if 65 ≤ c.toNat ∧ c.toNat ≤ 70 then some (c.toNat - 55)
  else if 97 ≤ c.toNat ∧ c.toNat ≤ 102 then some (c.toNat - 87)
  else none

/-- The number with the given digits, after digits whose value is `acc`. -/
def digitsVal (base : Nat) (digit : Char → Option Nat) : List Char → (acc : Nat) → Option Nat
  | [], acc => some acc
  | c :: cs, acc =>
    match digit c with
    | none => none
    | some d => digitsVal base digit cs (acc * base + d)

/-- "Numbers are decimal, `-` decimal, or `0x` hexadecimal" (R66); at least one digit. -/
def parseNumber (cs : List Char) : Option Int :=
  match cs with
  | [] => none
  | ['-'] => none
  | ['0', 'x'] => none
  | '0' :: 'x' :: ds => (digitsVal 16 hexDigitVal ds 0).map Int.ofNat
  | '-' :: ds => (digitsVal 10 decDigit ds 0).map fun n => -(Int.ofNat n)
  | ds => (digitsVal 10 decDigit ds 0).map Int.ofNat

/-- A number as a 32-bit value: one that 32 bits can hold, unsigned or two's complement
(notes/assumptions/15.md). -/
def parseWord (cs : List Char) : Option Word :=
  match parseNumber cs with
  | none => none
  | some v => if -(2 ^ 31) ≤ v ∧ v < 2 ^ 32 then some (BitVec.ofInt 32 v) else none

/-- A register name (R66). -/
def parseReg (cs : List Char) : Option RegName :=
  match String.ofList cs with
  | "FB_BASE" => some .fbBase
  | "BM_BASE" => some .bmBase
  | "ARG0" => some .arg0
  | "ARG1" => some .arg1
  | "CMD" => some .cmd
  | "STATUS" => some .status
  | "GEOM" => some .geom
  | _ => none

/-- A mnemonic (R65). -/
def parseMnemonic (cs : List Char) : Option Instr :=
  allInstrs.find? fun i => mnemonic i == String.ofList cs

/-- A drawing pseudo-instruction with its operands (R67); a bitmap operand only where the command has one. -/
def parseDraw (i : Instr) (ops : List (List Char)) : Option Stmt :=
  match i, ops with
  | .plot, [x, y] => do return .plot (← parseNumber x) (← parseNumber y)
  | .hline, [x1, x2, y] => do return .hline (← parseNumber x1) (← parseNumber x2) (← parseNumber y)
  | .fillrect, [x, l, y, h] =>
    do return .fillrect (← parseNumber x) (← parseNumber l) (← parseNumber y) (← parseNumber h)
  | .clearrect, [x, l, y, h] =>
    do return .clearrect (← parseNumber x) (← parseNumber l) (← parseNumber y) (← parseNumber h)
  | i, [x, y, h] =>
    if i.isSprite then do return .sprite i (← parseNumber x) (← parseNumber y) (← parseNumber h) none else none
  | i, [x, y, h, bm] =>
    if i.isSprite then
      do return .sprite i (← parseNumber x) (← parseNumber y) (← parseNumber h) (some (← parseWord bm))
    else none
  | _, _ => none

/-- A statement: its first word, and its operands between commas (R66, R67). -/
def parseStmt (cs : List Char) : Option Stmt :=
  let (head, rest) := splitAtChar ' ' cs
  match String.ofList head, rest.map fun r => (splitOnChar ',' r).map trim with
  | "NOP", none => some .nop
  | "W", some [r, v] => do return .write (← parseReg r) (← parseWord v)
  | "R", some [r] => do return .read (← parseReg r)
  | "CMD", some [m] => do return .cmd (← parseMnemonic m)
  | "SETFB", some [a] => do return .setFb (← parseWord a)
  | "SETBM", some [a] => do return .setBm (← parseWord a)
  | _, some ops =>
    match parseMnemonic head with
    | none => none
    | some i => parseDraw i ops
  | _, none => none

/-- One line: `;` starts a comment to its end (R66). The inner `none` is a line without a statement, blank or holding
only a comment. R66 says "one statement each" and not whether such a line may stand in a program: here it may, and
adds nothing (DESIGN CHOICE, notes/assumptions/15.md). -/
def parseLine (line : List Char) : Option (Option Stmt) :=
  match trim (splitAtChar ';' line).1 with
  | [] => some none
  | cs => (parseStmt cs).map some

/-- The statements of lines of text, in order; none where a line is no statement. -/
def parseLines : List (List Char) → Option (List Stmt)
  | [] => some []
  | l :: ls =>
    match parseLine l, parseLines ls with
    | some (some s), some p => some (s :: p)
    | some none, some p => some p
    | _, _ => none

/-- The assembler: the host accesses of a program's text, one statement a line (R66, R67). -/
def assembleText (t : List Char) : Option (List HostAccess) :=
  match parseLines (splitOnChar '\n' t) with
  | none => none
  | some p => assemble p

end Sys2Proof.Machine
end

