-- ==== Sys2Proof/Safety.lean ====
section
/-! DEFINITION. What counts as a safe run, in the terms the statements use: the accesses a command is going to make,
a command that may make them all, the pixels of a framebuffer, and the invariant every step keeps. -/

namespace Sys2Proof.Machine

open Sys2Proof Sys2Proof.Config

/-- Every access of a command falls on plain memory: `MemOK` holds there, no device, outside the block's own window.
These are the operands and states in which the spec says what the command's memory result is (R11, R22, R47). -/
def State.allows (s : State) (i : Instr) : Prop :=
  ∀ a ∈ (program i s.operands).addresses, s.platform.ordinary a = true

/-- `s'` differs from `s` in memory, STATUS and the model's count of free values at most: no command writes FB_BASE,
BM_BASE, ARG0, ARG1 or CMD (R32). -/
def State.sameRegisters (s s' : State) : Prop :=
  s'.fbBase = s.fbBase ∧ s'.bmBase = s.bmBase ∧ s'.arg0 = s.arg0 ∧ s'.arg1 = s.arg1 ∧ s'.cmd = s.cmd ∧
  s'.platform = s.platform ∧ s'.host = s.host ∧ s'.recorded = s.recorded

/-- Pixel `(x, y)` of the framebuffer at `fb`: bit `7 - (x mod 8)` of the byte at `fb + y * BPL + (x div 8)` (R41). -/
def Memory.pixel (m : Memory) (fb : Addr) (x y : Nat) : Bool :=
  (m.read (fbByteAddr fb y (x / 8))).getLsbD (7 - x % 8)

/-- Bit `colbit_W(c)` of bitmap row `i`: the sprite's pixel at column `c`, row `i`, in the byte that a big-endian
row keeps it in (R18, R43). -/
def Memory.spriteBit (m : Memory) (bm : Addr) (w : WordWidth) (c i : Nat) : Bool :=
  (m.read (bm + BitVec.ofNat 32 (i * wordBytes w + c / 8))).getLsbD (7 - c % 8)

/-- An address is a byte of the framebuffer at `fb` (R40). -/
def inFramebuffer (fb a : Addr) : Prop := (a - fb).toNat < FBSIZE

/-- The word width and the mode of a sprite command (R85). -/
def spriteKind : Instr → Option (WordWidth × Mode)
  | .nop => none
  | .plot => none
  | .hline => none
  | .fillrect => none
  | .clearrect => none
  | .blit8Or => some (.w8, .or)
  | .blit8Xor => some (.w8, .xor)
  | .blit8Rep => some (.w8, .rep)
  | .blit8Repinv => some (.w8, .repinv)
  | .blit16Or => some (.w16, .or)
  | .blit16Xor => some (.w16, .xor)
  | .blit16Rep => some (.w16, .rep)
  | .blit16Repinv => some (.w16, .repinv)
  | .blit32Or => some (.w32, .or)
  | .blit32Xor => some (.w32, .xor)
  | .blit32Rep => some (.w32, .rep)
  | .blit32Repinv => some (.w32, .repinv)
  | .alpha8 => some (.w8, .alpha)
  | .alpha16 => some (.w16, .alpha)
  | .alpha32 => some (.w32, .alpha)

/-- A pixel's value after a sprite command, from its value before and the sprite's bit (the table of R110). -/
def mergePixel : Mode → Bool → Bool → Bool
  | .or, p, b => p || b
  | .xor, p, b => p != b
  | .rep, _, b => b
  | .repinv, _, b => !b
  | .alpha, p, b => p && !b

/-- The screen pixels of a W-bit sprite of height `h` with its top left pixel at `(x, y)` (R110). -/
def spriteFootprint (w : WordWidth) (o : Operands) (X r : Nat) : Bool :=
  decide (o.x ≤ X ∧ (X : Int) < o.x + wordBits w ∧ o.y ≤ r ∧ (r : Int) < o.y + o.h)

/-- The screen pixels a command is about: PLOT's pixel, HLINE's span between its endpoints, the rectangle of
FILLRECT and CLEARRECT unless its origin is negative, and the W columns and h rows of a sprite (R84, R110). `X` and
`r` are a column and a row of the screen. -/
def footprint (i : Instr) (o : Operands) (X r : Nat) : Bool :=
  match i with
  | .nop => false
  | .plot => decide (o.x = X ∧ o.y = r)
  | .hline => decide (min o.x o.x2 ≤ X ∧ (X : Int) ≤ max o.x o.x2 ∧ o.y = r)
  | .fillrect | .clearrect =>
    decide (0 ≤ o.x ∧ 0 ≤ o.y ∧ o.x ≤ X ∧ (X : Int) < o.x + o.x2 ∧ o.y ≤ r ∧ (r : Int) < o.y + o.h)
  | .blit8Or | .blit8Xor | .blit8Rep | .blit8Repinv | .alpha8 => spriteFootprint .w8 o X r
  | .blit16Or | .blit16Xor | .blit16Rep | .blit16Repinv | .alpha16 => spriteFootprint .w16 o X r
  | .blit32Or | .blit32Xor | .blit32Rep | .blit32Repinv | .alpha32 => spriteFootprint .w32 o X r

/-- No byte of the bitmap rows that a sprite command reads (R87) is a byte of the framebuffer: no overlap in the sense
of R141. -/
def bitmapApart (w : WordWidth) (o : Operands) : Prop :=
  ∀ r < SH, ∀ k < wordBytes w, o.y ≤ r → (r : Int) < o.y + o.h →
    FBSIZE ≤ (o.bm + BitVec.ofNat 32 (((r : Int) - o.y).toNat * wordBytes w + k) - o.fb).toNat

/-- The screen columns that the target words of a clip regime cover (R92, R112). -/
def rowColumns (w : WordWidth) (g : Regime) : List Nat :=
  (List.range SW).filter fun X => (targets w g).any fun t =>
    t.widx == X / wordBits w && (t.mask w).getLsbD (wordBits w - 1 - X % wordBits w)

/-- The sprite's bit that the target words of a clip regime put at screen column `X`, for a bitmap row word (R92). -/
def rowBit (w : WordWidth) (g : Regime) (sprite : SpriteWord w) (X : Nat) : Bool :=
  (targets w g).any fun t =>
    t.widx == X / wordBits w && (t.positioned sprite).getLsbD (wordBits w - 1 - X % wordBits w)

/-- How many bytes of a span's row are boundary bytes: those whose span mask is not 0xFF (R74, R146). -/
def boundaryBytes (lo hi : Nat) : Nat :=
  if lo / 8 = hi / 8 then (if lo % 8 = 0 ∧ hi % 8 = 7 then 0 else 1)
  else (if lo % 8 = 0 then 0 else 1) + (if hi % 8 = 7 then 0 else 1)

/-- Two states give a command the same operands, by the table of R37: only the fields it reads are compared. -/
def sameReads (i : Instr) (s s' : State) : Prop :=
  match i with
  | .nop => True
  | .plot => s.fbBase = s'.fbBase ∧ lowHalf s.arg0 = lowHalf s'.arg0 ∧ lowHalf s.arg1 = lowHalf s'.arg1
  | .hline => s.fbBase = s'.fbBase ∧ s.arg0 = s'.arg0 ∧ lowHalf s.arg1 = lowHalf s'.arg1
  | .fillrect | .clearrect => s.fbBase = s'.fbBase ∧ s.arg0 = s'.arg0 ∧ s.arg1 = s'.arg1
  | .blit8Or | .blit8Xor | .blit8Rep | .blit8Repinv
  | .blit16Or | .blit16Xor | .blit16Rep | .blit16Repinv
  | .blit32Or | .blit32Xor | .blit32Rep | .blit32Repinv
  | .alpha8 | .alpha16 | .alpha32 =>
    s.fbBase = s'.fbBase ∧ s.bmBase = s'.bmBase ∧ lowHalf s.arg0 = lowHalf s'.arg0 ∧ s.arg1 = s'.arg1

/-- Memory after performed accesses, in order; a write to a device changes none (U8). -/
def Memory.replay (p : Platform) : Memory → List Access → Memory
  | m, [] => m
  | m, .read _ _ :: rest => replay p m rest
  | m, .write a v :: rest => replay p (if p.isDevice a then m else m.write a v) rest

/-- The accesses a run performed, first to last. -/
def RunEnd.performed (r : RunEnd) : List Access := r.bus.log.reverse

/-- The address of an access. -/
def Access.addr : Access → Addr
  | .read a _ => a
  | .write a _ => a

/-- The access is a read. -/
def Access.isRead : Access → Bool
  | .read _ _ => true
  | .write _ _ => false

/-- The access is a write. -/
def Access.isWrite : Access → Bool
  | .read _ _ => false
  | .write _ _ => true

/-- A command can begin with these accesses: each is the one it makes next, given the bytes its reads gave so far. -/
def BusProg.begins : BusProg → List Access → Prop
  | _, [] => True
  | .done, _ :: _ => False
  | .read a k, .read a' v :: rest => a' = a ∧ (k v).begins rest
  | .read _ _, .write _ _ :: _ => False
  | .write a v k, .write a' v' :: rest => a' = a ∧ v' = v ∧ k.begins rest
  | .write _ _ _, .read _ _ :: _ => False

/-- The third list of accesses is the first two put together, each kept in its own order (R52). -/
def Interleaves (xs ys : List Access) : List Access → Prop
  | [] => xs = [] ∧ ys = []
  | z :: zs => (∃ xs', xs = z :: xs' ∧ Interleaves xs' ys zs) ∨ (∃ ys', ys = z :: ys' ∧ Interleaves xs ys' zs)

/-- Every read among accesses in this order gives the byte that stands there then; a device's reads may give any
(U8). -/
def Memory.seenBy (p : Platform) : Memory → List Access → Prop
  | _, [] => True
  | m, .read a v :: rest => (p.isDevice a = false → v = m.read a) ∧ seenBy p m rest
  | m, .write a v :: rest => seenBy p (if p.isDevice a then m else m.write a v) rest

/-- What every step keeps: memory in its canonical form; STATUS one of the three words of R118 and in step with CMD,
the last command's word: ILLEGAL_CMD exactly when that word is illegal (R119), BUS_ERROR only when it is a drawing
command (R118: "raised by"). -/
structure State.Inv (s : State) : Prop where
  memory : s.mem.wf = true
  statusLegal : s.status = 0x00000000#32 ∨ s.status = 0x00000011#32 ∨ s.status = 0x00000021#32
  illegalIffStatus : s.status = 0x00000011#32 ↔ legal s.cmd = false
  busErrorDraws : s.status = 0x00000021#32 → s.cmd ≠ 0x00000000#32

end Sys2Proof.Machine
end

