-- ==== Sys2Proof/Certificates/Slice0/Obligations.lean ====
section
/-! DEFINITION. The statements about the model, for the provers. OBLIGATIONS.json lists them with the rules they
formalise. -/

open Sys2Proof Sys2Proof.Machine

/-- For every row of R65's table (command word, mnemonic, OP, WSEL, DESTR, INV): the word decodes to a command, that
command encodes to the word and has the mnemonic, and the word's fields have the row's values. Every command's
word is in the table, and no other word decodes to the command (the mask is 0xFFFFFFFF). Rules R65 (stated). -/
def Obligations.CommandWordsOfTheTable : Prop :=
  (∀ row ∈ ([
       (0x00000000#32, "NOP", 0, 0, false, false),
       (0x00000001#32, "PLOT", 1, 0, false, false),
       (0x00000002#32, "HLINE", 2, 0, false, false),
       (0x00000003#32, "FILLRECT", 3, 0, false, false),
       (0x00000004#32, "CLEARRECT", 4, 0, false, false),
       (0x00000005#32, "BLIT8.OR", 5, 0, false, false),
       (0x00000085#32, "BLIT8.XOR", 5, 0, false, true),
       (0x00000045#32, "BLIT8.REP", 5, 0, true, false),
       (0x000000C5#32, "BLIT8.REPINV", 5, 0, true, true),
       (0x00000015#32, "BLIT16.OR", 5, 1, false, false),
       (0x00000095#32, "BLIT16.XOR", 5, 1, false, true),
       (0x00000055#32, "BLIT16.REP", 5, 1, true, false),
       (0x000000D5#32, "BLIT16.REPINV", 5, 1, true, true),
       (0x00000025#32, "BLIT32.OR", 5, 2, false, false),
       (0x000000A5#32, "BLIT32.XOR", 5, 2, false, true),
       (0x00000065#32, "BLIT32.REP", 5, 2, true, false),
       (0x000000E5#32, "BLIT32.REPINV", 5, 2, true, true),
       (0x00000006#32, "ALPHA8", 6, 0, false, false),
       (0x00000016#32, "ALPHA16", 6, 1, false, false),
       (0x00000026#32, "ALPHA32", 6, 2, false, false)] : List (Word × String × Nat × Nat × Bool × Bool)),
    (∃ i, decode row.1 = .ok i ∧ encode i = row.1 ∧ mnemonic i = row.2.1) ∧
    (cmdOp row.1).toNat = row.2.2.1 ∧ (cmdWsel row.1).toNat = row.2.2.2.1 ∧
    cmdDestr row.1 = row.2.2.2.2.1 ∧ cmdInv row.1 = row.2.2.2.2.2) ∧
  (∀ i : Instr, encode i ∈ ([0x00000000#32, 0x00000001#32, 0x00000002#32, 0x00000003#32, 0x00000004#32, 0x00000005#32, 0x00000085#32, 0x00000045#32, 0x000000C5#32, 0x00000015#32, 0x00000095#32, 0x00000055#32, 0x000000D5#32, 0x00000025#32, 0x000000A5#32, 0x00000065#32, 0x000000E5#32, 0x00000006#32, 0x00000016#32, 0x00000026#32] : List Word)) ∧
  ∀ (c : Word) (i : Instr), decode c = .ok i → c = encode i

/-- For every 32-bit word c: c is legal iff RSVD is 0 and OP is 0 to 4 with bits [7:4] 0, or OP is 5 with WSEL not
3, or OP is 6 with WSEL not 3 and bits [7:6] 0; equivalently iff c is one of the 20 words. In every state, a
host write of an illegal c to CMD gives STATUS = 0x00000011 with memory unchanged. Rules R61 (stated). -/
def Obligations.LegalityRuleSelectsTheTwentyWords : Prop :=
  (∀ c : Word, legal c = true ↔
    c.extractLsb' 8 24 = 0#24 ∧
      (((c.extractLsb' 0 4).toNat ≤ 4 ∧ c.extractLsb' 4 4 = 0#4) ∨
       (c.extractLsb' 0 4 = 5#4 ∧ c.extractLsb' 4 2 ≠ 3#2) ∨
       (c.extractLsb' 0 4 = 6#4 ∧ c.extractLsb' 4 2 ≠ 3#2 ∧ c.extractLsb' 6 2 = 0#2))) ∧
  (∀ c : Word, legal c = true ↔ c ∈ ([0x00000000#32, 0x00000001#32, 0x00000002#32, 0x00000003#32, 0x00000004#32, 0x00000005#32, 0x00000085#32, 0x00000045#32, 0x000000C5#32, 0x00000015#32, 0x00000095#32, 0x00000055#32, 0x000000D5#32, 0x00000025#32, 0x000000A5#32, 0x00000065#32, 0x000000E5#32, 0x00000006#32, 0x00000016#32, 0x00000026#32] : List Word)) ∧
  (∀ (c : Word) (s : State) (rest : List HostAccess), legal c = false → s.host = cmdWrite c :: rest →
    ∃ t, step s = .next t ∧ t.status = 0x00000011#32 ∧ t.mem = s.mem)

/-- Every well-formed command's word decodes to it, and every word that decodes to a command is that command's word:
no second word, with any bit different, names the same command. Rules R57, R64, R65 (derived). -/
def Obligations.DecodeAndEncodeAreInverse : Prop :=
  (∀ i : Instr, i.wellFormed = true → decode (encode i) = .ok i) ∧
  (∀ (c : Word) (i : Instr), decode c = .ok i → c = encode i)

/-- In every state whose next host access writes an illegal word c to CMD, the step answers the state with CMD = c,
STATUS = 0x00000011 and that access done; nothing else changes. Rules R119 (stated). -/
def Obligations.IllegalCommandChangesCmdAndStatusOnly : Prop :=
  ∀ (s : State) (c : Word) (rest : List HostAccess), legal c = false → s.host = cmdWrite c :: rest →
    step s = .next { s with cmd := c, status := 0x00000011#32, host := rest }

/-- In every state whose next host access writes a word c to CMD that decodes to a (well-formed) command i, the step
is exec of i on the state with CMD = c and that access done. Rules R69, R70 (derived). -/
def Obligations.StepRunsTheIssuedCommand : Prop :=
  ∀ (s : State) (c : Word) (i : Instr) (rest : List HostAccess), decode c = .ok i → i.wellFormed = true →
    s.host = cmdWrite c :: rest → step s = exec i { s with cmd := c, host := rest }

/-- In every state with no pending host access, a step answers the same state. (R132: between commands the block
keeps its registers and makes no memory access. That this is a step which changes nothing is the model's
reading: notes/assumptions/16.md.) Rules R132 (derived). -/
def Obligations.IdleStepKeepsEverything : Prop :=
  ∀ s : State, s.host = [] → step s = .next s

/-- For every state and each of the eight offsets, a 32-bit host read at the offset records the register's value
(GEOM 0x01900280, offset 0x1C 0) and changes nothing else. Rules R21, R22 (derived). -/
def Obligations.HostReadsGiveTheRegisters : Prop :=
  ∀ (s : State) (rest : List HostAccess) (off : BitVec 5) (v : Word),
    (off, v) ∈ [(0x00#5, s.fbBase), (0x04#5, s.bmBase), (0x08#5, s.arg0), (0x0C#5, s.arg1), (0x10#5, s.cmd),
      (0x14#5, s.status), (0x18#5, 0x01900280#32), (0x1C#5, 0x00000000#32)] →
    s.host = .regRead off .word :: rest →
    step s = .next { s with host := rest, recorded := v :: s.recorded }

/-- For every state and every value, a 32-bit host write stores all 32 bits in FB_BASE, BM_BASE, ARG0 or ARG1 and
changes nothing else; one at STATUS, GEOM or offset 0x1C changes nothing. Rules R22 (derived). -/
def Obligations.HostWritesStoreTheOperandRegisters : Prop :=
  ∀ (s : State) (rest : List HostAccess) (v : Word),
    (s.host = .regWrite 0x00#5 .word v :: rest → step s = .next { s with fbBase := v, host := rest }) ∧
    (s.host = .regWrite 0x04#5 .word v :: rest → step s = .next { s with bmBase := v, host := rest }) ∧
    (s.host = .regWrite 0x08#5 .word v :: rest → step s = .next { s with arg0 := v, host := rest }) ∧
    (s.host = .regWrite 0x0C#5 .word v :: rest → step s = .next { s with arg1 := v, host := rest }) ∧
    (∀ off ∈ [0x14#5, 0x18#5, 0x1C#5], s.host = .regWrite off .word v :: rest →
      step s = .next { s with host := rest })

/-- In every state, reset included, GEOM reads 0x01900280 with SCREEN_W = 640 in [15:0] and SCREEN_H = 400 in
[31:16], offset 0x1C reads 0x00000000, and a 32-bit host write to either changes nothing. Rules R29, R30
(stated). -/
def Obligations.GeomAndReservedOffsetAreHardWired : Prop :=
  (∀ s : State, (s.readReg .geom = 0x01900280#32 ∧ (s.readReg .geom).extractLsb' 0 16 = 640#16 ∧
      (s.readReg .geom).extractLsb' 16 16 = 400#16) ∧ s.readReg .reserved = 0x00000000#32) ∧
  windowReg 0x18#5 = some .geom ∧ windowReg 0x1C#5 = some .reserved ∧
  (∀ (s : State) (v : Word) (rest : List HostAccess) (off : BitVec 5), off ∈ [0x18#5, 0x1C#5] →
    (s.host = .regWrite off .word v :: rest → step s = .next { s with host := rest }) ∧
    (s.host = .regRead off .word :: rest →
      step s = .next { s with host := rest,
                              recorded := (if off = 0x18#5 then 0x01900280#32 else 0x00000000#32) :: s.recorded }))

/-- For every state, offset, width and data: when the width is not 32 bits or the offset is no multiple of 4, the
step that reads or writes the window there is refused as not an aligned 32-bit access. So is the step that reads
or writes one byte of memory at an address of the window, and the step of a CMD write, cut by a reset or not,
among whose foreign byte writes one is at an address of the window. (That these byte accesses count as accesses
to the window is the model's reading: notes/assumptions/5.md.) Rules R22, 93_implementation_defined.md U6
(derived). -/
def Obligations.NarrowOrMisalignedHostAccessIsRefused : Prop :=
  (∀ (s : State) (off : BitVec 5) (width : AccessWidth) (v : Word) (rest : List HostAccess),
    (width ≠ .word ∨ off.toNat % 4 ≠ 0) →
    (s.host = .regRead off width :: rest → step s = .refused .hostAccessNotAligned32) ∧
    (s.host = .regWrite off width v :: rest → step s = .refused .hostAccessNotAligned32)) ∧
  (∀ (s : State) (a : Addr) (v : Byte) (rest : List HostAccess), s.platform.inWindow a = true →
    (s.host = .memRead a :: rest → step s = .refused .hostAccessNotAligned32) ∧
    (s.host = .memWrite a v :: rest → step s = .refused .hostAccessNotAligned32)) ∧
  (∀ (s : State) (c : Word) (others : List (Addr × Byte)) (rest : List HostAccess),
    (∃ o ∈ others, s.platform.inWindow o.1 = true) →
    (s.host = .contendedCmd c others :: rest → step s = .refused .hostAccessNotAligned32) ∧
    (s.host = .resetDuringCmd c others :: rest → step s = .refused .hostAccessNotAligned32))

/-- In State.reset and after a reset step from any state, FB_BASE, BM_BASE, ARG0, ARG1, CMD and STATUS are
0x00000000 and GEOM is 0x01900280. Rules R36 (stated). -/
def Obligations.ResetLeavesTheResetValues : Prop :=
  (∀ r ∈ [WindowReg.fbBase, .bmBase, .arg0, .arg1, .cmd, .status], State.reset.readReg r = 0x00000000#32) ∧
  State.reset.readReg .geom = 0x01900280#32 ∧
  (∀ (s : State) (rest : List HostAccess), s.host = .reset :: rest →
    ∃ t, step s = .next t ∧
      (∀ r ∈ [WindowReg.fbBase, .bmBase, .arg0, .arg1, .cmd, .status], t.readReg r = 0x00000000#32) ∧
      t.readReg .geom = 0x01900280#32)

/-- In every state, a reset step sets FB_BASE, BM_BASE, ARG0, ARG1, CMD and STATUS to 0 and leaves memory (R134)
and, by the model's choice (notes/assumptions/17.md), the platform, the host's later accesses, the recorded
values and the count of draws as they are. Rules R133, R134 (derived). -/
def Obligations.ResetTouchesNothingElse : Prop :=
  ∀ (s : State) (rest : List HostAccess), s.host = .reset :: rest →
    step s = .next { s with fbBase := 0#32, bmBase := 0#32, arg0 := 0#32, arg1 := 0#32, cmd := 0#32, status := 0#32,
                            host := rest }

/-- In every state whose next host access is a CMD write of a legal word cut by a reset, where no access of the
command falls in its own window, the step answers a state whose memory is the old one with the first n of the
command's accesses performed, for some n (possibly inside a word), and whose registers are at their reset
values. (That a performed write to a device changes no memory is the model's choice: notes/assumptions/8.md.)
Rules R133, R135, 93_implementation_defined.md U5 (derived). -/
def Obligations.ResetDuringCommandLeavesAPrefix : Prop :=
  ∀ (s : State) (c : Word) (i : Instr) (rest : List HostAccess), decode c = .ok i →
    s.host = .resetDuringCmd c [] :: rest →
    (∀ a ∈ (program i s.operands).addresses, s.platform.inWindow a = false) →
    ∃ t n, step s = .next t ∧
      t.mem = s.mem.replay s.platform (((program i s.operands).run s.platform s.drawnBus).performed.take n) ∧
      (∀ r ∈ [WindowReg.fbBase, .bmBase, .arg0, .arg1, .cmd, .status], t.readReg r = 0x00000000#32) ∧
      t.readReg .geom = 0x01900280#32

/-- In every state with plain memory whose next host access is a CMD write of a legal word while other agents write
bytes, where neither the command's accesses nor the foreign writes fall in the window: the step answers a state
that differs in memory, CMD, STATUS (0 or BUS_ERROR) and the model's draws only, and every byte the command does
not access holds what the foreign writes, in their order, leave there, whatever the interleaving. (That an
interleaving of byte accesses is the whole race is the model's reading: notes/assumptions/7.md.) Rules R52,
93_implementation_defined.md U3 (derived). -/
def Obligations.ContendedCommandSparesOtherBytes : Prop :=
  ∀ (s : State) (c : Word) (i : Instr) (others : List (Addr × Byte)) (rest : List HostAccess), decode c = .ok i →
    s.platform.device = [] → s.host = .contendedCmd c others :: rest →
    (∀ a ∈ (program i s.operands).addresses, s.platform.inWindow a = false) →
    (∀ o ∈ others, s.platform.inWindow o.1 = false) →
    ∃ t, step s = .next t ∧
      t = { s with mem := t.mem, cmd := c, status := t.status, host := rest, draws := t.draws } ∧
      (t.status = 0x00000000#32 ∨ t.status = 0x00000021#32) ∧
      ∀ a, a ∉ (program i s.operands).addresses →
        t.mem.read a = (others.foldl (fun m o => m.write o.1 o.2) s.mem).read a

/-- For every state and every address that is no device and not in the window: a host write of a byte leaves exactly
that byte written, and a host read records the byte that stands there and changes nothing else. (That such an
access is one byte, that its value is recorded and that MemOK does not bind it are the model's choices:
notes/assumptions/12.md.) Rules R51, R144 (derived). -/
def Obligations.HostMemoryAccessesAreSeen : Prop :=
  ∀ (s : State) (a : Addr) (v : Byte) (rest : List HostAccess), s.platform.inWindow a = false →
    s.platform.isDevice a = false →
    (s.host = .memWrite a v :: rest → step s = .next { s with mem := s.mem.write a v, host := rest }) ∧
    (s.host = .memRead a :: rest →
      step s = .next { s with host := rest, recorded := (s.mem.read a).setWidth 32 :: s.recorded })

/-- The word 0x00000000 decodes to NOP, NOP has no memory access, and in every state exec of NOP answers the state
with STATUS = 0x00000000 and nothing else changed. Rules R72 (stated). -/
def Obligations.NopOnlyClearsStatus : Prop :=
  decode 0x00000000#32 = .ok .nop ∧
  ∀ s : State, (program .nop s.operands).addresses = [] ∧ exec .nop s = .next { s with status := 0x00000000#32 }

/-- In every state, with x and y the signed low halves of ARG0 and ARG1: off screen PLOT changes STATUS to 0 only;
on screen, at the address FB_BASE + y * BPL + x div 8, it ORs the bit 0x80 >> (x mod 8) into the byte where the
byte is plain memory, and sets STATUS to 0x00000021 with memory unchanged where MemOK is false there (outside
the window). Nothing else changes. The word 0x00000001 decodes to PLOT. Rules R77 (stated). -/
def Obligations.PlotOrsOnePixel : Prop :=
  decode 0x00000001#32 = .ok .plot ∧
  ∀ s : State,
    let x := lowHalf s.arg0
    let y := lowHalf s.arg1
    let a := fbByteAddr s.fbBase y.toNat (x.toNat / 8)
    ((x < 0 ∨ x ≥ 640 ∨ y < 0 ∨ y ≥ 400) → exec .plot s = .next { s with status := 0x00000000#32 }) ∧
    ((0 ≤ x ∧ x < 640 ∧ 0 ≤ y ∧ y < 400) →
      a = s.fbBase + BitVec.ofInt 32 (y * 80 + x / 8) ∧
      (s.platform.ordinary a = true →
        exec .plot s = .next { s with mem := s.mem.write a (s.mem.read a ||| (0x80#8 >>> (x % 8).toNat)),
                                      status := 0x00000000#32 }) ∧
      (s.platform.inWindow a = false → s.platform.memOK a = false →
        exec .plot s = .next { s with status := 0x00000021#32 }))

/-- For PLOT, HLINE, FILLRECT (ink 1) and CLEARRECT (ink 0), in every state where every access of the command falls
on plain memory outside the window: exec answers a next state that differs in memory and STATUS (= 0) only, in
which every screen pixel of the command's footprint is ink, every other screen pixel is as before, and every
byte outside the framebuffer is as before. A no-op is the case of an empty footprint. Rules R76, R77, R78, R79,
R80, R84 (derived). -/
def Obligations.SpanCommandsDrawTheirFootprint : Prop :=
  ∀ (s : State) (i : Instr) (ink : Bool),
    (i, ink) ∈ [(Instr.plot, true), (.hline, true), (.fillrect, true), (.clearrect, false)] → s.allows i →
    ∃ t, exec i s = .next t ∧ t = { s with mem := t.mem, status := 0x00000000#32 } ∧
      (∀ X : Nat, X < 640 → ∀ r : Nat, r < 400 → t.mem.pixel s.fbBase X r =
        if footprint i s.operands X r then ink else s.mem.pixel s.fbBase X r) ∧
      ∀ a, ¬ inFramebuffer s.fbBase a → t.mem.read a = s.mem.read a

/-- For every state, exchanging the halves of ARG0 leaves the run of HLINE (memory, list of accesses with their
values, and how it ends) the same; so its next state is the same but for ARG0. Rules R82 (stated). -/
def Obligations.HlineIsSymmetricInItsEndpoints : Prop :=
  ∀ s : State,
    let swapped : Word := s.arg0.extractLsb' 0 16 ++ s.arg0.extractLsb' 16 16
    let s' := { s with arg0 := swapped }
    (program .hline s'.operands).run s'.platform s'.bus = (program .hline s.operands).run s.platform s.bus ∧
    ∀ t, exec .hline s = .next t → exec .hline s' = .next { t with arg0 := swapped }

/-- In every state: FILLRECT and CLEARRECT with a negative or off-screen origin, or a length or height below 1, and
HLINE on a row off screen or with both endpoints off the same side, make no access and change STATUS to 0 only.
Rules R71, R76, R78 (derived). -/
def Obligations.RectanglesAndLinesOffScreenAreNoOps : Prop :=
  ∀ s : State,
    let x := lowHalf s.arg0
    let x2 := highHalf s.arg0
    let y := lowHalf s.arg1
    let h := highHalf s.arg1
    ((x < 0 ∨ x ≥ 640 ∨ y < 0 ∨ y ≥ 400 ∨ x2 < 1 ∨ h < 1) → ∀ i ∈ [Instr.fillrect, .clearrect],
      (program i s.operands).addresses = [] ∧ exec i s = .next { s with status := 0x00000000#32 }) ∧
    ((y < 0 ∨ y ≥ 400 ∨ (x < 0 ∧ x2 < 0) ∨ (x ≥ 640 ∧ x2 ≥ 640)) →
      (program .hline s.operands).addresses = [] ∧ exec .hline s = .next { s with status := 0x00000000#32 })

/-- In every state where the accesses of FILLRECT fall on plain memory: FILLRECT then CLEARRECT with the same
operands leave every pixel of the clipped rectangle 0 and every other screen pixel as before, and restore the
rectangle's pattern iff it was all 0; CLEARRECT then FILLRECT leave every pixel of the rectangle 1. Rules R83
(stated). -/
def Obligations.FillThenClearAndClearThenFill : Prop :=
  ∀ s : State, s.allows .fillrect →
    (∃ t u, exec .fillrect s = .next t ∧ exec .clearrect t = .next u ∧
      (∀ X : Nat, X < 640 → ∀ r : Nat, r < 400 → u.mem.pixel s.fbBase X r =
        if footprint .fillrect s.operands X r then false else s.mem.pixel s.fbBase X r) ∧
      ((∀ X : Nat, X < 640 → ∀ r : Nat, r < 400 → footprint .fillrect s.operands X r = true →
          u.mem.pixel s.fbBase X r = s.mem.pixel s.fbBase X r) ↔
        ∀ X : Nat, X < 640 → ∀ r : Nat, r < 400 → footprint .fillrect s.operands X r = true → s.mem.pixel s.fbBase X r = false)) ∧
    (∃ t u, exec .clearrect s = .next t ∧ exec .fillrect t = .next u ∧
      ∀ X : Nat, X < 640 → ∀ r : Nat, r < 400 → footprint .fillrect s.operands X r = true → u.mem.pixel s.fbBase X r = true)

/-- For PLOT, HLINE, FILLRECT and CLEARRECT, in every state where the command's accesses fall on plain memory,
running the command again on the state it left changes no byte of memory. Rules R84 (derived). -/
def Obligations.SpanCommandsAreIdempotent : Prop :=
  ∀ (s : State) (i : Instr), i ∈ [Instr.plot, .hline, .fillrect, .clearrect] → s.allows i →
    ∃ t u, exec i s = .next t ∧ exec i t = .next u ∧ ∀ a, u.mem.read a = t.mem.read a

/-- For lo <= hi < 640 and a byte j of the span, bit colbit_8(k) of the span mask is 1 iff column 8 j + k lies in
lo..hi; with a = max(lo, 8 j) - 8 j and b = min(hi, 8 j + 7) - 8 j it is (0xFF >> a) & (0xFF << (7 - b)) with a
<= b <= 7, the first byte of several has b = 7, the last has a = 0, and a byte strictly between the first and
the last has mask 0xFF. Rules R74 (stated). -/
def Obligations.SpanMaskCoversTheSpan : Prop :=
  ∀ lo hi j : Nat, lo ≤ hi → hi < 640 → lo / 8 ≤ j → j ≤ hi / 8 →
    let a := max lo (8 * j) - 8 * j
    let b := min hi (8 * j + 7) - 8 * j
    (a ≤ b ∧ b ≤ 7) ∧ spanMask lo hi j = (0xFF#8 >>> a) &&& (0xFF#8 <<< (7 - b)) ∧
    (∀ k < 8, (spanMask lo hi j).getLsbD (7 - k) = decide (lo ≤ 8 * j + k ∧ 8 * j + k ≤ hi)) ∧
    (j < hi / 8 → b = 7) ∧ (lo / 8 < j → a = 0) ∧
    (lo / 8 < j → j < hi / 8 → spanMask lo hi j = 0xFF#8)

/-- For each of the fifteen sprite commands, in every state with h <= 0, y >= 400, y + h - 1 < 0, x <= -W or x >=
640: the command makes no access and exec changes STATUS to 0 only. Rules R71, R86, R88 (derived). -/
def Obligations.SpritesOffScreenAreNoOps : Prop :=
  ∀ (s : State) (i : Instr) (w : WordWidth) (mode : Mode), spriteKind i = some (w, mode) →
    (highHalf s.arg1 ≤ 0 ∨ lowHalf s.arg1 ≥ 400 ∨ lowHalf s.arg1 + highHalf s.arg1 - 1 < 0 ∨
      lowHalf s.arg0 ≤ -(wordBits w : Int) ∨ lowHalf s.arg0 ≥ 640) →
    (program i s.operands).addresses = [] ∧ exec i s = .next { s with status := 0x00000000#32 }

/-- For each of the fifteen sprite commands (BLIT8, BLIT16, BLIT32 with OR, XOR, REP, REPINV; ALPHA8, ALPHA16,
ALPHA32), in every state where the command's accesses fall on plain memory outside the window and the bitmap
rows it reads do not overlap the framebuffer: exec answers a next state that differs in memory and STATUS (= 0)
only; every screen pixel the sprite covers gets p OR b, p XOR b, b, NOT b or p AND NOT b by the mode, with b the
sprite's bit for that pixel; every other screen pixel and every byte outside the framebuffer is as before. Rules
R85, R92, R93, R94, R110 (derived). -/
def Obligations.SpriteCommandsDrawTheirPixels : Prop :=
  ∀ (s : State) (i : Instr) (w : WordWidth) (mode : Mode), spriteKind i = some (w, mode) → s.allows i →
    bitmapApart w s.operands →
    ∃ t, exec i s = .next t ∧ t = { s with mem := t.mem, status := 0x00000000#32 } ∧
      (∀ X : Nat, X < 640 → ∀ r : Nat, r < 400 → t.mem.pixel s.fbBase X r =
        if footprint i s.operands X r then
          mergePixel mode (s.mem.pixel s.fbBase X r)
            (s.mem.spriteBit s.bmBase w ((X : Int) - lowHalf s.arg0).toNat ((r : Int) - lowHalf s.arg1).toNat)
        else s.mem.pixel s.fbBase X r) ∧
      ∀ a, ¬ inFramebuffer s.fbBase a → t.mem.read a = s.mem.read a

/-- For each of the fifteen sprite commands, in every state where its accesses fall on plain memory outside the
window, with no condition on where the bitmap lies: exec answers a next state with memory and STATUS (= 0)
changed only; pixels outside the footprint and bytes outside the framebuffer are as before; and for every screen
row r drawn, each footprint pixel (X, r) is the mode's function of its value before the command and of bit
colbit_W(X - x) of bitmap row r - y, taken from the memory in which the command read that row: what the same
command with only the rows above r leaves. Rules R110 (stated). -/
def Obligations.SpritePixelsFromRowsAsRead : Prop :=
  ∀ (s : State) (i : Instr) (w : WordWidth) (mode : Mode), spriteKind i = some (w, mode) → s.allows i →
    ∃ t, exec i s = .next t ∧ t = { s with mem := t.mem, status := 0x00000000#32 } ∧
      (∀ a, ¬ inFramebuffer s.fbBase a → t.mem.read a = s.mem.read a) ∧
      (∀ X : Nat, X < 640 → ∀ r : Nat, r < 400 → footprint i s.operands X r = false →
        t.mem.pixel s.fbBase X r = s.mem.pixel s.fbBase X r) ∧
      (∀ r : Nat, r < 400 → lowHalf s.arg1 ≤ (r : Int) → (r : Int) < lowHalf s.arg1 + highHalf s.arg1 →
        ∃ u, exec i { s with arg1 := pack (lowHalf s.arg1) ((r : Int) - lowHalf s.arg1) } = .next u ∧
          ∀ X : Nat, X < 640 → footprint i s.operands X r = true → t.mem.pixel s.fbBase X r =
            mergePixel mode (s.mem.pixel s.fbBase X r)
              (u.mem.spriteBit s.bmBase w ((X : Int) - lowHalf s.arg0).toNat ((r : Int) - lowHalf s.arg1).toNat))

/-- For every sprite command, state and n >= 0 with n < 32767 and y + n <= 32767: if the command with height n ends
OK in u, and then the command of height 1 at y + n with the bitmap address moved on by n rows gives v, the
command with height n + 1 gives v's memory, STATUS and draws. So a bitmap row that lies in the framebuffer is
read as the earlier rows left it. Rules R50, R87, R94, R141 (derived). -/
def Obligations.SpriteRowsComposeOneByOne : Prop :=
  ∀ (s u v : State) (i : Instr) (w : WordWidth) (mode : Mode) (n : Nat), spriteKind i = some (w, mode) →
    n < 32767 → lowHalf s.arg1 + n ≤ 32767 →
    exec i { s with arg1 := pack (lowHalf s.arg1) n } = .next u → u.status = 0x00000000#32 →
    exec i { u with arg1 := pack (lowHalf s.arg1 + n) 1, bmBase := s.bmBase + BitVec.ofNat 32 (n * wordBytes w) } =
      .next v →
    exec i { s with arg1 := pack (lowHalf s.arg1) (n + 1) } =
      .next { s with arg1 := pack (lowHalf s.arg1) (n + 1), mem := v.mem, status := v.status, draws := v.draws }

/-- For every width, x and clip regime of x: each target word lies in the row, S & ~F = 0, bit colbit_W(c) of F is 1
iff screen column widx * W + c lies in x .. x + W - 1, and there S has bit colbit_W(X - x) of the bitmap row;
every on-screen column of the sprite has exactly one target word, and REPINV XORs the sprite with F. Rules R92
(stated). -/
def Obligations.TargetMasksCoverTheFootprint : Prop :=
  ∀ (w : WordWidth) (x : Int) (g : Regime), hclip x w = some g →
    (∀ t ∈ targets w g, t.widx < 640 / wordBits w ∧
      (∀ sprite : SpriteWord w, t.positioned sprite &&& ~~~ t.mask w = 0) ∧
      ∀ c < wordBits w,
        (t.mask w).getLsbD (wordBits w - 1 - c) =
          decide (x ≤ (t.widx * wordBits w + c : Nat) ∧ ((t.widx * wordBits w + c : Nat) : Int) ≤ x + wordBits w - 1) ∧
        ((t.mask w).getLsbD (wordBits w - 1 - c) = true → ∀ sprite : SpriteWord w,
          (t.positioned sprite).getLsbD (wordBits w - 1 - c) =
            sprite.getLsbD (wordBits w - 1 - (((t.widx * wordBits w + c : Nat) : Int) - x).toNat))) ∧
    (∀ X : Nat, X < 640 → x ≤ (X : Nat) → (X : Int) ≤ x + wordBits w - 1 →
      ∃ t ∈ targets w g, t.widx = X / wordBits w ∧ ∀ t' ∈ targets w g, t'.widx = X / wordBits w → t' = t) ∧
    ∀ fb sprite f : SpriteWord w, merge .repinv fb sprite f = (fb &&& ~~~f) ||| (sprite ^^^ f)

/-- For every width and 0 < k < W: at x = -k the target words cover exactly columns 0 .. W - k - 1 and put sprite
column X + k at column X; at x = 640 - (W - k) they cover exactly columns 640 - W + k .. 639 and put sprite
columns 0 .. W - k - 1 there; both cover W - k columns of a row. Rules R112 (stated). -/
def Obligations.ClipSymmetryAtBothEdges : Prop :=
  ∀ (w : WordWidth) (k : Nat), 0 < k → k < wordBits w →
    ∃ g g', hclip (-(k : Int)) w = some g ∧ hclip (640 - ((wordBits w : Int) - k)) w = some g' ∧
      rowColumns w g = List.range (wordBits w - k) ∧
      rowColumns w g' = List.range' (640 - wordBits w + k) (wordBits w - k) ∧
      (rowColumns w g).length = wordBits w - k ∧ (rowColumns w g').length = wordBits w - k ∧
      (∀ (sprite : SpriteWord w), ∀ X ∈ rowColumns w g,
        rowBit w g sprite X = sprite.getLsbD (wordBits w - 1 - (X + k))) ∧
      (∀ (sprite : SpriteWord w), ∀ X ∈ rowColumns w g',
        rowBit w g' sprite X = sprite.getLsbD (wordBits w - 1 - (X - (640 - wordBits w + k))))

/-- For every width, in every state where the command's accesses fall on plain memory and every footprint pixel is
0: REP and OR leave the same bytes everywhere; and where the bitmap does not overlap the framebuffer, REPINV
leaves NOT b and XOR leaves b at each footprint pixel. Rules R113 (stated). -/
def Obligations.ReplaceEqualsOverlayOnBlankFootprint : Prop :=
  ∀ (s : State) (w : WordWidth) (iRep iOr iInv iXor : Instr),
    spriteKind iRep = some (w, .rep) → spriteKind iOr = some (w, .or) →
    spriteKind iInv = some (w, .repinv) → spriteKind iXor = some (w, .xor) → s.allows iRep →
    (∀ X : Nat, X < 640 → ∀ r : Nat, r < 400 → footprint iRep s.operands X r = true → s.mem.pixel s.fbBase X r = false) →
    (∃ t u, exec iRep s = .next t ∧ exec iOr s = .next u ∧ ∀ a, t.mem.read a = u.mem.read a) ∧
    (bitmapApart w s.operands → ∃ t u, exec iInv s = .next t ∧ exec iXor s = .next u ∧
      ∀ X : Nat, X < 640 → ∀ r : Nat, r < 400 → footprint iRep s.operands X r = true →
        let b := s.mem.spriteBit s.bmBase w ((X : Int) - lowHalf s.arg0).toNat ((r : Int) - lowHalf s.arg1).toNat
        t.mem.pixel s.fbBase X r = !b ∧ u.mem.pixel s.fbBase X r = b)

/-- For every sprite command and 0 <= x <= 640 - W with m = x mod W not 0, where the accesses at x and at x - m fall
on plain memory and the bitmap is apart from the framebuffer: for each footprint pixel (X, r) at x - m, (X + m,
r) is a footprint pixel at x, and the two commands leave the same value at (X, r) and (X + m, r), wherever the
two pixels were equal before or the mode is REP or REPINV. Rules R114 (stated). -/
def Obligations.SplitWordsMoveThePixelsRight : Prop :=
  ∀ (s : State) (i : Instr) (w : WordWidth) (mode : Mode), spriteKind i = some (w, mode) →
    0 ≤ lowHalf s.arg0 → lowHalf s.arg0 ≤ 640 - (wordBits w : Int) → lowHalf s.arg0 % (wordBits w : Int) ≠ 0 →
    let m := (lowHalf s.arg0 % (wordBits w : Int)).toNat
    let s0 := { s with arg0 := pack (lowHalf s.arg0 - m) (highHalf s.arg0) }
    s.allows i → s0.allows i → bitmapApart w s.operands →
    ∃ t u, exec i s = .next t ∧ exec i s0 = .next u ∧
      ∀ X : Nat, X < 640 → ∀ r : Nat, r < 400 → footprint i s0.operands X r = true →
        footprint i s.operands (X + m) r = true ∧
        ((mode = .rep ∨ mode = .repinv ∨ s.mem.pixel s.fbBase (X + m) r = s.mem.pixel s.fbBase X r) →
          t.mem.pixel s.fbBase (X + m) r = u.mem.pixel s.fbBase X r)

/-- For every sprite command, in every state where its accesses fall on plain memory and the bitmap is apart from
the framebuffer: running it again on the state it left changes no byte of memory for OR, REP, REPINV and ALPHA,
and restores every byte to its value before the first run for XOR. Rules R115 (stated). -/
def Obligations.RepeatedSpriteCommands : Prop :=
  ∀ (s : State) (i : Instr) (w : WordWidth) (mode : Mode), spriteKind i = some (w, mode) → s.allows i →
    bitmapApart w s.operands →
    ∃ t u, exec i s = .next t ∧ exec i t = .next u ∧
      (mode ≠ .xor → ∀ a, u.mem.read a = t.mem.read a) ∧ (mode = .xor → ∀ a, u.mem.read a = s.mem.read a)

/-- For every width, in every state where the accesses of ALPHAw with bitmap M and of BLITw.OR with bitmap Q fall on
plain memory and both bitmaps are apart from the framebuffer: ALPHAw, then BM_BASE = Q, then BLITw.OR leave each
footprint pixel at (p AND NOT m) OR q and every other screen pixel as before; if q is 1 only where m is 1,
pixels with m = 1 end equal to q and the others keep p. Rules R116 (stated). -/
def Obligations.MaskThenOverlay : Prop :=
  ∀ (s : State) (w : WordWidth) (iAlpha iOr : Instr) (q : Addr),
    spriteKind iAlpha = some (w, .alpha) → spriteKind iOr = some (w, .or) → s.allows iAlpha →
    ({ s with bmBase := q } : State).allows iOr → bitmapApart w s.operands →
    bitmapApart w { s.operands with bm := q } →
    ∃ t u, exec iAlpha s = .next t ∧ exec iOr { t with bmBase := q } = .next u ∧
      let bit (bm : Addr) (X r : Nat) :=
        s.mem.spriteBit bm w ((X : Int) - lowHalf s.arg0).toNat ((r : Int) - lowHalf s.arg1).toNat
      (∀ X : Nat, X < 640 → ∀ r : Nat, r < 400 → u.mem.pixel s.fbBase X r =
        if footprint iAlpha s.operands X r then
          (s.mem.pixel s.fbBase X r && !bit s.bmBase X r) || bit q X r
        else s.mem.pixel s.fbBase X r) ∧
      ((∀ X : Nat, X < 640 → ∀ r : Nat, r < 400 → footprint iAlpha s.operands X r = true → bit q X r = true →
          bit s.bmBase X r = true) →
        ∀ X : Nat, X < 640 → ∀ r : Nat, r < 400 → footprint iAlpha s.operands X r = true →
          u.mem.pixel s.fbBase X r = if bit s.bmBase X r then bit q X r else s.mem.pixel s.fbBase X r)

/-- For every width, framebuffer address, row and word index of the screen, where the word's bytes are plain memory:
ReadBE gives a word whose bit colbit_W(c) is screen pixel (j W + c, row); WriteBE of v leaves pixel (j W + c,
row) at bit colbit_W(c) of v and every byte that is not one of the word's as it was. Rules R16, R18, R41, R42,
R44 (derived). -/
def Obligations.WordViewNamesTheSamePixels : Prop :=
  ∀ (p : Platform) (b : Bus) (fb : Addr) (w : WordWidth) (row j : Nat), row < 400 → j < 640 / wordBits w →
    (∀ n < wordBytes w, p.ordinary (fbWordAddr w fb row j + BitVec.ofNat 32 n) = true) →
    (∀ k : SpriteWord w → BusProg, ∃ v l,
      (BusProg.readBE (wordBits w) (fbWordAddr w fb row j) (wordBytes w) k).run p b =
        (k v).run p { b with log := l ++ b.log } ∧
      ∀ c < wordBits w, v.getLsbD (wordBits w - 1 - c) = b.mem.pixel fb (j * wordBits w + c) row) ∧
    (∀ v : SpriteWord w, ∃ m l,
      (BusProg.writeBE (wordBytes w) (fbWordAddr w fb row j) v).run p b =
        ⟨none, { b with mem := m, log := l ++ b.log }⟩ ∧
      (∀ c < wordBits w, m.pixel fb (j * wordBits w + c) row = v.getLsbD (wordBits w - 1 - c)) ∧
      ∀ a, (∀ n < wordBytes w, a ≠ fbWordAddr w fb row j + BitVec.ofNat 32 n) → m.read a = b.mem.read a)

/-- For every command, every state and every operand value, whether the command completes or ends with BUS_ERROR:
every byte outside the framebuffer and every screen pixel outside the clipped footprint is as before, and every
write access the command performs is to a byte j < 80 of a row r < 400 of the framebuffer that holds a pixel of
the footprint. Rules R81, R111 (stated). -/
def Obligations.NoCommandWritesOutsideItsFootprint : Prop :=
  ∀ (i : Instr) (s t : State), exec i s = .next t →
    (∀ a, ¬ inFramebuffer s.fbBase a → t.mem.read a = s.mem.read a) ∧
    (∀ X : Nat, X < 640 → ∀ r : Nat, r < 400 → footprint i s.operands X r = false →
      t.mem.pixel s.fbBase X r = s.mem.pixel s.fbBase X r) ∧
    (∀ a v, Access.write a v ∈ ((program i s.operands).run s.platform s.bus).performed →
      ∃ r < 400, ∃ j < 80, a = fbByteAddr s.fbBase r j ∧ ∃ X < 640, footprint i s.operands X r = true)

/-- For each of the twenty commands, in every state where MemOK holds at every address the command accesses and none
lies in its own window (devices and overlaps included): exec answers a next state with STATUS = 0 and every
register but STATUS as before, and the accesses performed are the command's list of addresses, in order,
whatever the memory holds. Rules R47, R50, R69, R71 (derived). -/
def Obligations.PermittedCommandCompletes : Prop :=
  ∀ (i : Instr) (s : State), (∀ a ∈ (program i s.operands).addresses, s.platform.check a = none) →
    ∃ t, exec i s = .next t ∧ t.status = 0x00000000#32 ∧ s.sameRegisters t ∧
      ((program i s.operands).run s.platform s.bus).performed.map Access.addr = (program i s.operands).addresses

/-- For every command and state, where a is the first address in the command's order that is not permitted and MemOK
is false there: exec answers a next state with STATUS = 0x00000021 and every other register as before, whose
memory is the old one with exactly the accesses before that one performed, those that the command would make on
a platform that refuses none. (That a performed write to a device changes no memory is the model's choice:
notes/assumptions/8.md. That it is BUS_ERROR and no refusal where a later address of the command, one of
`after`, lies in the block's own window is the model's choice too: notes/assumptions/5.md.) Rules R16, R120,
R122 (derived). -/
def Obligations.BusErrorStopsAtTheFirstRefusedAccess : Prop :=
  ∀ (i : Instr) (s : State) (before after : List Addr) (a : Addr),
    (program i s.operands).addresses = before ++ a :: after → (∀ x ∈ before, s.platform.check x = none) →
    s.platform.check a = some .refused →
    ∃ t, exec i s = .next t ∧ t.status = 0x00000021#32 ∧ s.sameRegisters t ∧
      t.mem = s.mem.replay s.platform
        (((program i s.operands).run { s.platform with refused := [] } s.bus).performed.take before.length)

/-- For PLOT and the fifteen sprite commands, in every state: where a is the first address in the command's order
that is not permitted and MemOK is false there, that access is a read (on a platform that refuses none, the
command reads a at that place of its sequence). PLOT has then performed no write, and the writes a sprite
command has performed are those of whole target words: the first few, or none, of the target words of the drawn
rows in the order of the row loop, each word's NB(W) bytes in increasing address order. (That the command runs
up to the refused access where a later address lies in the block's own window is the model's choice:
notes/assumptions/5.md.) Rules R77, R94, R120, 90_conflicts.md C9 (derived). -/
def Obligations.RefusedAccessOfAWordIsARead : Prop :=
  ∀ (i : Instr) (s : State) (before after : List Addr) (a : Addr), (i = .plot ∨ (spriteKind i).isSome = true) →
    (program i s.operands).addresses = before ++ a :: after → (∀ x ∈ before, s.platform.check x = none) →
    s.platform.check a = some .refused →
    let written := (((program i s.operands).run s.platform s.bus).performed.filter Access.isWrite).map Access.addr
    (∃ v, ((program i s.operands).run { s.platform with refused := [] } s.bus).performed[before.length]? =
      some (.read a v)) ∧
    (i = .plot → written = []) ∧
    (∀ (w : WordWidth) (mode : Mode), spriteKind i = some (w, mode) →
      ∃ (first last : Nat) (g : Regime) (words : List (Nat × Nat)),
        vclip (lowHalf s.arg1) (highHalf s.arg1) = some (first, last) ∧ hclip (lowHalf s.arg0) w = some g ∧
        words <+: ((List.range' first (last + 1 - first)).flatMap fun r => (targets w g).map fun t => (r, t.widx)) ∧
        (∀ q ∈ words, q.1 < 400 ∧ q.2 < 640 / wordBits w) ∧
        written = words.flatMap fun q =>
          (List.range (wordBytes w)).map fun n => fbWordAddr w s.fbBase q.1 q.2 + BitVec.ofNat 32 n)

/-- For every command and every state on whose platform MemOK is true at every address: if exec answers a next
state, its STATUS is 0x00000000. Rules R11, R120 (derived). -/
def Obligations.ReferencePlatformMeetsNoBusError : Prop :=
  ∀ (i : Instr) (s t : State), (∀ a, s.platform.memOK a = true) → exec i s = .next t → t.status = 0x00000000#32

/-- For every command and state, where a is the first address in the command's order that is not permitted and it
lies in the register window: exec is the refusal that names a. (That the refusal is taken when the access is met
is the model's choice: notes/assumptions/5.md.) Rules R22, 93_implementation_defined.md U7 (derived). -/
def Obligations.OwnWindowAccessIsRefused : Prop :=
  ∀ (i : Instr) (s : State) (before after : List Addr) (a : Addr),
    (program i s.operands).addresses = before ++ a :: after → (∀ x ∈ before, s.platform.check x = none) →
    s.platform.inWindow a = true → exec i s = .refused (.blockAccessToOwnWindow a)

/-- For each sprite command and all operands that draw something: the addresses accessed are, for each row from
max(0, y) to min(y + h - 1, 399) in increasing order, the bytes of bitmap row r - y, then for each target word
(the first, the last, x div W, or x div W and the next, by x) its bytes for the read and its bytes for the
write, each word's bytes in increasing address order modulo 2^32. Rules R50, R87, R89, R90, R91, R94 (derived). -/
def Obligations.SpriteAccessOrder : Prop :=
  ∀ (o : Operands) (i : Instr) (w : WordWidth) (mode : Mode), spriteKind i = some (w, mode) →
    0 < o.h → o.y < 400 → 0 < o.y + o.h → -(wordBits w : Int) < o.x → o.x < 640 →
    let first := max 0 o.y
    let last := min (o.y + o.h - 1) 399
    let bytes (a : Addr) := (List.range (wordBytes w)).map fun n => a + BitVec.ofNat 32 n
    let words : List Nat :=
      if o.x < 0 then [0]
      else if o.x > 640 - (wordBits w : Int) then [640 / wordBits w - 1]
      else if o.x % (wordBits w : Int) = 0 then [(o.x / (wordBits w : Int)).toNat]
      else [(o.x / (wordBits w : Int)).toNat, (o.x / (wordBits w : Int)).toNat + 1]
    (program i o).addresses =
      (List.range' first.toNat (last - first + 1).toNat).flatMap fun (r : Nat) =>
        bytes (o.bm + BitVec.ofNat 32 (((r : Int) - o.y).toNat * wordBytes w)) ++
        words.flatMap fun j =>
          bytes (o.fb + BitVec.ofNat 32 (r * 80 + j * wordBytes w)) ++
          bytes (o.fb + BitVec.ofNat 32 (r * 80 + j * wordBytes w))

/-- For all operands: NOP makes 0 accesses; PLOT one read and one write on screen and none off; HLINE, FILLRECT and
CLEARRECT that draw make, per row, one write per byte of the clipped span and one read per boundary byte; a
sprite command that draws makes, per drawn row, NB(W) bitmap reads and, per target word (1 or 2), NB(W)
framebuffer reads and NB(W) writes. The list of addresses has as many entries as reads and writes together, and
where every access is permitted the run performs exactly so many reads and so many writes. Rules R146 (derived). -/
def Obligations.AccessCountsOfTheCommands : Prop :=
  ∀ (o : Operands) (s : State),
    let makes (i : Instr) (reads writes : Nat) : Prop :=
      (program i o).addresses.length = reads + writes ∧
      ((∀ a ∈ (program i o).addresses, s.platform.check a = none) →
        ((program i o).run s.platform s.bus).performed.countP Access.isRead = reads ∧
        ((program i o).run s.platform s.bus).performed.countP Access.isWrite = writes)
    makes .nop 0 0 ∧
    (if 0 ≤ o.x ∧ o.x < 640 ∧ 0 ≤ o.y ∧ o.y < 400 then makes .plot 1 1 else makes .plot 0 0) ∧
    ((0 ≤ o.y ∧ o.y < 400 ∧ 0 ≤ max o.x o.x2 ∧ min o.x o.x2 < 640) →
      let lo := (max (min o.x o.x2) 0).toNat
      let hi := (min (max o.x o.x2) 639).toNat
      makes .hline (boundaryBytes lo hi) (hi / 8 + 1 - lo / 8)) ∧
    (∀ i ∈ [Instr.fillrect, .clearrect],
      (0 ≤ o.x ∧ o.x < 640 ∧ 0 ≤ o.y ∧ o.y < 400 ∧ 1 ≤ o.x2 ∧ 1 ≤ o.h) →
      let lo := o.x.toNat
      let hi := (min (o.x + o.x2 - 1) 639).toNat
      let rows := (min o.h (400 - o.y)).toNat
      makes i (rows * boundaryBytes lo hi) (rows * (hi / 8 + 1 - lo / 8))) ∧
    (∀ (i : Instr) (w : WordWidth) (mode : Mode), spriteKind i = some (w, mode) →
      (0 < o.h ∧ o.y < 400 ∧ 0 < o.y + o.h ∧ -(wordBits w : Int) < o.x ∧ o.x < 640) →
      let rows := (min (o.y + o.h) 400 - max 0 o.y).toNat
      let words := if o.x < 0 ∨ o.x > 640 - (wordBits w : Int) ∨ o.x % (wordBits w : Int) = 0 then 1 else 2
      makes i (rows * (wordBytes w + wordBytes w * words)) (rows * (wordBytes w * words)))

/-- For every command and two states that agree on memory, the platform, the model's draws and the operand fields
that R37 says the command reads, and differ as they will elsewhere (unread fields, CMD, STATUS, what the host
does): the command gives the same memory and STATUS, or the same refusal, in both. Rules R37 (stated). -/
def Obligations.UnreadOperandsDoNotMatter : Prop :=
  ∀ (i : Instr) (s s' : State), sameReads i s s' → s.mem = s'.mem → s.platform = s'.platform →
    s.draws = s'.draws →
    (∀ t, exec i s = .next t →
      exec i s' = .next { s' with mem := t.mem, status := t.status, draws := t.draws }) ∧
    (∀ r, exec i s = .refused r → exec i s' = .refused r)

/-- In every step from a state with a pending host access that answers a next state: each of FB_BASE, BM_BASE, ARG0
and ARG1 keeps its value, or the access is a 32-bit write of the new value to it, or it is a reset and the value
is 0; CMD likewise, or the access is a contended write of the new value to CMD; the platform is unchanged and
exactly that access is consumed. (That no step changes the platform and that a step consumes one access are the
model's choices: notes/assumptions/2.md, 3.md and 4.md; that both hold of a reset too, which keeps the host's
later accesses, is 17.md.) Rules R22, R31, R32 (derived). -/
def Obligations.RegistersKeepTheirValues : Prop :=
  ∀ (s t : State) (a : HostAccess) (rest : List HostAccess), s.host = a :: rest → step s = .next t →
    let isReset : Prop := a = .reset ∨ ∃ c others, a = .resetDuringCmd c others
    (t.fbBase = s.fbBase ∨ a = .regWrite 0x00#5 .word t.fbBase ∨ (isReset ∧ t.fbBase = 0#32)) ∧
    (t.bmBase = s.bmBase ∨ a = .regWrite 0x04#5 .word t.bmBase ∨ (isReset ∧ t.bmBase = 0#32)) ∧
    (t.arg0 = s.arg0 ∨ a = .regWrite 0x08#5 .word t.arg0 ∨ (isReset ∧ t.arg0 = 0#32)) ∧
    (t.arg1 = s.arg1 ∨ a = .regWrite 0x0C#5 .word t.arg1 ∨ (isReset ∧ t.arg1 = 0#32)) ∧
    (t.cmd = s.cmd ∨ a = .regWrite 0x10#5 .word t.cmd ∨ (∃ others, a = .contendedCmd t.cmd others) ∨
      (isReset ∧ t.cmd = 0#32)) ∧
    t.platform = s.platform ∧ t.host = rest

/-- For every state that meets the invariant, if a step answers a next state, that state meets it: memory in
canonical form; STATUS 0x00000000, 0x00000011 or 0x00000021; STATUS = ILLEGAL_CMD exactly when the word in CMD
is illegal; STATUS = BUS_ERROR only when CMD is not NOP. (The canonical form of memory is the model's:
notes/assumptions/1.md.) Rules R27, R28, R69, R118, R119, R120 (derived). -/
def Obligations.StepKeepsTheInvariant : Prop :=
  ∀ s t : State, s.Inv → step s = .next t → t.Inv

/-- State.reset meets the invariant that every step keeps. Rules R36, R118 (derived). -/
def Obligations.ResetMeetsTheInvariant : Prop :=
  State.reset.Inv

/-- For all integers v and u: each half of a register written with pack keeps v mod 2^16 and is read as the two's
complement number of those bits, which is v itself iff v lies in [-32768, 32767]; a length of 65536 + 10 is read
as 10. Rules R145 (stated). -/
def Obligations.PackedOperandsAreReadModulo : Prop :=
  (∀ v u : Int, lowHalf (pack v u) = (v + 32768) % 65536 - 32768 ∧ highHalf (pack u v) = (v + 32768) % 65536 - 32768 ∧
    (lowHalf (pack v u) = v ↔ -32768 ≤ v ∧ v ≤ 32767) ∧ (highHalf (pack u v) = v ↔ -32768 ≤ v ∧ v ≤ 32767)) ∧
  highHalf (pack 0 (65536 + 10)) = 10

/-- For every state whose pending accesses begin with the expansion of PLOT, HLINE, FILLRECT, CLEARRECT or a sprite
pseudo-instruction (with or without a bitmap operand) whose coordinates, length and height are in the range the
assembler accepts (that the range binds length and height is the model's choice: notes/assumptions/19.md): the
steps before its CMD write leave the operands exactly as written (0 in the fields not named), memory unchanged,
and the CMD write of the command's word next. Rules R62, R66, R67 (derived). -/
def Obligations.PseudoInstructionsSetTheOperands : Prop :=
  ∀ (s : State) (rest : List HostAccess) (x x2 y h : Int), Stmt.coordinateOk x = true → Stmt.coordinateOk x2 = true →
    Stmt.coordinateOk y = true → Stmt.coordinateOk h = true →
    (∀ st i e f, (st, i, e, f) ∈ [(Stmt.plot x y, Instr.plot, 0, 0), (.hline x x2 y, .hline, x2, 0),
        (.fillrect x x2 y h, .fillrect, x2, h), (.clearrect x x2 y h, .clearrect, x2, h)] →
      s.host = expand st ++ rest →
      ∃ t, Host.Core.run Sys2Proof.core 2 s = .next t ∧ t.host = cmdWrite (encode i) :: rest ∧ t.mem = s.mem ∧
        t.operands = { fb := s.fbBase, bm := s.bmBase, x := x, x2 := e, y := y, h := f }) ∧
    (∀ i : Instr, i.isSprite = true → s.host = expand (.sprite i x y h none) ++ rest →
      ∃ t, Host.Core.run Sys2Proof.core 2 s = .next t ∧ t.host = cmdWrite (encode i) :: rest ∧ t.mem = s.mem ∧
        t.operands = { fb := s.fbBase, bm := s.bmBase, x := x, x2 := 0, y := y, h := h }) ∧
    (∀ (i : Instr) (bm : Word), i.isSprite = true → s.host = expand (.sprite i x y h (some bm)) ++ rest →
      ∃ t, Host.Core.run Sys2Proof.core 3 s = .next t ∧ t.host = cmdWrite (encode i) :: rest ∧ t.mem = s.mem ∧
        t.operands = { fb := s.fbBase, bm := bm, x := x, x2 := 0, y := y, h := h })

/-- For every 32-bit word: if it decodes to a command it prints as that command's mnemonic, and no two legal words
share one; if it is illegal it prints as `.word 0x` followed by 8 hexadecimal digits whose value is the word.
Rules R68 (stated). -/
def Obligations.DisassemblerNamesEveryWord : Prop :=
  (∀ (c : Word) (i : Instr), decode c = .ok i → disassemble c = mnemonic i) ∧
  (∀ (c : Word), legal c = false → ∃ ds, ds.length = 8 ∧ disassemble c = ".word 0x" ++ String.ofList ds ∧
    digitsVal 16 hexDigitVal ds 0 = some c.toNat) ∧
  (∀ c c' : Word, legal c = true → legal c' = true → disassemble c = disassemble c' → c = c')

/-- For every state and illegal word c, where no foreign write falls in the window: the step that writes c to CMD
while other agents write memory leaves CMD = c, STATUS = 0x00000011, memory with the foreign writes made in
their order, and nothing else changed; where a reset arrives during it, the six registers are 0 and memory is
the same. A foreign write to a device changes no memory. (The model's choice: notes/assumptions/18.md, and 8.md
for devices. That a reset keeps the platform, the host's later accesses, the recorded values and the count of
draws is 17.md.) Rules R52, R69, R119, R133 (derived). -/
def Obligations.IllegalWordInADisturbedWriteMakesNoAccess : Prop :=
  ∀ (s : State) (c : Word) (others : List (Addr × Byte)) (rest : List HostAccess), legal c = false →
    (∀ o ∈ others, s.platform.inWindow o.1 = false) →
    let landed := s.mem.replay s.platform (others.map fun o => Access.write o.1 o.2)
    (s.host = .contendedCmd c others :: rest →
      step s = .next { s with cmd := c, status := 0x00000011#32, mem := landed, host := rest }) ∧
    (s.host = .resetDuringCmd c others :: rest →
      step s = .next { s with fbBase := 0#32, bmBase := 0#32, arg0 := 0#32, arg1 := 0#32, cmd := 0#32,
                              status := 0#32, mem := landed, host := rest })

/-- For every state and legal word, with any foreign writes, where neither the command's accesses nor the foreign
writes fall in the window: the step of the contended CMD write answers a state whose memory is the old one with
some interleaving of the command's own accesses and all the foreign writes performed, every own read of an
address that is no device having the byte that stands there at that point (a read of a device may give any byte,
U8, and a write to one changes no memory, the model's choice: notes/assumptions/8.md), and every own access
being the one the command makes next; MemOK holds at every own access; STATUS is 0 and the command has made all
its accesses, or STATUS is 0x00000021 and MemOK is false at its next one. Where a reset arrives during the
command, memory is such an interleaving for some beginning of the command, and the registers are at their reset
values. Nothing else changes but the model's draws. (That these interleavings are the whole race is the model's
reading: notes/assumptions/7.md. That the fields which are not the block's stay at a reset is 17.md.) Rules R46,
R52, R135, 93_implementation_defined.md U3, 93_implementation_defined.md U5, 93_implementation_defined.md U8
(derived). -/
def Obligations.DisturbedCommandsAreInterleavings : Prop :=
  ∀ (s : State) (c : Word) (i : Instr) (others : List (Addr × Byte)) (rest : List HostAccess), decode c = .ok i →
    (∀ a ∈ (program i s.operands).addresses, s.platform.inWindow a = false) →
    (∀ o ∈ others, s.platform.inWindow o.1 = false) →
    let interleaved (own : List Access) (m : Memory) : Prop :=
      (program i s.operands).begins own ∧ (∀ x ∈ own, s.platform.memOK x.addr = true) ∧
      ∃ all, Interleaves own (others.map fun o => Access.write o.1 o.2) all ∧ s.mem.seenBy s.platform all ∧
        m = s.mem.replay s.platform all
    (s.host = .contendedCmd c others :: rest →
      ∃ t own, step s = .next t ∧ interleaved own t.mem ∧
        t = { s with mem := t.mem, cmd := c, status := t.status, host := rest, draws := t.draws } ∧
        ((t.status = 0x00000000#32 ∧ own.length = (program i s.operands).addresses.length) ∨
         (t.status = 0x00000021#32 ∧ ∃ a, (program i s.operands).addresses[own.length]? = some a ∧
           s.platform.memOK a = false))) ∧
    (s.host = .resetDuringCmd c others :: rest →
      ∃ t own, step s = .next t ∧ interleaved own t.mem ∧
        t = { s with fbBase := 0#32, bmBase := 0#32, arg0 := 0#32, arg1 := 0#32, cmd := 0#32, status := 0#32,
                     mem := t.mem, host := rest, draws := t.draws })
end

