-- ==== Sys2Proof/Laws/Memory.lean ====
section
/-! SUPPORT. Memory: a read after a write, and the canonical form. -/

namespace Sys2Proof.Machine

theorem Memory.readAt_insertCell_same (m : Memory) (a : Nat) (v : Byte) (h : ∀ c ∈ m, c.1 ≠ a) :
    (m.insertCell a v).readAt a = v := by
  induction m with
  | nil => simp [insertCell, readAt]
  | cons c rest ih =>
    have hc : c.1 ≠ a := h c (by simp)
    simp only [insertCell]
    split
    · simp [readAt]
    · simp only [readAt, if_neg (Ne.symm hc)]
      exact ih fun d hd => h d (by simp [hd])

theorem Memory.readAt_insertCell_other (m : Memory) {a b : Nat} (v : Byte) (h : b ≠ a) :
    (m.insertCell a v).readAt b = m.readAt b := by
  induction m with
  | nil => simp [insertCell, readAt, h]
  | cons c rest ih =>
    simp only [insertCell]
    split
    · simp [readAt, h]
    · simp only [readAt, ih]

theorem Memory.readAt_without_same (m : Memory) (a : Nat) : (m.without a).readAt a = unlisted := by
  induction m with
  | nil => rfl
  | cons c rest ih =>
    by_cases hc : c.1 = a
    · simpa [without, hc] using ih
    · simpa [without, hc, readAt, Ne.symm hc] using ih

theorem Memory.readAt_without_other (m : Memory) {a b : Nat} (h : b ≠ a) :
    (m.without a).readAt b = m.readAt b := by
  induction m with
  | nil => rfl
  | cons c rest ih =>
    by_cases hc : c.1 = a
    · have hb : b ≠ c.1 := by omega
      simpa [without, hc, readAt, hb, h] using ih
    · have ih' : Memory.readAt (List.filter (fun c => c.1 != a) rest) b = Memory.readAt rest b := ih
      simp [without, hc, readAt, ih']

theorem Memory.without_ne (m : Memory) (a : Nat) : ∀ c ∈ m.without a, c.1 ≠ a := by
  intro c hc
  simpa [without] using (List.mem_filter.mp hc).2

/-- What one write does to every read: the byte written, and no other (R16). -/
theorem Memory.readAt_writeAt (m : Memory) (a b : Nat) (v : Byte) :
    (m.writeAt a v).readAt b = if b = a then v else m.readAt b := by
  unfold writeAt
  by_cases hb : b = a
  · subst hb
    split
    · next hv => simp [readAt_without_same, hv]
    · simp [readAt_insertCell_same _ _ _ (m.without_ne b)]
  · split
    · simp [readAt_without_other m hb]
    · simp [readAt_insertCell_other _ _ hb, readAt_without_other m hb]

/-- What one byte write does to every byte read (R16). -/
theorem Memory.read_write (m : Memory) (a b : Addr) (v : Byte) :
    (m.write a v).read b = if b = a then v else m.read b := by
  simp only [read, write, readAt_writeAt, BitVec.toNat_inj]

@[simp] theorem Memory.read_write_same (m : Memory) (a : Addr) (v : Byte) : (m.write a v).read a = v := by
  simp [read_write]

theorem Memory.read_write_other (m : Memory) {a b : Addr} (v : Byte) (h : b ≠ a) :
    (m.write a v).read b = m.read b := by
  simp [read_write, h]

/-- The canonical form of a list, head first. -/
theorem Memory.wf_cons (a : Nat) (v : Byte) (rest : Memory) :
    Memory.wf ((a, v) :: rest) = true ↔
      a < 2 ^ 32 ∧ v ≠ unlisted ∧ (∀ c ∈ rest, a < c.1) ∧ rest.wf = true := by
  simp [wf, and_assoc]

@[simp] theorem Memory.wf_nil : Memory.wf [] = true := rfl

theorem Memory.wf_without (m : Memory) (a : Nat) (h : m.wf = true) : (m.without a).wf = true := by
  induction m with
  | nil => rfl
  | cons c rest ih =>
    obtain ⟨b, w⟩ := c
    obtain ⟨hb, hw, hlt, hrest⟩ := (wf_cons b w rest).mp h
    by_cases hc : b = a
    · simpa [without, hc] using ih hrest
    · have e : Memory.without ((b, w) :: rest) a = (b, w) :: Memory.without rest a := by
        simp [without, hc]
      rw [e, wf_cons]
      exact ⟨hb, hw, fun d hd => hlt d (List.mem_filter.mp hd).1, ih hrest⟩

theorem Memory.mem_insertCell (m : Memory) (a : Nat) (v : Byte) (c : Host.Cell) (h : c ∈ m.insertCell a v) :
    c = (a, v) ∨ c ∈ m := by
  induction m with
  | nil => simpa [insertCell] using h
  | cons d rest ih =>
    simp only [insertCell] at h
    split at h
    · simpa using h
    · rcases List.mem_cons.mp h with h | h
      · exact .inr (by simp [h])
      · rcases ih h with h | h
        · exact .inl h
        · exact .inr (by simp [h])

theorem Memory.wf_insertCell (m : Memory) (a : Nat) (v : Byte) (h : m.wf = true) (ha : a < 2 ^ 32)
    (hv : v ≠ unlisted) (hne : ∀ c ∈ m, c.1 ≠ a) : (m.insertCell a v).wf = true := by
  induction m with
  | nil => exact (wf_cons a v []).mpr ⟨ha, hv, by simp, rfl⟩
  | cons c rest ih =>
    obtain ⟨b, w⟩ := c
    obtain ⟨hb, hw, hlt, hrest⟩ := (wf_cons b w rest).mp h
    simp only [insertCell]
    split
    · next hab =>
      rw [wf_cons]
      refine ⟨ha, hv, ?_, h⟩
      intro d hd
      rcases List.mem_cons.mp hd with rfl | hd
      · exact hab
      · exact lt_trans hab (hlt d hd)
    · next hab =>
      have hba : b < a := by
        have := hne (b, w) (by simp)
        simp at this
        omega
      rw [wf_cons]
      refine ⟨hb, hw, ?_, ih hrest fun d hd => hne d (by simp [hd])⟩
      intro d hd
      rcases mem_insertCell rest a v d hd with rfl | hd
      · exact hba
      · exact hlt d hd

/-- Every write keeps the canonical form. -/
theorem Memory.wf_writeAt (m : Memory) (a : Nat) (v : Byte) (h : m.wf = true) (ha : a < 2 ^ 32) :
    (m.writeAt a v).wf = true := by
  unfold writeAt
  split
  · exact wf_without m a h
  · next hv => exact wf_insertCell _ a v (wf_without m a h) ha hv (m.without_ne a)

/-- Every write of a bus address keeps the canonical form. -/
theorem Memory.wf_write (m : Memory) (a : Addr) (v : Byte) (h : m.wf = true) : (m.write a v).wf = true :=
  wf_writeAt m a.toNat v h a.isLt

end Sys2Proof.Machine
end

