-- ==== Sys2Proof/Laws/State.lean ====
section
/-! SUPPORT. One lemma per field per update of the state, so that no proof unfolds an update. -/

namespace Sys2Proof.Machine

/-! ### record -/

@[simp] theorem State.record_fbBase (s : State) (v : Word) : (s.record v).fbBase = s.fbBase := rfl
@[simp] theorem State.record_bmBase (s : State) (v : Word) : (s.record v).bmBase = s.bmBase := rfl
@[simp] theorem State.record_arg0 (s : State) (v : Word) : (s.record v).arg0 = s.arg0 := rfl
@[simp] theorem State.record_arg1 (s : State) (v : Word) : (s.record v).arg1 = s.arg1 := rfl
@[simp] theorem State.record_cmd (s : State) (v : Word) : (s.record v).cmd = s.cmd := rfl
@[simp] theorem State.record_status (s : State) (v : Word) : (s.record v).status = s.status := rfl
@[simp] theorem State.record_mem (s : State) (v : Word) : (s.record v).mem = s.mem := rfl
@[simp] theorem State.record_platform (s : State) (v : Word) : (s.record v).platform = s.platform := rfl
@[simp] theorem State.record_host (s : State) (v : Word) : (s.record v).host = s.host := rfl
@[simp] theorem State.record_recorded (s : State) (v : Word) : (s.record v).recorded = v :: s.recorded := rfl
@[simp] theorem State.record_draws (s : State) (v : Word) : (s.record v).draws = s.draws := rfl

/-! ### raiseError -/

@[simp] theorem State.raiseError_fbBase (s : State) (e : ErrCode) : (s.raiseError e).fbBase = s.fbBase := rfl
@[simp] theorem State.raiseError_bmBase (s : State) (e : ErrCode) : (s.raiseError e).bmBase = s.bmBase := rfl
@[simp] theorem State.raiseError_arg0 (s : State) (e : ErrCode) : (s.raiseError e).arg0 = s.arg0 := rfl
@[simp] theorem State.raiseError_arg1 (s : State) (e : ErrCode) : (s.raiseError e).arg1 = s.arg1 := rfl
@[simp] theorem State.raiseError_cmd (s : State) (e : ErrCode) : (s.raiseError e).cmd = s.cmd := rfl
@[simp] theorem State.raiseError_status (s : State) (e : ErrCode) : (s.raiseError e).status = statusWord e := rfl
@[simp] theorem State.raiseError_mem (s : State) (e : ErrCode) : (s.raiseError e).mem = s.mem := rfl
@[simp] theorem State.raiseError_platform (s : State) (e : ErrCode) : (s.raiseError e).platform = s.platform := rfl
@[simp] theorem State.raiseError_host (s : State) (e : ErrCode) : (s.raiseError e).host = s.host := rfl
@[simp] theorem State.raiseError_recorded (s : State) (e : ErrCode) : (s.raiseError e).recorded = s.recorded := rfl
@[simp] theorem State.raiseError_draws (s : State) (e : ErrCode) : (s.raiseError e).draws = s.draws := rfl

/-! ### complete -/

@[simp] theorem State.complete_fbBase (s : State) : (s.complete).fbBase = s.fbBase := rfl
@[simp] theorem State.complete_bmBase (s : State) : (s.complete).bmBase = s.bmBase := rfl
@[simp] theorem State.complete_arg0 (s : State) : (s.complete).arg0 = s.arg0 := rfl
@[simp] theorem State.complete_arg1 (s : State) : (s.complete).arg1 = s.arg1 := rfl
@[simp] theorem State.complete_cmd (s : State) : (s.complete).cmd = s.cmd := rfl
@[simp] theorem State.complete_status (s : State) : (s.complete).status = 0#32 := rfl
@[simp] theorem State.complete_mem (s : State) : (s.complete).mem = s.mem := rfl
@[simp] theorem State.complete_platform (s : State) : (s.complete).platform = s.platform := rfl
@[simp] theorem State.complete_host (s : State) : (s.complete).host = s.host := rfl
@[simp] theorem State.complete_recorded (s : State) : (s.complete).recorded = s.recorded := rfl
@[simp] theorem State.complete_draws (s : State) : (s.complete).draws = s.draws := rfl

/-! ### resetRegisters -/

@[simp] theorem State.resetRegisters_fbBase (s : State) : (s.resetRegisters).fbBase = 0#32 := rfl
@[simp] theorem State.resetRegisters_bmBase (s : State) : (s.resetRegisters).bmBase = 0#32 := rfl
@[simp] theorem State.resetRegisters_arg0 (s : State) : (s.resetRegisters).arg0 = 0#32 := rfl
@[simp] theorem State.resetRegisters_arg1 (s : State) : (s.resetRegisters).arg1 = 0#32 := rfl
@[simp] theorem State.resetRegisters_cmd (s : State) : (s.resetRegisters).cmd = 0#32 := rfl
@[simp] theorem State.resetRegisters_status (s : State) : (s.resetRegisters).status = 0#32 := rfl
@[simp] theorem State.resetRegisters_mem (s : State) : (s.resetRegisters).mem = s.mem := rfl
@[simp] theorem State.resetRegisters_platform (s : State) : (s.resetRegisters).platform = s.platform := rfl
@[simp] theorem State.resetRegisters_host (s : State) : (s.resetRegisters).host = s.host := rfl
@[simp] theorem State.resetRegisters_recorded (s : State) : (s.resetRegisters).recorded = s.recorded := rfl
@[simp] theorem State.resetRegisters_draws (s : State) : (s.resetRegisters).draws = s.draws := rfl

/-! ### withBus -/

@[simp] theorem State.withBus_fbBase (s : State) (b : Bus) : (s.withBus b).fbBase = s.fbBase := rfl
@[simp] theorem State.withBus_bmBase (s : State) (b : Bus) : (s.withBus b).bmBase = s.bmBase := rfl
@[simp] theorem State.withBus_arg0 (s : State) (b : Bus) : (s.withBus b).arg0 = s.arg0 := rfl
@[simp] theorem State.withBus_arg1 (s : State) (b : Bus) : (s.withBus b).arg1 = s.arg1 := rfl
@[simp] theorem State.withBus_cmd (s : State) (b : Bus) : (s.withBus b).cmd = s.cmd := rfl
@[simp] theorem State.withBus_status (s : State) (b : Bus) : (s.withBus b).status = s.status := rfl
@[simp] theorem State.withBus_mem (s : State) (b : Bus) : (s.withBus b).mem = b.mem := rfl
@[simp] theorem State.withBus_platform (s : State) (b : Bus) : (s.withBus b).platform = s.platform := rfl
@[simp] theorem State.withBus_host (s : State) (b : Bus) : (s.withBus b).host = s.host := rfl
@[simp] theorem State.withBus_recorded (s : State) (b : Bus) : (s.withBus b).recorded = s.recorded := rfl
@[simp] theorem State.withBus_draws (s : State) (b : Bus) : (s.withBus b).draws = b.draws := rfl

/-! ### writeReg: what it changes, register by register -/

@[simp] theorem State.writeReg_fbBase (s : State) (v : Word) : s.writeReg .fbBase v = { s with fbBase := v } := rfl
@[simp] theorem State.writeReg_bmBase (s : State) (v : Word) : s.writeReg .bmBase v = { s with bmBase := v } := rfl
@[simp] theorem State.writeReg_arg0 (s : State) (v : Word) : s.writeReg .arg0 v = { s with arg0 := v } := rfl
@[simp] theorem State.writeReg_arg1 (s : State) (v : Word) : s.writeReg .arg1 v = { s with arg1 := v } := rfl
@[simp] theorem State.writeReg_cmd (s : State) (v : Word) : s.writeReg .cmd v = { s with cmd := v } := rfl
@[simp] theorem State.writeReg_status (s : State) (v : Word) : s.writeReg .status v = s := rfl
@[simp] theorem State.writeReg_geom (s : State) (v : Word) : s.writeReg .geom v = s := rfl
@[simp] theorem State.writeReg_reserved (s : State) (v : Word) : s.writeReg .reserved v = s := rfl
@[simp] theorem State.writeReg_keeps_mem (s : State) (r : WindowReg) (v : Word) : (s.writeReg r v).mem = s.mem := by
  cases r <;> rfl
@[simp] theorem State.writeReg_keeps_platform (s : State) (r : WindowReg) (v : Word) : (s.writeReg r v).platform = s.platform := by
  cases r <;> rfl
@[simp] theorem State.writeReg_keeps_host (s : State) (r : WindowReg) (v : Word) : (s.writeReg r v).host = s.host := by
  cases r <;> rfl
@[simp] theorem State.writeReg_keeps_recorded (s : State) (r : WindowReg) (v : Word) : (s.writeReg r v).recorded = s.recorded := by
  cases r <;> rfl
@[simp] theorem State.writeReg_keeps_draws (s : State) (r : WindowReg) (v : Word) : (s.writeReg r v).draws = s.draws := by
  cases r <;> rfl
@[simp] theorem State.writeReg_keeps_status (s : State) (r : WindowReg) (v : Word) : (s.writeReg r v).status = s.status := by
  cases r <;> rfl

/-! ### readReg -/

@[simp] theorem State.readReg_fbBase (s : State) : s.readReg .fbBase = s.fbBase := rfl
@[simp] theorem State.readReg_bmBase (s : State) : s.readReg .bmBase = s.bmBase := rfl
@[simp] theorem State.readReg_arg0 (s : State) : s.readReg .arg0 = s.arg0 := rfl
@[simp] theorem State.readReg_arg1 (s : State) : s.readReg .arg1 = s.arg1 := rfl
@[simp] theorem State.readReg_cmd (s : State) : s.readReg .cmd = s.cmd := rfl
@[simp] theorem State.readReg_status (s : State) : s.readReg .status = s.status := rfl
@[simp] theorem State.readReg_geom (s : State) : s.readReg .geom = 0x01900280#32 := rfl
@[simp] theorem State.readReg_reserved (s : State) : s.readReg .reserved = 0#32 := rfl

/-! ### STATUS words (R118) -/

@[simp] theorem statusWord_ok : statusWord .ok = 0x00000000#32 := rfl
@[simp] theorem statusWord_illegalCmd : statusWord .illegalCmd = 0x00000011#32 := rfl
@[simp] theorem statusWord_busError : statusWord .busError = 0x00000021#32 := rfl

theorem statusErr_statusWord (e : ErrCode) : statusErr (statusWord e) = errBit e := by
  cases e <;> rfl

theorem statusErrCode_statusWord (e : ErrCode) : statusErrCode (statusWord e) = errCodeBits e := by
  cases e <;> rfl

/-! ### The bus a command starts on -/

@[simp] theorem State.bus_mem (s : State) : s.bus.mem = s.mem := rfl
@[simp] theorem State.bus_draws (s : State) : s.bus.draws = s.draws := rfl
@[simp] theorem State.bus_log (s : State) : s.bus.log = [] := rfl

end Sys2Proof.Machine
end

