-- ==== Sys2Proof/Laws/Bus.lean ====
section
/-! SUPPORT. What a run of accesses can do: how sequences run, what a run keeps, and how a command ends. -/

namespace Sys2Proof.Machine

/-! ### The fields of a bus after one access -/

@[simp] theorem Bus.afterRead_mem (b : Bus) (p : Platform) (a : Addr) : (b.afterRead p a).mem = b.mem := rfl
@[simp] theorem Bus.afterRead_log (b : Bus) (p : Platform) (a : Addr) :
    (b.afterRead p a).log = .read a (b.valueAt p a) :: b.log := rfl
@[simp] theorem Bus.afterWrite_draws (b : Bus) (p : Platform) (a : Addr) (v : Byte) :
    (b.afterWrite p a v).draws = b.draws := rfl
@[simp] theorem Bus.afterWrite_log (b : Bus) (p : Platform) (a : Addr) (v : Byte) :
    (b.afterWrite p a v).log = .write a v :: b.log := rfl
@[simp] theorem Bus.land_draws (b : Bus) (p : Platform) (os : List (Addr × Byte)) : (b.land p os).draws = b.draws := rfl
@[simp] theorem Bus.land_log (b : Bus) (p : Platform) (os : List (Addr × Byte)) : (b.land p os).log = b.log := rfl
@[simp] theorem Bus.land_nil (b : Bus) (p : Platform) : b.land p [] = b := rfl

/-! ### Permitted accesses -/

theorem Platform.check_eq_none (p : Platform) (a : Addr) :
    p.check a = none ↔ p.inWindow a = false ∧ p.memOK a = true := by
  unfold check
  cases p.inWindow a <;> cases p.memOK a <;> simp

theorem Platform.check_eq_refused (p : Platform) (a : Addr) :
    p.check a = some .refused ↔ p.inWindow a = false ∧ p.memOK a = false := by
  unfold check
  cases p.inWindow a <;> cases p.memOK a <;> simp

theorem Platform.check_eq_ownWindow (p : Platform) (a x : Addr) :
    p.check a = some (.ownWindow x) ↔ p.inWindow a = true ∧ a = x := by
  unfold check
  cases p.inWindow a <;> cases p.memOK a <;> simp

theorem Platform.ordinary_iff (p : Platform) (a : Addr) :
    p.ordinary a = true ↔ p.check a = none ∧ p.isDevice a = false := by
  unfold ordinary
  rw [check_eq_none]
  cases p.inWindow a <;> cases p.memOK a <;> cases p.isDevice a <;> simp

/-! ### Runs -/

@[simp] theorem BusProg.run_done (p : Platform) (b : Bus) : BusProg.done.run p b = ⟨none, b⟩ := rfl

theorem BusProg.run_read (p : Platform) (a : Addr) (k : Byte → BusProg) (b : Bus) (h : p.check a = none) :
    (BusProg.read a k).run p b = (k (b.valueAt p a)).run p (b.afterRead p a) := by
  simp [run, h]

theorem BusProg.run_write (p : Platform) (a : Addr) (v : Byte) (k : BusProg) (b : Bus) (h : p.check a = none) :
    (BusProg.write a v k).run p b = k.run p (b.afterWrite p a v) := by
  simp [run, h]

theorem BusProg.run_read_stopped (p : Platform) (a : Addr) (k : Byte → BusProg) (b : Bus) (e : BusStop)
    (h : p.check a = some e) : (BusProg.read a k).run p b = ⟨some e, b⟩ := by
  simp [run, h]

theorem BusProg.run_write_stopped (p : Platform) (a : Addr) (v : Byte) (k : BusProg) (b : Bus) (e : BusStop)
    (h : p.check a = some e) : (BusProg.write a v k).run p b = ⟨some e, b⟩ := by
  simp [run, h]

/-- A sequence runs its first part and, where that came to its end, its second. -/
theorem BusProg.run_seq (p : Platform) (x y : BusProg) (b : Bus) :
    (x.seq y).run p b =
      match (x.run p b).stop with
      | none => y.run p (x.run p b).bus
      | some e => ⟨some e, (x.run p b).bus⟩ := by
  induction x generalizing b with
  | done => rfl
  | read a k ih =>
    cases h : p.check a with
    | none => simp only [seq, run_read p a _ b h, ih]
    | some e => simp only [seq, run_read_stopped p a _ b e h]
  | write a v k ih =>
    cases h : p.check a with
    | none => simp only [seq, run_write p a v _ b h, ih]
    | some e => simp only [seq, run_write_stopped p a v _ b e h]

@[simp] theorem BusProg.seqAll_nil : BusProg.seqAll [] = .done := rfl
@[simp] theorem BusProg.seqAll_cons (x : BusProg) (xs : List BusProg) :
    BusProg.seqAll (x :: xs) = x.seq (BusProg.seqAll xs) := rfl
@[simp] theorem BusProg.done_seq (x : BusProg) : BusProg.done.seq x = x := rfl

@[simp] theorem BusProg.seq_done (x : BusProg) : x.seq .done = x := by
  induction x with
  | done => rfl
  | read a k ih => simp only [seq, ih]
  | write a v k ih => simp only [seq, ih]

theorem BusProg.addresses_seq (x y : BusProg) : (x.seq y).addresses = x.addresses ++ y.addresses := by
  induction x with
  | done => rfl
  | read a k ih => simp only [seq, addresses, ih, List.cons_append]
  | write a v k ih => simp only [seq, addresses, ih, List.cons_append]

theorem BusProg.addresses_seqAll (xs : List BusProg) :
    (BusProg.seqAll xs).addresses = xs.flatMap BusProg.addresses := by
  induction xs with
  | nil => rfl
  | cons x xs ih => simp [addresses_seq, ih]

/-! ### What a run keeps -/

theorem Bus.wf_afterWrite (b : Bus) (p : Platform) (a : Addr) (v : Byte) (h : b.mem.wf = true) :
    (b.afterWrite p a v).mem.wf = true := by
  unfold afterWrite
  dsimp only
  split
  · exact h
  · exact Memory.wf_write _ _ _ h

theorem Bus.wf_land (b : Bus) (p : Platform) (os : List (Addr × Byte)) (h : b.mem.wf = true) :
    (b.land p os).mem.wf = true := by
  unfold land
  dsimp only
  generalize b.mem = m at h
  induction os generalizing m with
  | nil => exact h
  | cons o os ih =>
    simp only [List.foldl_cons]
    apply ih
    split
    · exact h
    · exact Memory.wf_write _ _ _ h

/-- A run keeps the canonical form of memory. -/
theorem BusProg.run_wf (p : Platform) (x : BusProg) (b : Bus) (h : b.mem.wf = true) :
    (x.run p b).bus.mem.wf = true := by
  induction x generalizing b with
  | done => exact h
  | read a k ih =>
    cases hc : p.check a with
    | none => rw [run_read p a k b hc]; exact ih _ _ h
    | some e => rw [run_read_stopped p a k b e hc]; exact h
  | write a v k ih =>
    cases hc : p.check a with
    | none => rw [run_write p a v k b hc]; exact ih _ (b.wf_afterWrite p a v h)
    | some e => rw [run_write_stopped p a v k b e hc]; exact h

/-- A contended run keeps the canonical form of memory. -/
theorem BusProg.runAmong_wf (p : Platform) (d : Nat) (x : BusProg) (n : Nat) (os : List (Addr × Byte)) (b : Bus)
    (h : b.mem.wf = true) : (x.runAmong p d n os b).bus.mem.wf = true := by
  induction x generalizing n os b with
  | done => exact b.wf_land p os h
  | read a k ih =>
    simp only [runAmong]
    split
    · exact b.wf_land p os h
    · exact ih _ _ _ _ (b.wf_land p _ h)
  | write a v k ih =>
    simp only [runAmong]
    split
    · exact b.wf_land p os h
    · exact ih _ _ _ (Bus.wf_afterWrite _ p a v (b.wf_land p _ h))

/-- Without foreign writes a contended run is a run. -/
theorem BusProg.runAmong_nil (p : Platform) (d : Nat) (x : BusProg) (n : Nat) (b : Bus) :
    x.runAmong p d n [] b = x.run p b := by
  induction x generalizing n b with
  | done => rfl
  | read a k ih =>
    simp only [runAmong, run, List.take_nil, List.drop_nil, Bus.land_nil]
    split
    · rfl
    · exact ih _ _ _
  | write a v k ih =>
    simp only [runAmong, run, List.take_nil, List.drop_nil, Bus.land_nil]
    split
    · rfl
    · exact ih _ _

/-! ### How a command ends -/

/-- A command that answers a next state completed with STATUS = OK or ended with BUS_ERROR (R69). -/
theorem State.finish_cases {s t : State} {r : RunEnd} (h : s.finish r = .next t) :
    (r.stop = none ∧ t = (s.withBus r.bus).complete) ∨
    (r.stop = some .refused ∧ t = (s.withBus r.bus).raiseError .busError) := by
  unfold finish at h
  split at h
  · next hs => exact .inl ⟨hs, by simpa using h.symm⟩
  · next hs => exact .inr ⟨hs, by simpa using h.symm⟩
  · cases h

/-- No command faults. -/
theorem State.finish_no_fault (s : State) (r : RunEnd) (f : Fault) : s.finish r ≠ .fault f := by
  cases f

/-- Every command runs its program on its operands. -/
theorem exec_eq_runCommand (i : Instr) (s : State) : exec i s = s.runCommand (program i s.operands) := by
  cases i <;> rfl

/-- What a command can do when it answers a next state. -/
theorem exec_cases {i : Instr} {s t : State} (h : exec i s = .next t) :
    (((program i s.operands).run s.platform s.bus).stop = none ∧
      t = (s.withBus ((program i s.operands).run s.platform s.bus).bus).complete) ∨
    (((program i s.operands).run s.platform s.bus).stop = some .refused ∧
      t = (s.withBus ((program i s.operands).run s.platform s.bus).bus).raiseError .busError) := by
  rw [exec_eq_runCommand] at h
  exact State.finish_cases h

/-! ### What the host's accesses can do -/

/-- A step is idle or performs the next host access (R132). -/
theorem performNext_cases {s t : State} (h : performNext s = .next t) :
    (s.host = [] ∧ t = s) ∨ (∃ a rest, s.host = a :: rest ∧ perform a { s with host := rest } = .next t) := by
  unfold performNext at h
  split at h
  · next hs => exact .inl ⟨hs, by simpa using h.symm⟩
  · next a rest hs => exact .inr ⟨a, rest, hs, h⟩

/-- What a host read of memory can do (R51). -/
theorem hostMemRead_cases {a : Addr} {s t : State} (h : hostMemRead a s = .next t) :
    s.platform.inWindow a = false ∧
      t = (s.withBus (s.bus.afterRead s.platform a)).record ((s.bus.valueAt s.platform a).setWidth 32) := by
  unfold hostMemRead at h
  split at h
  · cases h
  · next hw => exact ⟨by simpa using hw, by simpa using h.symm⟩

/-- What a host write of memory can do (R51). -/
theorem hostMemWrite_cases {a : Addr} {v : Byte} {s t : State} (h : hostMemWrite a v s = .next t) :
    s.platform.inWindow a = false ∧ t = s.withBus (s.bus.afterWrite s.platform a v) := by
  unfold hostMemWrite at h
  split at h
  · cases h
  · next hw => exact ⟨by simpa using hw, by simpa using h.symm⟩

/-- What command issue can do (R69). -/
theorem issue_cases (c : Word) (s : State) :
    (∃ e, decode c = .error e ∧ issue c s = .next ((s.writeReg .cmd c).raiseError .illegalCmd)) ∨
    (∃ i, decode c = .ok i ∧ issue c s = exec i (s.writeReg .cmd c)) := by
  unfold issue
  cases decode c with
  | error e => exact .inl ⟨e, rfl, rfl⟩
  | ok i => exact .inr ⟨i, rfl, rfl⟩

/-- What a host write of the window can do (R22). -/
theorem hostRegWrite_cases {off : BitVec 5} {width : AccessWidth} {data : Word} {s t : State}
    (h : hostRegWrite off width data s = .next t) :
    (accessedReg off width = some .cmd ∧ issue data s = .next t) ∨
    (∃ r, accessedReg off width = some r ∧ r ≠ .cmd ∧ t = s.writeReg r data) := by
  unfold hostRegWrite at h
  split at h
  · cases h
  · next hr => exact .inl ⟨hr, h⟩
  · next r hne hr =>
    refine .inr ⟨r, hr, fun e => hne (e ▸ rfl), by simpa using h.symm⟩

/-- What a host read of the window can do (R22). -/
theorem hostRegRead_cases {off : BitVec 5} {width : AccessWidth} {s t : State}
    (h : hostRegRead off width s = .next t) :
    ∃ r, accessedReg off width = some r ∧ t = s.record (s.readReg r) := by
  unfold hostRegRead at h
  split at h
  · cases h
  · next r hr => exact ⟨r, hr, by simpa using h.symm⟩

/-- What a contended command can do (R52). -/
theorem contendedCmd_cases {c : Word} {os : List (Addr × Byte)} {s t : State}
    (h : contendedCmd c os s = .next t) :
    (∃ e, decode c = .error e ∧
      t = ((s.writeReg .cmd c).withBus (s.bus.land s.platform os)).raiseError .illegalCmd) ∨
    (∃ i, decode c = .ok i ∧
      (s.writeReg .cmd c).finish ((program i s.operands).runAmong s.platform s.draws 0 os s.drawnBus) = .next t) := by
  unfold contendedCmd at h
  split at h
  · cases h
  · split at h
    · next e he => exact .inl ⟨e, he, by simpa using h.symm⟩
    · next i hi => exact .inr ⟨i, hi, h⟩

/-- How a command cut short by reset ends (R135). -/
theorem State.finishByReset_cases {s t : State} {r : RunEnd} (h : s.finishByReset r = .next t) :
    t = (s.withBus r.bus).resetRegisters := by
  unfold finishByReset at h
  split at h
  · cases h
  · simpa using h.symm
  · simpa using h.symm

/-- What a reset during a command can do (R135). -/
theorem resetDuringCmd_cases {c : Word} {os : List (Addr × Byte)} {s t : State}
    (h : resetDuringCmd c os s = .next t) :
    (∃ e, decode c = .error e ∧ t = (s.withBus (s.bus.land s.platform os)).resetRegisters) ∨
    (∃ i, decode c = .ok i ∧
      t = (s.withBus (((program i s.operands).cut (Config.resetPoint s.draws)).runAmong s.platform s.draws 0 os
        s.drawnBus).bus).resetRegisters) := by
  unfold resetDuringCmd at h
  split at h
  · cases h
  · split at h
    · next e he => exact .inl ⟨e, he, by simpa using h.symm⟩
    · next i hi =>
      exact .inr ⟨i, hi, State.finishByReset_cases h⟩

end Sys2Proof.Machine
end

