-- ==== Sys2Proof/Laws/Accesses.lean ====
section
/-! SUPPORT. Lists of performed accesses: what they leave in memory, how foreign writes land among them (R52), and
the beginnings of a command (R135). -/

namespace Sys2Proof.Machine

/-! ### One access -/

@[simp] theorem Access.addr_read (a : Addr) (v : Byte) : (Access.read a v).addr = a := rfl
@[simp] theorem Access.addr_write (a : Addr) (v : Byte) : (Access.write a v).addr = a := rfl
@[simp] theorem Access.isRead_read (a : Addr) (v : Byte) : (Access.read a v).isRead = true := rfl
@[simp] theorem Access.isRead_write (a : Addr) (v : Byte) : (Access.write a v).isRead = false := rfl
@[simp] theorem Access.isWrite_read (a : Addr) (v : Byte) : (Access.read a v).isWrite = false := rfl
@[simp] theorem Access.isWrite_write (a : Addr) (v : Byte) : (Access.write a v).isWrite = true := rfl

/-! ### Replay -/

@[simp] theorem Memory.replay_nil (p : Platform) (m : Memory) : m.replay p [] = m := rfl
@[simp] theorem Memory.replay_read (p : Platform) (m : Memory) (a : Addr) (v : Byte) (rest : List Access) :
    m.replay p (.read a v :: rest) = m.replay p rest := rfl
@[simp] theorem Memory.replay_write (p : Platform) (m : Memory) (a : Addr) (v : Byte) (rest : List Access) :
    m.replay p (.write a v :: rest) = (if p.isDevice a then m else m.write a v : Memory).replay p rest := rfl

theorem Memory.replay_append (p : Platform) (m : Memory) (xs ys : List Access) :
    m.replay p (xs ++ ys) = (m.replay p xs).replay p ys := by
  induction xs generalizing m with
  | nil => rfl
  | cons x xs ih => cases x <;> exact ih _

/-- Foreign writes land as performed writes do (R52). -/
theorem Bus.land_mem (b : Bus) (p : Platform) (others : List (Addr × Byte)) :
    (b.land p others).mem = b.mem.replay p (others.map fun o => .write o.1 o.2) := by
  unfold land
  dsimp only
  generalize b.mem = m
  induction others generalizing m with
  | nil => rfl
  | cons o rest ih => exact ih _

/-! ### Foreign writes in front of an interleaving -/

theorem interleaves_foreign (xs : List Access) : Interleaves [] xs xs := by
  induction xs with
  | nil => exact ⟨rfl, rfl⟩
  | cons x xs ih => exact .inr ⟨xs, rfl, ih⟩

theorem interleaves_own_cons (x : Access) {own foreign all : List Access} (h : Interleaves own foreign all) :
    Interleaves (x :: own) foreign (x :: all) := .inl ⟨own, rfl, h⟩

theorem interleaves_foreign_append (xs : List Access) {own foreign all : List Access}
    (h : Interleaves own foreign all) : Interleaves own (xs ++ foreign) (xs ++ all) := by
  induction xs with
  | nil => exact h
  | cons x xs ih => exact .inr ⟨xs ++ foreign, rfl, ih⟩

/-- Writes in front make no demand on what reads give. -/
theorem Memory.seenBy_writes_append (p : Platform) (m : Memory) (others : List (Addr × Byte)) (rest : List Access)
    (h : (m.replay p (others.map fun o => .write o.1 o.2)).seenBy p rest) :
    m.seenBy p ((others.map fun o => .write o.1 o.2) ++ rest) := by
  induction others generalizing m with
  | nil => exact h
  | cons o os ih => exact ih _ h

/-! ### Beginnings of a command -/

@[simp] theorem BusProg.begins_nil (x : BusProg) : x.begins [] := by cases x <;> trivial

theorem BusProg.addresses_cut (x : BusProg) (n : Nat) : (x.cut n).addresses = x.addresses.take n := by
  induction x generalizing n with
  | done => cases n <;> rfl
  | read a k ih =>
    cases n with
    | zero => rfl
    | succ n => simp [cut, addresses, ih]
  | write a v k ih =>
    cases n with
    | zero => rfl
    | succ n => simp [cut, addresses, ih]

/-- What a command cut short can begin with, the whole command can (R135). -/
theorem BusProg.begins_of_cut (x : BusProg) (n : Nat) (own : List Access) (h : (x.cut n).begins own) :
    x.begins own := by
  induction x generalizing n own with
  | done => cases n <;> exact h
  | read a k ih =>
    rcases own with _ | ⟨_ | _, rest⟩
    · trivial
    · cases n with
      | zero => exact h.elim
      | succ n => exact ⟨h.1, ih _ n rest h.2⟩
    · cases n <;> exact h.elim
  | write a v k ih =>
    rcases own with _ | ⟨_ | _, rest⟩
    · trivial
    · cases n <;> exact h.elim
    · cases n with
      | zero => exact h.elim
      | succ n => exact ⟨h.1, h.2.1, ih n rest h.2.2⟩

end Sys2Proof.Machine
end

