-- ==== Sys2Proof/Laws/Clip.lean ====
section
/-! SUPPORT. What each clip can answer: its no-op, and the bounds of what it lets through. -/

namespace Sys2Proof.Machine

open Sys2Proof.Config

theorem SW_eq : SW = 640 := rfl
theorem SH_eq : SH = 400 := rfl
theorem BPL_eq : BPL = 80 := rfl
theorem FBSIZE_eq : FBSIZE = 32000 := rfl

theorem onScreen_iff (x y : Int) : onScreen x y = true ↔ (0 ≤ x ∧ x < 640) ∧ 0 ≤ y ∧ y < 400 := by
  have h1 := SW_eq
  have h2 := SH_eq
  simp only [onScreen, Bool.and_eq_true, decide_eq_true_eq]
  omega

/-- What RectClip answers: a no-op (R76). -/
theorem rectClip_eq_none (x len y h : Int) :
    rectClip x len y h = none ↔ x < 0 ∨ x ≥ 640 ∨ y < 0 ∨ y ≥ 400 ∨ len < 1 ∨ h < 1 := by
  have h1 := SW_eq
  have h2 := SH_eq
  unfold rectClip
  split
  · simp only [true_iff]; omega
  · simp only [reduceCtorEq, false_iff]; omega

/-- What RectClip answers: the clamped rectangle (R76). -/
theorem rectClip_eq_some {x len y h : Int} {r : Rect} (hr : rectClip x len y h = some r) :
    (r.col : Int) = x ∧ (r.len : Int) = min len (640 - x) ∧ (r.row : Int) = y ∧ (r.height : Int) = min h (400 - y) ∧
      0 ≤ x ∧ x < 640 ∧ 0 ≤ y ∧ y < 400 ∧ 1 ≤ len ∧ 1 ≤ h := by
  have h1 := SW_eq
  have h2 := SH_eq
  unfold rectClip at hr
  split at hr
  · cases hr
  · simp only [Option.some.injEq] at hr
    subst hr
    dsimp only
    omega

/-- What HLINE's clip answers: a no-op (R78). -/
theorem hlineClip_eq_none (x1 x2 y : Int) :
    hlineClip x1 x2 y = none ↔ y < 0 ∨ y ≥ 400 ∨ max x1 x2 < 0 ∨ min x1 x2 ≥ 640 := by
  have h1 := SW_eq
  have h2 := SH_eq
  unfold hlineClip
  split
  · simp only [true_iff]; omega
  · dsimp only
    split
    · simp only [true_iff]; omega
    · simp only [reduceCtorEq, false_iff]; omega

/-- What HLINE's clip answers: the clamped span (R78). -/
theorem hlineClip_eq_some {x1 x2 y : Int} {lo hi : Nat} (h : hlineClip x1 x2 y = some (lo, hi)) :
    (lo : Int) = max (min x1 x2) 0 ∧ (hi : Int) = min (max x1 x2) 639 ∧ lo ≤ hi ∧ hi < 640 ∧ 0 ≤ y ∧ y < 400 := by
  have h1 := SW_eq
  have h2 := SH_eq
  unfold hlineClip at h
  split at h
  · cases h
  · dsimp only at h
    split at h
    · cases h
    · simp only [Option.some.injEq, Prod.mk.injEq] at h
      omega

/-- What VClip answers: a no-op (R86). -/
theorem vclip_eq_none (y h : Int) : vclip y h = none ↔ h ≤ 0 ∨ y ≥ 400 ∨ y + h ≤ 0 := by
  have h2 := SH_eq
  unfold vclip
  split
  · simp only [true_iff]; omega
  · dsimp only
    split
    · simp only [true_iff]; omega
    · simp only [reduceCtorEq, false_iff]; omega

/-- What VClip answers: the rows drawn (R86). -/
theorem vclip_eq_some {y h : Int} {first last : Nat} (hv : vclip y h = some (first, last)) :
    (first : Int) = max 0 y ∧ (last : Int) = min (y + h - 1) 399 ∧ first ≤ last ∧ last < 400 := by
  have h2 := SH_eq
  unfold vclip at hv
  split at hv
  · cases hv
  · dsimp only at hv
    split at hv
    · cases hv
    · simp only [Option.some.injEq, Prod.mk.injEq] at hv
      omega

theorem wordBits_cases (w : WordWidth) : wordBits w = 8 ∨ wordBits w = 16 ∨ wordBits w = 32 := by
  cases w <;> simp [wordBits]

/-- What HClip answers: a no-op (R88). -/
theorem hclip_eq_none (x : Int) (w : WordWidth) : hclip x w = none ↔ x ≤ -(wordBits w : Int) ∨ x ≥ 640 := by
  have h1 := SW_eq
  unfold hclip
  dsimp only
  split
  · simp only [true_iff]; omega
  · split
    · simp only [reduceCtorEq, false_iff]; omega
    · split
      · simp only [reduceCtorEq, false_iff]; omega
      · simp only [reduceCtorEq, false_iff]; omega

/-- The offset `m` of the regimes is the source's `|x| mod W` (R88): below `W`, and in RIGHT not 0. -/
theorem wordOffset_bounds (x : Int) (w : WordWidth) :
    0 ≤ x % (wordBits w : Int) ∧ x % (wordBits w : Int) < wordBits w ∧
      (640 - (wordBits w : Int) < x → x < 640 → 0 < x % (wordBits w : Int)) := by
  rcases wordBits_cases w with h | h | h <;> rw [h] <;> push_cast <;> omega

/-- What HClip answers: LEFT (R88). -/
theorem hclip_eq_left {x : Int} {w : WordWidth} {m : Nat} (h : hclip x w = some (.left m)) :
    x < 0 ∧ (m : Int) = -x ∧ m < wordBits w := by
  unfold hclip at h
  dsimp only at h
  split at h
  · cases h
  · split at h
    · simp only [Option.some.injEq, Regime.left.injEq] at h
      omega
    · split at h <;> cases h

/-- What HClip answers: RIGHT (R88). -/
theorem hclip_eq_right {x : Int} {w : WordWidth} {m : Nat} (h : hclip x w = some (.right m)) :
    640 - (wordBits w : Int) < x ∧ x < 640 ∧ (m : Int) = x % (wordBits w : Int) ∧ 0 < m ∧ m < wordBits w := by
  have h1 := SW_eq
  have h2 := wordOffset_bounds x w
  unfold hclip at h
  dsimp only at h
  split at h
  · cases h
  · split at h
    · cases h
    · split at h
      · simp only [Option.some.injEq, Regime.right.injEq] at h
        omega
      · cases h

/-- What HClip answers: FULL (R88). -/
theorem hclip_eq_full {x : Int} {w : WordWidth} {k m : Nat} (h : hclip x w = some (.full k m)) :
    0 ≤ x ∧ x ≤ 640 - (wordBits w : Int) ∧ (k : Int) = x / (wordBits w : Int) ∧ (m : Int) = x % (wordBits w : Int) ∧
      m < wordBits w := by
  have h1 := SW_eq
  have h2 := wordOffset_bounds x w
  unfold hclip at h
  dsimp only at h
  split at h
  · cases h
  · split at h
    · cases h
    · split at h
      · cases h
      · simp only [Option.some.injEq, Regime.full.injEq] at h
        have h3 : 0 ≤ x / (wordBits w : Int) := Int.ediv_nonneg (by omega) (by omega)
        omega

end Sys2Proof.Machine
end

