-- ==== Sys2Proof/Laws/PerInstr.lean ====
section
/-! SUPPORT. Statements about every command as syntax, one lemma per constructor. -/

namespace Sys2Proof.Laws

/-- A command is well formed, and its word decodes to it (R65). -/
def RoundTrip.Statement (i : Instr) : Prop := i.wellFormed = true ∧ decode (encode i) = .ok i

theorem RoundTrip.nop : RoundTrip.Statement .nop := ⟨rfl, rfl⟩
theorem RoundTrip.plot : RoundTrip.Statement .plot := ⟨rfl, rfl⟩
theorem RoundTrip.hline : RoundTrip.Statement .hline := ⟨rfl, rfl⟩
theorem RoundTrip.fillrect : RoundTrip.Statement .fillrect := ⟨rfl, rfl⟩
theorem RoundTrip.clearrect : RoundTrip.Statement .clearrect := ⟨rfl, rfl⟩
theorem RoundTrip.blit8Or : RoundTrip.Statement .blit8Or := ⟨rfl, rfl⟩
theorem RoundTrip.blit8Xor : RoundTrip.Statement .blit8Xor := ⟨rfl, rfl⟩
theorem RoundTrip.blit8Rep : RoundTrip.Statement .blit8Rep := ⟨rfl, rfl⟩
theorem RoundTrip.blit8Repinv : RoundTrip.Statement .blit8Repinv := ⟨rfl, rfl⟩
theorem RoundTrip.blit16Or : RoundTrip.Statement .blit16Or := ⟨rfl, rfl⟩
theorem RoundTrip.blit16Xor : RoundTrip.Statement .blit16Xor := ⟨rfl, rfl⟩
theorem RoundTrip.blit16Rep : RoundTrip.Statement .blit16Rep := ⟨rfl, rfl⟩
theorem RoundTrip.blit16Repinv : RoundTrip.Statement .blit16Repinv := ⟨rfl, rfl⟩
theorem RoundTrip.blit32Or : RoundTrip.Statement .blit32Or := ⟨rfl, rfl⟩
theorem RoundTrip.blit32Xor : RoundTrip.Statement .blit32Xor := ⟨rfl, rfl⟩
theorem RoundTrip.blit32Rep : RoundTrip.Statement .blit32Rep := ⟨rfl, rfl⟩
theorem RoundTrip.blit32Repinv : RoundTrip.Statement .blit32Repinv := ⟨rfl, rfl⟩
theorem RoundTrip.alpha8 : RoundTrip.Statement .alpha8 := ⟨rfl, rfl⟩
theorem RoundTrip.alpha16 : RoundTrip.Statement .alpha16 := ⟨rfl, rfl⟩
theorem RoundTrip.alpha32 : RoundTrip.Statement .alpha32 := ⟨rfl, rfl⟩

end Sys2Proof.Laws
end

