-- ==== Sys2Proof/Laws/Words.lean ====
section
/-! SUPPORT. Words on the bus: the addresses and the effect of ReadBE and WriteBE (R16). -/

namespace Sys2Proof.Machine

/-- The addresses of `n` bytes from `a` on. -/
def byteAddrs : (n : Nat) → (a : Addr) → List Addr
  | 0, _ => []
  | n + 1, a => a :: byteAddrs n (a + 1#32)

/-- The value of `n` bytes of memory from `a` on, most significant first, after bytes of value `acc` (R16). -/
def Memory.bytesFrom (m : Memory) : (n : Nat) → (a : Addr) → (acc : Nat) → Nat
  | 0, _, acc => acc
  | n + 1, a, acc => bytesFrom m n (a + 1#32) (acc * 256 + (m.read a).toNat)

/-- Memory with a word's `n` lowest bytes written from `a` on, most significant first (R16). -/
def Memory.writeWord {w : Nat} (m : Memory) : (n : Nat) → (a : Addr) → BitVec w → Memory
  | 0, _, _ => m
  | n + 1, a, v => writeWord (m.write a (v.extractLsb' (8 * n) 8)) n (a + 1#32) v

theorem BusProg.addresses_readBytes (n : Nat) (a : Addr) (acc : Nat) (k : Nat → BusProg) :
    ∃ v, (BusProg.readBytes n a acc k).addresses = byteAddrs n a ++ (k v).addresses := by
  induction n generalizing a acc with
  | zero => exact ⟨acc, rfl⟩
  | succ n ih =>
    obtain ⟨v, hv⟩ := ih (a + 1#32) (acc * 256 + (0#8).toNat)
    exact ⟨v, by simp [readBytes, addresses, byteAddrs, ← hv]⟩

theorem BusProg.addresses_writeBE {w : Nat} (n : Nat) (a : Addr) (v : BitVec w) :
    (BusProg.writeBE n a v).addresses = byteAddrs n a := by
  induction n generalizing a with
  | zero => rfl
  | succ n ih => simp [writeBE, addresses, byteAddrs, ih]

/-- On plain memory, ReadBE goes on with the value of its bytes, and changes nothing but the list of accesses. -/
theorem BusProg.run_readBytes (p : Platform) (n : Nat) (a : Addr) (acc : Nat) (k : Nat → BusProg) (b : Bus)
    (h : ∀ x ∈ byteAddrs n a, p.ordinary x = true) :
    ∃ l, (BusProg.readBytes n a acc k).run p b =
      (k (b.mem.bytesFrom n a acc)).run p { b with log := l ++ b.log } := by
  induction n generalizing a acc b with
  | zero => exact ⟨[], rfl⟩
  | succ n ih =>
    obtain ⟨hc, hd⟩ := (p.ordinary_iff a).mp (h a (by simp [byteAddrs]))
    have hv : b.valueAt p a = b.mem.read a := by simp [Bus.valueAt, hd]
    obtain ⟨l, hl⟩ := ih (a + 1#32) (acc * 256 + (b.mem.read a).toNat) (b.afterRead p a)
      (fun x hx => h x (by simp [byteAddrs, hx]))
    refine ⟨l ++ [.read a (b.mem.read a)], ?_⟩
    simp only [readBytes, run_read p a _ b hc, hv, hl, Memory.bytesFrom]
    simp [Bus.afterRead, hd, hv]

/-- On plain memory, WriteBE writes the word and changes nothing else but the list of accesses. -/
theorem BusProg.run_writeBE (p : Platform) {w : Nat} (n : Nat) (a : Addr) (v : BitVec w) (b : Bus)
    (h : ∀ x ∈ byteAddrs n a, p.ordinary x = true) :
    ∃ l, (BusProg.writeBE n a v).run p b =
      ⟨none, { b with mem := b.mem.writeWord n a v, log := l ++ b.log }⟩ := by
  induction n generalizing a b with
  | zero => exact ⟨[], rfl⟩
  | succ n ih =>
    obtain ⟨hc, hd⟩ := (p.ordinary_iff a).mp (h a (by simp [byteAddrs]))
    obtain ⟨l, hl⟩ := ih (a + 1#32) (b.afterWrite p a (v.extractLsb' (8 * n) 8))
      (fun x hx => h x (by simp [byteAddrs, hx]))
    refine ⟨l ++ [.write a (v.extractLsb' (8 * n) 8)], ?_⟩
    simp only [writeBE, run_write p a _ _ b hc, hl, Memory.writeWord]
    simp [Bus.afterWrite, hd]

end Sys2Proof.Machine
end

