-- ==== Sys2Proof/Tests/Slice0.lean ====
section
/-! SUPPORT. The model's own tests: the vectors of spec/95_test_vectors.md (named in each comment), one step each; the
words of spec/30_encoding.md R65 written out; and the smoke tests of WellFormed. -/

namespace Sys2Proof.Tests

open Sys2Proof Sys2Proof.Machine

/- One theorem after the other: side by side, the many kernel evaluations below hold a thread's stack each. -/
set_option Elab.async false

/-! ### Helpers -/

/-- The next state of an outcome. -/
def nextOf : Host.Outcome State Fault Refusal → Option State
  | .next s => some s
  | .fault _ => none
  | .refused _ => none

/-- The refusal of an outcome. -/
def refusalOf : Host.Outcome State Fault Refusal → Option Refusal
  | .next _ => none
  | .fault _ => none
  | .refused r => some r

/-- The conventions of spec/95: FB_BASE = 0x00010000, BM_BASE = 0x00020000, an earlier error in STATUS. -/
def demo (arg0 arg1 : Word) (mem : Memory) : State :=
  { State.reset with fbBase := 0x00010000#32, bmBase := 0x00020000#32, arg0 := arg0, arg1 := arg1,
                     status := 0x00000011#32, mem := mem }

/-- What a step that issues command word `c` leaves in memory and STATUS. -/
def after (c : Nat) (s : State) : Option (Memory × Word) :=
  (nextOf (step (s.withFetchWord 32 c))).map fun t => (t.mem, t.status)

/-- The platform of spec/95 section 9: `MemOK` false at one address. -/
def refusing (a : Addr) (s : State) : State :=
  { s with platform := { s.platform with refused := [⟨a, a⟩] } }

/-! ### Encoding: the words of R65 -/

theorem test_word_nop : decode 0x00000000#32 = .ok .nop ∧ encode .nop = 0x00000000#32 := by decide
theorem test_word_plot : decode 0x00000001#32 = .ok .plot ∧ encode .plot = 0x00000001#32 := by decide
theorem test_word_hline : decode 0x00000002#32 = .ok .hline ∧ encode .hline = 0x00000002#32 := by decide
theorem test_word_fillrect : decode 0x00000003#32 = .ok .fillrect ∧ encode .fillrect = 0x00000003#32 := by decide
theorem test_word_clearrect : decode 0x00000004#32 = .ok .clearrect ∧ encode .clearrect = 0x00000004#32 := by decide
theorem test_word_blit8Or : decode 0x00000005#32 = .ok .blit8Or ∧ encode .blit8Or = 0x00000005#32 := by decide
theorem test_word_blit8Xor : decode 0x00000085#32 = .ok .blit8Xor ∧ encode .blit8Xor = 0x00000085#32 := by decide
theorem test_word_blit8Rep : decode 0x00000045#32 = .ok .blit8Rep ∧ encode .blit8Rep = 0x00000045#32 := by decide
theorem test_word_blit8Repinv : decode 0x000000C5#32 = .ok .blit8Repinv ∧ encode .blit8Repinv = 0x000000C5#32 := by decide
theorem test_word_blit16Or : decode 0x00000015#32 = .ok .blit16Or ∧ encode .blit16Or = 0x00000015#32 := by decide
theorem test_word_blit16Xor : decode 0x00000095#32 = .ok .blit16Xor ∧ encode .blit16Xor = 0x00000095#32 := by decide
theorem test_word_blit16Rep : decode 0x00000055#32 = .ok .blit16Rep ∧ encode .blit16Rep = 0x00000055#32 := by decide
theorem test_word_blit16Repinv : decode 0x000000D5#32 = .ok .blit16Repinv ∧ encode .blit16Repinv = 0x000000D5#32 := by decide
theorem test_word_blit32Or : decode 0x00000025#32 = .ok .blit32Or ∧ encode .blit32Or = 0x00000025#32 := by decide
theorem test_word_blit32Xor : decode 0x000000A5#32 = .ok .blit32Xor ∧ encode .blit32Xor = 0x000000A5#32 := by decide
theorem test_word_blit32Rep : decode 0x00000065#32 = .ok .blit32Rep ∧ encode .blit32Rep = 0x00000065#32 := by decide
theorem test_word_blit32Repinv : decode 0x000000E5#32 = .ok .blit32Repinv ∧ encode .blit32Repinv = 0x000000E5#32 := by decide
theorem test_word_alpha8 : decode 0x00000006#32 = .ok .alpha8 ∧ encode .alpha8 = 0x00000006#32 := by decide
theorem test_word_alpha16 : decode 0x00000016#32 = .ok .alpha16 ∧ encode .alpha16 = 0x00000016#32 := by decide
theorem test_word_alpha32 : decode 0x00000026#32 = .ok .alpha32 ∧ encode .alpha32 = 0x00000026#32 := by decide

/-! ### Illegal words, with the reason (spec/95 section 2) -/

theorem test_illegal_op7 : decode 0x00000007#32 = .error .reservedOp := by decide
theorem test_illegal_op15 : decode 0x0000000F#32 = .error .reservedOp := by decide
theorem test_illegal_blit_wsel3 : decode 0x00000035#32 = .error .reservedWidth := by decide
theorem test_illegal_alpha_wsel3 : decode 0x00000036#32 = .error .reservedWidth := by decide
theorem test_illegal_plot_wsel1 : decode 0x00000011#32 = .error .fieldsOnPlainOp := by decide
theorem test_illegal_nop_wsel1 : decode 0x00000010#32 = .error .fieldsOnPlainOp := by decide
theorem test_illegal_alpha_destr : decode 0x00000046#32 = .error .flagsOnAlpha := by decide
theorem test_illegal_alpha_inv : decode 0x00000086#32 = .error .flagsOnAlpha := by decide
theorem test_illegal_blit_wsel3_flags : decode 0x000000F5#32 = .error .reservedWidth := by decide
theorem test_illegal_bit8 : decode 0x00000105#32 = .error .reservedBits := by decide
theorem test_illegal_bit31 : decode 0x80000005#32 = .error .reservedBits := by decide

theorem test_table_word : decodeTableWord 32 0xD5 = some .blit16Repinv ∧ decodeTableWord 32 0x35 = none := by decide

/-- R68's example and an illegal word. -/
theorem test_disassemble :
    disassemble 0x000000D5#32 = "BLIT16.REPINV" ∧ disassemble 0x00000035#32 = ".word 0x00000035" := by decide

/-! ### Layout of the registers (R15, R28, R29) -/

theorem test_geom : Config.GEOM = 0x01900280#32 := by decide
theorem test_pack : pack (-5) 10 = 0x000AFFFB#32 ∧ lowHalf 0x000AFFFB#32 = -5 ∧ highHalf 0x000AFFFB#32 = 10 := by
  decide
theorem test_status_words :
    statusWord .ok = 0#32 ∧ statusWord .illegalCmd = 0x11#32 ∧ statusWord .busError = 0x21#32 := by decide

/-! ### WellFormed: what the assembler refuses (R67) -/

theorem test_wf_refuses_coordinate_above : (Stmt.plot 32768 0).wellFormed = false := by decide
theorem test_wf_refuses_coordinate_below : (Stmt.hline 0 (-32769) 0).wellFormed = false := by decide
theorem test_wf_refuses_rect_height : (Stmt.fillrect 0 1 0 40000).wellFormed = false := by decide
theorem test_wf_refuses_clear_length : (Stmt.clearrect 0 40000 0 1).wellFormed = false := by decide
theorem test_wf_refuses_sprite_of_plot : (Stmt.sprite .plot 0 0 1 none).wellFormed = false := by decide
theorem test_wf_refuses_sprite_height : (Stmt.sprite .blit8Or 0 0 32768 none).wellFormed = false := by decide
theorem test_wf_accepts_range_ends : (Stmt.hline (-32768) 32767 399).wellFormed = true := by decide

/-! ### One step per command (spec/95 sections 3 to 7) -/

/-- R72; spec/95 section 8 -/
theorem test_nop :
    after 0x00 (demo 0xDEADBEEF#32 0x00000000#32 [(0x10000, 0x05)]) = some ([(0x10000, 0x05)], 0x00000000#32) := by decide

/-- spec/95 section 3, (639, 399) -/
theorem test_plot_last_pixel :
    after 0x01 (demo 0x0000027F#32 0x0000018F#32 []) = some ([(0x17CFF, 0x01)], 0x00000000#32) := by decide

/-- spec/95 section 3, last row -/
theorem test_plot_ignores_high_halves :
    after 0x01 (demo 0xFFFF0003#32 0x12340000#32 []) = some ([(0x10000, 0x10)], 0x00000000#32) := by decide

/-- S2 -/
theorem test_hline_left_clamped :
    after 0x02 (demo 0x000AFFFB#32 0x00000000#32 []) = some ([(0x10000, 0xFF), (0x10001, 0xE0)], 0x00000000#32) := by decide

/-- spec/95 section 4, 639 to 640 -/
theorem test_hline_endpoint_at_sw :
    after 0x02 (demo 0x0280027F#32 0x00000000#32 []) = some ([(0x1004F, 0x01)], 0x00000000#32) := by decide

/-- F3 -/
theorem test_fillrect_edges :
    after 0x03 (demo 0x00080004#32 0x00020000#32 []) = some ([(0x10000, 0x0F), (0x10001, 0xF0), (0x10050, 0x0F), (0x10051, 0xF0)], 0x00000000#32) := by decide

/-- F5 -/
theorem test_fillrect_negative_origin :
    after 0x03 (demo 0x000AFFFF#32 0x00010000#32 []) = some ([], 0x00000000#32) := by decide

/-- F11 -/
theorem test_clearrect_edges :
    after 0x04 (demo 0x00080004#32 0x00010000#32 [(0x10000, 0xFF), (0x10001, 0xFF)]) = some ([(0x10000, 0xF0), (0x10001, 0x0F)], 0x00000000#32) := by decide

/-- F4, for CLEARRECT -/
theorem test_clearrect_bottom_clamped :
    after 0x04 (demo 0x00080000#32 0x0005018F#32 [(0x17CB0, 0xFF), (0x17D00, 0xFF)]) = some ([(0x17D00, 0xFF)], 0x00000000#32) := by decide

/-- R95 -/
theorem test_blit8Or_split :
    after 0x05 (demo 0x00000003#32 0x00010000#32 [(0x20000, 0xB1)]) = some ([(0x10000, 0x16), (0x10001, 0x20), (0x20000, 0xB1)], 0x00000000#32) := by decide

/-- spec/95 section 6.3, x = -7 -/
theorem test_blit8Or_leftmost :
    after 0x05 (demo 0x0000FFF9#32 0x00010000#32 [(0x20000, 0xB1)]) = some ([(0x10000, 0x80), (0x20000, 0xB1)], 0x00000000#32) := by decide

/-- R96 -/
theorem test_blit8Xor :
    after 0x85 (demo 0x00000003#32 0x00010000#32 [(0x10000, 0xFF), (0x10001, 0xFF), (0x20000, 0xB1)]) = some ([(0x10000, 0xE9), (0x10001, 0xDF), (0x20000, 0xB1)], 0x00000000#32) := by decide

/-- R97 -/
theorem test_blit8Rep :
    after 0x45 (demo 0x00000003#32 0x00010000#32 [(0x10000, 0xFF), (0x10001, 0xFF), (0x20000, 0xB1)]) = some ([(0x10000, 0xF6), (0x10001, 0x3F), (0x20000, 0xB1)], 0x00000000#32) := by decide

/-- spec/95 section 6.3, x = -3 (REP) -/
theorem test_blit8Rep_left :
    after 0x45 (demo 0x0000FFFD#32 0x00010000#32 [(0x10000, 0xFF), (0x20000, 0xB1)]) = some ([(0x10000, 0x8F), (0x20000, 0xB1)], 0x00000000#32) := by decide

/-- R98 -/
theorem test_blit8Repinv :
    after 0xC5 (demo 0x00000003#32 0x00010000#32 [(0x20000, 0xB1)]) = some ([(0x10000, 0x09), (0x10001, 0xC0), (0x20000, 0xB1)], 0x00000000#32) := by decide

/-- R99 -/
theorem test_blit16Or :
    after 0x15 (demo 0x00000004#32 0x00010000#32 [(0x20000, 0x80), (0x20001, 0x01)]) = some ([(0x10000, 0x08), (0x10002, 0x10), (0x20000, 0x80), (0x20001, 0x01)], 0x00000000#32) := by decide

/-- spec/95 section 6.3, W = 16, x = 625 -/
theorem test_blit16Or_right :
    after 0x15 (demo 0x00000271#32 0x00010000#32 [(0x20000, 0x80), (0x20001, 0x01)]) = some ([(0x1004E, 0x40), (0x20000, 0x80), (0x20001, 0x01)], 0x00000000#32) := by decide

/-- R100 -/
theorem test_blit16Xor_left :
    after 0x95 (demo 0x0000FFFC#32 0x00010000#32 [(0x10000, 0xFF), (0x10001, 0xFF), (0x20000, 0x80), (0x20001, 0x01)]) = some ([(0x10000, 0xFF), (0x10001, 0xEF), (0x20000, 0x80), (0x20001, 0x01)], 0x00000000#32) := by decide

/-- R101 -/
theorem test_blit16Rep_right :
    after 0x55 (demo 0x00000274#32 0x00010000#32 [(0x1004E, 0xFF), (0x1004F, 0xFF), (0x20000, 0x80), (0x20001, 0x01)]) = some ([(0x1004E, 0xF8), (0x20000, 0x80), (0x20001, 0x01)], 0x00000000#32) := by decide

/-- R102 -/
theorem test_blit16Repinv :
    after 0xD5 (demo 0x00000000#32 0x00010000#32 [(0x10000, 0x12), (0x10001, 0x34), (0x20001, 0xFF)]) = some ([(0x10000, 0xFF), (0x20001, 0xFF)], 0x00000000#32) := by decide

/-- P3: REPINV clipped at the top left corner, two rows drawn. -/
theorem test_blit16Repinv_corner :
    after 0xD5 (demo 0x0000FFFC#32 0x0003FFFF#32
        [(0x20000, 0xFF), (0x20001, 0xFF), (0x20002, 0x80), (0x20003, 0x01), (0x20004, 0xC0), (0x20005, 0x03)]) =
      some ([(0x10000, 0xFF), (0x10001, 0xE0), (0x10050, 0xFF), (0x10051, 0xC0),
        (0x20000, 0xFF), (0x20001, 0xFF), (0x20002, 0x80), (0x20003, 0x01), (0x20004, 0xC0), (0x20005, 0x03)],
        0x00000000#32) := by decide

/-- R103 -/
theorem test_blit32Or_left :
    after 0x25 (demo 0x0000FFFF#32 0x00010000#32 [(0x20000, 0x80), (0x20003, 0x01)]) = some ([(0x10003, 0x02), (0x20000, 0x80), (0x20003, 0x01)], 0x00000000#32) := by decide

/-- spec/95 section 6.3, W = 32, x = 31 -/
theorem test_blit32Or_widest_split :
    after 0x25 (demo 0x0000001F#32 0x00010000#32 [(0x20000, 0xFF), (0x20001, 0xFF), (0x20002, 0xFF), (0x20003, 0xFF)]) = some ([(0x10003, 0x01), (0x10004, 0xFF), (0x10005, 0xFF), (0x10006, 0xFF), (0x10007, 0xFE), (0x20000, 0xFF), (0x20001, 0xFF), (0x20002, 0xFF), (0x20003, 0xFF)], 0x00000000#32) := by decide

/-- R104 -/
theorem test_blit32Xor_right :
    after 0xA5 (demo 0x00000261#32 0x00010000#32 [(0x1004C, 0xFF), (0x1004D, 0xFF), (0x1004E, 0xFF), (0x1004F, 0xFF), (0x20000, 0x80), (0x20003, 0x01)]) = some ([(0x1004C, 0xBF), (0x1004D, 0xFF), (0x1004E, 0xFF), (0x1004F, 0xFF), (0x20000, 0x80), (0x20003, 0x01)], 0x00000000#32) := by decide

/-- R105 -/
theorem test_blit32Rep :
    after 0x65 (demo 0x00000028#32 0x00010000#32 [(0x10004, 0xFF), (0x10005, 0xFF), (0x10006, 0xFF), (0x10007, 0xFF), (0x10008, 0xFF), (0x10009, 0xFF), (0x1000A, 0xFF), (0x1000B, 0xFF), (0x20000, 0xFF), (0x20003, 0xFF)]) = some ([(0x10004, 0xFF), (0x10005, 0xFF), (0x10008, 0xFF), (0x10009, 0xFF), (0x1000A, 0xFF), (0x1000B, 0xFF), (0x20000, 0xFF), (0x20003, 0xFF)], 0x00000000#32) := by decide

/-- R106 -/
theorem test_blit32Repinv :
    after 0xE5 (demo 0x00000028#32 0x00010000#32 [(0x20000, 0xFF), (0x20003, 0xFF)]) = some ([(0x10006, 0xFF), (0x10007, 0xFF), (0x20000, 0xFF), (0x20003, 0xFF)], 0x00000000#32) := by decide

/-- R107 -/
theorem test_alpha8 :
    after 0x06 (demo 0x00000003#32 0x00010000#32 [(0x10000, 0xFF), (0x10001, 0xFF), (0x20000, 0xB1)]) = some ([(0x10000, 0xE9), (0x10001, 0xDF), (0x20000, 0xB1)], 0x00000000#32) := by decide

/-- R108 -/
theorem test_alpha16_top_clipped :
    after 0x16 (demo 0x00000000#32 0x0002FFFF#32 [(0x10000, 0xFF), (0x10001, 0xFF), (0x20000, 0xFF), (0x20001, 0xFF), (0x20002, 0x0F), (0x20003, 0xF0)]) = some ([(0x10000, 0xF0), (0x10001, 0x0F), (0x20000, 0xFF), (0x20001, 0xFF), (0x20002, 0x0F), (0x20003, 0xF0)], 0x00000000#32) := by decide

/-- R109 -/
theorem test_alpha32 :
    after 0x26 (demo 0x0000001A#32 0x00010000#32 [(0x10000, 0xFF), (0x10001, 0xFF), (0x10002, 0xFF), (0x10003, 0xFF), (0x10004, 0xFF), (0x10005, 0xFF), (0x10006, 0xFF), (0x10007, 0xFF), (0x20000, 0x0F), (0x20001, 0xF0)]) = some ([(0x10000, 0xFF), (0x10001, 0xFF), (0x10002, 0xFF), (0x10003, 0xFC), (0x10004, 0x03), (0x10005, 0xFF), (0x10006, 0xFF), (0x10007, 0xFF), (0x20000, 0x0F), (0x20001, 0xF0)], 0x00000000#32) := by decide

/-- spec/95 section 6.4, y = -4, h = 5 -/
theorem test_blit8Or_vertical_clip :
    after 0x05 (demo 0x00000000#32 0x0005FFFC#32 [(0x20000, 0x01), (0x20001, 0x02), (0x20002, 0x04), (0x20003, 0x08), (0x20004, 0x10)]) = some ([(0x10000, 0x10), (0x20000, 0x01), (0x20001, 0x02), (0x20002, 0x04), (0x20003, 0x08), (0x20004, 0x10)], 0x00000000#32) := by decide

/-! ### Errors (R119, R120; spec/95 section 9) -/

/-- spec/95 section 8: the illegal word stays in CMD, STATUS = 0x00000011. -/
theorem test_illegal_command :
    (nextOf (step ((demo 0#32 0#32 []).withFetchWord 32 0x35))).map (fun t => (t.cmd, t.status)) =
      some (0x00000035#32, 0x00000011#32) := by decide

/-- B1: the byte before the refused one stays written. -/
theorem test_bus_error_hline :
    after 0x02 (refusing 0x00010001#32 (demo 0x000F0000#32 0#32 [])) = some ([(0x10000, 0xFF)], 0x00000021#32) := by
  decide

/-- B2: the first target word is written, the second is not read. -/
theorem test_bus_error_blit16 :
    after 0x15 (refusing 0x00010002#32 (demo 0x00000004#32 0x00010000#32 [(0x20000, 0x80), (0x20001, 0x01)])) =
      some ([(0x10000, 0x08), (0x20000, 0x80), (0x20001, 0x01)], 0x00000021#32) := by decide

/-- B5: a no-op makes no access, so none is refused. -/
theorem test_no_op_meets_no_bus_error :
    after 0x01 (refusing 0x00010000#32 (demo 0x0000FFFF#32 0#32 [])) = some ([], 0x00000000#32) := by decide

/-- U7: a block access to the window is refused by name. -/
theorem test_own_window_refused :
    refusalOf (step (({ demo 0#32 0#32 [] with fbBase := 0xFFFFFFF0#32 } : State).withFetchWord 32 0x01)) =
      some (.blockAccessToOwnWindow 0xFFFFFFF0#32) := by decide

/-- U6: a byte access to the window is refused by name. -/
theorem test_byte_access_refused :
    refusalOf (step { demo 0#32 0#32 [] with host := [.regWrite 0x08#5 .byte 1#32] }) =
      some .hostAccessNotAligned32 := by decide

/-! ### The order of accesses (spec/95 section 6.2) -/

theorem test_access_trace :
    ((program .blit8Or (demo 0x00000003#32 0x00010000#32 [(0x20000, 0xB1)]).operands).run Platform.reference
        (demo 0x00000003#32 0x00010000#32 [(0x20000, 0xB1)]).bus).performed =
      [.read 0x00020000#32 0xB1#8, .read 0x00010000#32 0x00#8, .write 0x00010000#32 0x16#8,
       .read 0x00010001#32 0x00#8, .write 0x00010001#32 0x20#8] := by decide

/-- U16, R141: bitmap row 1 lies in the framebuffer byte that row 0 wrote. -/
theorem test_overlap_reads_written_row :
    (after 0x05 ({ demo 0#32 0x00020000#32 [(0x0FFFF, 0x0F), (0x10000, 0x30)] with bmBase := 0x0000FFFF#32 })) =
      some ([(0x0FFFF, 0x0F), (0x10000, 0x3F), (0x10050, 0x3F)], 0x00000000#32) := by decide

/-! ### Host programs (R66, R67) -/

/-- The text of P5's last lines, with a comment and a pseudo-instruction. -/
theorem test_assemble_text :
    assembleText "W CMD, 0x00000046 ; illegal\nR STATUS\n\nHLINE -5, 10, 2".toList =
      some [.regWrite 0x10#5 .word 0x00000046#32, .regRead 0x14#5 .word,
        .regWrite 0x08#5 .word 0x000AFFFB#32, .regWrite 0x0C#5 .word 0x00000002#32,
        .regWrite 0x10#5 .word 0x00000002#32] := by decide

/-- R67: the bitmap operand of a sprite. -/
theorem test_assemble_sprite :
    assembleText "BLIT32.OR 26, 0, 2, 0x00020100".toList =
      some [.regWrite 0x04#5 .word 0x00020100#32, .regWrite 0x08#5 .word 0x0000001A#32,
        .regWrite 0x0C#5 .word 0x00020000#32, .regWrite 0x10#5 .word 0x00000025#32] := by decide

/-! ### Witnesses: for each statement with hypotheses, states and operands that meet all of them together -/

/-- A command that may make every access, from the list of its addresses. -/
theorem allows_of_all {s : State} {i : Instr}
    (h : ((program i s.operands).addresses.all fun a => s.platform.ordinary a) = true) : s.allows i :=
  List.all_eq_true.mp h

/-- A Boolean or any other decidable value that every address of a list has. -/
theorem forall_of_all {α β : Type} [DecidableEq β] {f : α → β} {v : β} {l : List α}
    (h : (l.all fun a => decide (f a = v)) = true) : ∀ a ∈ l, f a = v :=
  fun a ha => of_decide_eq_true (List.all_eq_true.mp h a ha)

/-- A state with one pending host access. -/
def pending (s : State) (a : HostAccess) : State := { s with host := [a] }

/-- A sprite at (3, 0) of height 1, with bitmap row B1. -/
def spriteState : State := demo 0x00000003#32 0x00010000#32 [(0x20000, 0xB1)]

/-- Endpoints 3 and 12 of row 1, or a rectangle of length 12 and height 2 at (3, 1). -/
def spanState : State := demo 0x000C0003#32 0x00020001#32 [(0x10050, 0x80), (0x10051, 0x01)]

theorem witness_LegalityRuleSelectsTheTwentyWords :
    legal 0x00000100#32 = false ∧ (pending spanState (cmdWrite 0x00000100#32)).host = [cmdWrite 0x00000100#32] := by
  decide +kernel

theorem witness_DecodeAndEncodeAreInverse :
    Instr.wellFormed .alpha32 = true ∧ decode 0x00000026#32 = .ok .alpha32 := by decide +kernel

theorem witness_IllegalCommandChangesCmdAndStatusOnly :
    legal 0x00000035#32 = false ∧ (pending spanState (cmdWrite 0x00000035#32)).host = [cmdWrite 0x00000035#32] := by
  decide +kernel

theorem witness_StepRunsTheIssuedCommand :
    decode 0x00000095#32 = .ok .blit16Xor ∧ Instr.wellFormed .blit16Xor = true ∧
      (pending spriteState (cmdWrite 0x00000095#32)).host = [cmdWrite 0x00000095#32] := by decide +kernel

theorem witness_IdleStepKeepsEverything : spanState.host = [] := by decide +kernel

theorem witness_HostReadsGiveTheRegisters :
    ((0x08#5, (0x000C0003#32 : Word)) ∈
      [(0x00#5, spanState.fbBase), (0x04#5, spanState.bmBase), (0x08#5, spanState.arg0), (0x0C#5, spanState.arg1),
       (0x10#5, spanState.cmd), (0x14#5, spanState.status), (0x18#5, 0x01900280#32), (0x1C#5, 0x00000000#32)]) ∧
      (pending spanState (.regRead 0x08#5 .word)).host = [.regRead 0x08#5 .word] := by decide +kernel

theorem witness_HostWritesStoreTheOperandRegisters :
    (∀ off ∈ [0x00#5, 0x04#5, 0x08#5, 0x0C#5, 0x14#5, 0x18#5, 0x1C#5],
      (pending spanState (.regWrite off .word 0xDEADBEEF#32)).host = [.regWrite off .word 0xDEADBEEF#32]) := by decide +kernel

theorem witness_GeomAndReservedOffsetAreHardWired :
    (0x18#5 ∈ [0x18#5, 0x1C#5]) ∧ (0x1C#5 ∈ [0x18#5, 0x1C#5]) ∧
      (pending spanState (.regWrite 0x18#5 .word 7#32)).host = [.regWrite 0x18#5 .word 7#32] ∧
      (pending spanState (.regRead 0x1C#5 .word)).host = [.regRead 0x1C#5 .word] := by decide +kernel

theorem witness_NarrowOrMisalignedHostAccessIsRefused :
    (AccessWidth.half ≠ .word ∧ (0x1F#5).toNat % 4 ≠ 0) ∧
      (pending spanState (.regRead 0x08#5 .half)).host = [.regRead 0x08#5 .half] ∧
      (pending spanState (.regWrite 0x1F#5 .word 1#32)).host = [.regWrite 0x1F#5 .word 1#32] ∧
    (spanState.platform.inWindow 0xFFFFFFE0#32 = true ∧ spanState.platform.inWindow 0xFFFFFFFF#32 = true) ∧
      (pending spanState (.memRead 0xFFFFFFE0#32)).host = [.memRead 0xFFFFFFE0#32] ∧
      (pending spanState (.memWrite 0xFFFFFFFF#32 1#8)).host = [.memWrite 0xFFFFFFFF#32 1#8] ∧
      (pending spanState (.contendedCmd 0#32 [(0xFFFFFFE0#32, 1#8)])).host =
        [.contendedCmd 0#32 [(0xFFFFFFE0#32, 1#8)]] ∧
      (pending spanState (.resetDuringCmd 0#32 [(0xFFFFFFFF#32, 1#8)])).host =
        [.resetDuringCmd 0#32 [(0xFFFFFFFF#32, 1#8)]] := by decide +kernel

theorem witness_ResetLeavesTheResetValues : (pending spanState .reset).host = [.reset] := by decide +kernel

theorem witness_ResetTouchesNothingElse : (pending spanState .reset).host = [.reset] := by decide +kernel

theorem witness_ResetDuringCommandLeavesAPrefix :
    decode 0x00000002#32 = .ok .hline ∧
      (pending spanState (.resetDuringCmd 0x00000002#32 [])).host = [.resetDuringCmd 0x00000002#32 []] ∧
      (program .hline spanState.operands).addresses ≠ [] ∧
      ∀ a ∈ (program .hline spanState.operands).addresses, spanState.platform.inWindow a = false :=
  ⟨rfl, rfl, by decide +kernel, forall_of_all (by decide +kernel)⟩

theorem witness_ContendedCommandSparesOtherBytes :
    decode 0x00000002#32 = .ok .hline ∧ spanState.platform.device = [] ∧
      (pending spanState (.contendedCmd 0x00000002#32 [(0x00010051#32, 7#8), (0x00030000#32, 9#8)])).host =
        [.contendedCmd 0x00000002#32 [(0x00010051#32, 7#8), (0x00030000#32, 9#8)]] ∧
      (∀ a ∈ (program .hline spanState.operands).addresses, spanState.platform.inWindow a = false) ∧
      (∀ o ∈ [((0x00010051#32 : Addr), 7#8), (0x00030000#32, 9#8)], spanState.platform.inWindow o.1 = false) ∧
      (0x00030000#32 : Addr) ∉ (program .hline spanState.operands).addresses :=
  ⟨rfl, rfl, rfl, forall_of_all (by decide +kernel), forall_of_all (by decide +kernel), by decide +kernel⟩

theorem witness_HostMemoryAccessesAreSeen :
    spanState.platform.inWindow 0xFFFFFFDF#32 = false ∧ spanState.platform.isDevice 0xFFFFFFDF#32 = false ∧
      (pending spanState (.memWrite 0xFFFFFFDF#32 5#8)).host = [.memWrite 0xFFFFFFDF#32 5#8] ∧
      (pending spanState (.memRead 0xFFFFFFDF#32)).host = [.memRead 0xFFFFFFDF#32] := by decide +kernel

/-- Off screen at x = 640 and y = -1; on screen at (639, 399) with a plain byte; refused at (0, 0). -/
theorem witness_PlotOrsOnePixel :
    lowHalf (demo 0x00000280#32 0#32 []).arg0 ≥ 640 ∧ lowHalf (demo 0#32 0x0000FFFF#32 []).arg1 < 0 ∧
      onScreen (lowHalf 0x0000027F#32) (lowHalf 0x0000018F#32) = true ∧
      (demo 0x0000027F#32 0x0000018F#32 []).platform.ordinary (fbByteAddr 0x00010000#32 399 79) = true ∧
      (refusing 0x00010000#32 (demo 0#32 0#32 [])).platform.inWindow (fbByteAddr 0x00010000#32 0 0) = false ∧
      (refusing 0x00010000#32 (demo 0#32 0#32 [])).platform.memOK (fbByteAddr 0x00010000#32 0 0) = false := by decide +kernel

theorem witness_SpanCommandsDrawTheirFootprint :
    spanState.allows .plot ∧ spanState.allows .hline ∧ spanState.allows .fillrect ∧ spanState.allows .clearrect ∧
      footprint .plot spanState.operands 3 1 = true ∧ footprint .hline spanState.operands 12 1 = true ∧
      footprint .fillrect spanState.operands 14 2 = true ∧ footprint .clearrect spanState.operands 15 2 = false :=
  ⟨allows_of_all (by decide +kernel), allows_of_all (by decide +kernel), allows_of_all (by decide +kernel),
    allows_of_all (by decide +kernel), by decide +kernel⟩

theorem witness_HlineIsSymmetricInItsEndpoints : ∃ t, exec .hline spanState = .next t := ⟨_, rfl⟩

/-- The end of each range nearest the screen: x = 640 and -1, y = 400 and -1, length and height 0; both endpoints
of HLINE at or beyond 640, and both at -1. -/
theorem witness_RectanglesAndLinesOffScreenAreNoOps :
    lowHalf (demo 0x02BC0280#32 0x00010000#32 []).arg0 ≥ 640 ∧
      highHalf (demo 0x02BC0280#32 0x00010000#32 []).arg0 ≥ 640 ∧
      (lowHalf (demo 0xFFFFFFFF#32 0#32 []).arg0 < 0 ∧ highHalf (demo 0xFFFFFFFF#32 0#32 []).arg0 < 0) ∧
      highHalf (demo 0#32 0x00010000#32 []).arg0 < 1 ∧ highHalf (demo 0x00010000#32 0#32 []).arg1 < 1 ∧
      lowHalf (demo 0#32 0x00000190#32 []).arg1 ≥ 400 ∧ lowHalf (demo 0#32 0x0000FFFF#32 []).arg1 < 0 := by
  decide +kernel

theorem witness_FillThenClearAndClearThenFill : spanState.allows .fillrect :=
  allows_of_all (by decide +kernel)

theorem witness_SpanCommandsAreIdempotent :
    (Instr.clearrect ∈ [Instr.plot, .hline, .fillrect, .clearrect]) ∧ spanState.allows .clearrect :=
  ⟨by decide +kernel, allows_of_all (by decide +kernel)⟩

/-- The first, an interior and the last byte of the span 3 to 636. -/
theorem witness_SpanMaskCoversTheSpan :
    (3 ≤ 636 ∧ 636 < 640) ∧ (3 / 8 ≤ 0 ∧ 0 < 636 / 8) ∧ (3 / 8 < 1 ∧ 1 < 636 / 8) ∧ (3 / 8 < 79 ∧ 79 ≤ 636 / 8) := by
  decide +kernel

/-- The ends of the no-op ranges, one each. -/
theorem witness_SpritesOffScreenAreNoOps :
    spriteKind .blit16Rep = some (.w16, .rep) ∧ highHalf (demo 0#32 0#32 []).arg1 ≤ 0 ∧
      lowHalf (demo 0#32 0x00010190#32 []).arg1 ≥ 400 ∧
      lowHalf (demo 0#32 0x0004FFFC#32 []).arg1 + highHalf (demo 0#32 0x0004FFFC#32 []).arg1 - 1 < 0 ∧
      lowHalf (demo 0x0000FFF0#32 0x00010000#32 []).arg0 ≤ -(wordBits .w16 : Int) ∧
      lowHalf (demo 0x00000280#32 0x00010000#32 []).arg0 ≥ 640 := by decide +kernel

/-- The bitmap of spec/95 is apart from its framebuffer, at every width and for a sprite of one row. -/
theorem spriteState_apart (w : WordWidth) : bitmapApart w spriteState.operands := by
  cases w <;> (unfold bitmapApart; decide +kernel)

theorem witness_SpriteCommandsDrawTheirPixels :
    spriteKind .blit8Or = some (.w8, .or) ∧ spriteState.allows .blit8Or ∧ bitmapApart .w8 spriteState.operands ∧
      footprint .blit8Or spriteState.operands 10 0 = true :=
  ⟨rfl, allows_of_all (by decide +kernel), spriteState_apart .w8, rfl⟩

/-- A bitmap that overlaps the framebuffer: two rows, the second in byte 0 of row 0. -/
theorem witness_SpritePixelsFromRowsAsRead :
    let s := { demo 0#32 0x00020000#32 [(0x0FFFF, 0x0F)] with bmBase := 0x0000FFFF#32 }
    spriteKind .blit8Or = some (.w8, .or) ∧ s.allows .blit8Or ∧
      lowHalf s.arg1 ≤ 1 ∧ (1 : Int) < lowHalf s.arg1 + highHalf s.arg1 ∧
      footprint .blit8Or s.operands 7 1 = true :=
  ⟨rfl, allows_of_all (by decide +kernel), by decide +kernel, by decide +kernel, by decide +kernel⟩

theorem witness_SpriteRowsComposeOneByOne :
    lowHalf spriteState.arg1 + 1 ≤ 32767 ∧ ∃ u v,
      exec .blit8Or { spriteState with arg1 := pack (lowHalf spriteState.arg1) (1 : Nat) } = .next u ∧
      u.status = 0x00000000#32 ∧
      exec .blit8Or { u with arg1 := pack (lowHalf spriteState.arg1 + (1 : Nat)) 1,
                             bmBase := spriteState.bmBase + BitVec.ofNat 32 (1 * wordBytes .w8) } = .next v :=
  ⟨by decide +kernel, _, _, rfl, rfl, rfl⟩

/-- The three regimes, at the ends of their ranges (spec/95 section 6.3). -/
theorem witness_TargetMasksCoverTheFootprint :
    hclip (-7) .w8 = some (.left 7) ∧ hclip 0 .w8 = some (.full 0 0) ∧ hclip 632 .w8 = some (.full 79 0) ∧
      hclip 31 .w32 = some (.full 0 31) ∧ hclip 633 .w8 = some (.right 1) ∧ hclip 639 .w8 = some (.right 7) := by decide +kernel

theorem witness_ClipSymmetryAtBothEdges : 0 < 1 ∧ 1 < wordBits .w8 ∧ 31 < wordBits .w32 := by decide +kernel

/-- The framebuffer of `spriteState` is all 0. -/
theorem spriteState_blank (X r : Nat) (hX : X < 640) (hr : r < 400) :
    spriteState.mem.pixel spriteState.fbBase X r = false := by
  have h : (fbByteAddr spriteState.fbBase r (X / 8)).toNat ≠ 0x20000 := by
    have e : (fbByteAddr spriteState.fbBase r (X / 8)).toNat = (65536 + (r * 80 + X / 8) % 2 ^ 32) % 2 ^ 32 := by
      simp only [fbByteAddr, BitVec.toNat_add, BitVec.toNat_ofNat]
      rfl
    rw [e]
    have : r * 80 + X / 8 < 32000 := by omega
    omega
  simp only [Memory.pixel, Memory.read]
  have e : spriteState.mem = [(0x20000, 0xB1#8)] := rfl
  rw [e]
  simp [Memory.readAt, h, Memory.unlisted]

theorem witness_ReplaceEqualsOverlayOnBlankFootprint :
    (spriteKind .blit8Rep = some (.w8, .rep) ∧ spriteKind .blit8Or = some (.w8, .or) ∧
      spriteKind .blit8Repinv = some (.w8, .repinv) ∧ spriteKind .blit8Xor = some (.w8, .xor)) ∧
      spriteState.allows .blit8Rep ∧
      (∀ X : Nat, X < 640 → ∀ r : Nat, r < 400 → footprint .blit8Rep spriteState.operands X r = true →
        spriteState.mem.pixel spriteState.fbBase X r = false) ∧
      bitmapApart .w8 spriteState.operands :=
  ⟨by decide +kernel, allows_of_all (by decide +kernel), fun X hX r hr _ => spriteState_blank X r hX hr,
    spriteState_apart .w8⟩

theorem witness_SplitWordsMoveThePixelsRight :
    spriteKind .blit8Repinv = some (.w8, .repinv) ∧ 0 ≤ lowHalf spriteState.arg0 ∧
      lowHalf spriteState.arg0 ≤ 640 - (wordBits .w8 : Int) ∧ lowHalf spriteState.arg0 % (wordBits .w8 : Int) ≠ 0 ∧
      spriteState.allows .blit8Repinv ∧
      ({ spriteState with arg0 := pack (lowHalf spriteState.arg0 - 3) (highHalf spriteState.arg0) } : State).allows
        .blit8Repinv ∧
      bitmapApart .w8 spriteState.operands := by
  refine ⟨rfl, by decide +kernel, by decide +kernel, by decide +kernel, ?_, ?_, spriteState_apart .w8⟩ <;>
    exact allows_of_all (by decide +kernel)

theorem witness_RepeatedSpriteCommands :
    (spriteKind .blit32Xor = some (.w32, .xor) ∧ spriteState.allows .blit32Xor) ∧
      (spriteKind .alpha32 = some (.w32, .alpha) ∧ spriteState.allows .alpha32) ∧
      bitmapApart .w32 spriteState.operands := by
  refine ⟨⟨rfl, ?_⟩, ⟨rfl, ?_⟩, spriteState_apart .w32⟩ <;> exact allows_of_all (by decide +kernel)

theorem witness_MaskThenOverlay :
    spriteKind .alpha8 = some (.w8, .alpha) ∧ spriteKind .blit8Or = some (.w8, .or) ∧ spriteState.allows .alpha8 ∧
      ({ spriteState with bmBase := 0x00020100#32 } : State).allows .blit8Or ∧
      bitmapApart .w8 spriteState.operands ∧ bitmapApart .w8 { spriteState.operands with bm := 0x00020100#32 } := by
  refine ⟨rfl, rfl, ?_, ?_, spriteState_apart .w8, ?_⟩
  · exact allows_of_all (by decide +kernel)
  · exact allows_of_all (by decide +kernel)
  · unfold bitmapApart; decide +kernel

theorem witness_WordViewNamesTheSamePixels :
    399 < 400 ∧ 19 < 640 / wordBits .w32 ∧ ∀ n < wordBytes .w32,
      Platform.reference.ordinary (fbWordAddr .w32 0x00010000#32 399 19 + BitVec.ofNat 32 n) = true := by decide +kernel

/-- A command that completes and one that ends with BUS_ERROR. -/
theorem witness_NoCommandWritesOutsideItsFootprint :
    (∃ t, exec .blit8Xor spriteState = .next t ∧ t.status = 0x00000000#32) ∧
      ∃ t, exec .hline (refusing 0x00010051#32 spanState) = .next t ∧ t.status = 0x00000021#32 :=
  ⟨⟨_, rfl, rfl⟩, ⟨_, rfl, rfl⟩⟩

theorem witness_PermittedCommandCompletes :
    (program .alpha8 spriteState.operands).addresses ≠ [] ∧
      ∀ a ∈ (program .alpha8 spriteState.operands).addresses, spriteState.platform.check a = none :=
  ⟨by decide +kernel, forall_of_all (by decide +kernel)⟩

theorem witness_BusErrorStopsAtTheFirstRefusedAccess :
    let s := refusing 0x00010051#32 spanState
    (program .hline s.operands).addresses =
        [0x00010050#32, 0x00010050#32] ++ 0x00010051#32 :: [0x00010051#32] ∧
      (∀ x ∈ [(0x00010050#32 : Addr), 0x00010050#32], s.platform.check x = none) ∧
      s.platform.check 0x00010051#32 = some .refused :=
  ⟨by decide +kernel, forall_of_all (by decide +kernel), by decide +kernel⟩

/-- PLOT refused at its only byte, and a sprite refused at its second target word, after it has written the first. -/
theorem witness_RefusedAccessOfAWordIsARead :
    (let s := refusing 0x00010000#32 (demo 0#32 0#32 [])
     (program .plot s.operands).addresses = [] ++ 0x00010000#32 :: [0x00010000#32] ∧
       s.platform.check 0x00010000#32 = some .refused) ∧
    let s := refusing 0x00010001#32 spriteState
    (Instr.blit8Or = .plot ∨ (spriteKind .blit8Or).isSome = true) ∧
      (program .blit8Or s.operands).addresses =
        [0x00020000#32, 0x00010000#32, 0x00010000#32] ++ 0x00010001#32 :: [0x00010001#32] ∧
      (∀ x ∈ [(0x00020000#32 : Addr), 0x00010000#32, 0x00010000#32], s.platform.check x = none) ∧
      s.platform.check 0x00010001#32 = some .refused :=
  ⟨by decide +kernel, .inr rfl, by decide +kernel, forall_of_all (by decide +kernel), by decide +kernel⟩

theorem witness_ReferencePlatformMeetsNoBusError :
    (∀ a, spriteState.platform.memOK a = true) ∧ ∃ t, exec .blit8Rep spriteState = .next t := ⟨fun _ => rfl, _, rfl⟩

theorem witness_OwnWindowAccessIsRefused :
    let s := { demo 0#32 0#32 [] with fbBase := 0xFFFFFFF0#32 }
    (program .plot s.operands).addresses = [] ++ 0xFFFFFFF0#32 :: [0xFFFFFFF0#32] ∧
      s.platform.inWindow 0xFFFFFFF0#32 = true := by decide +kernel

theorem witness_SpriteAccessOrder :
    spriteKind .blit8Or = some (.w8, .or) ∧ 0 < spriteState.operands.h ∧ spriteState.operands.y < 400 ∧
      0 < spriteState.operands.y + spriteState.operands.h ∧ -(wordBits .w8 : Int) < spriteState.operands.x ∧
      spriteState.operands.x < 640 := by decide +kernel

/-- HLINE, FILLRECT and a sprite that draw, every access permitted. -/
theorem witness_AccessCountsOfTheCommands :
    (0 ≤ spanState.operands.y ∧ spanState.operands.y < 400 ∧ 0 ≤ max spanState.operands.x spanState.operands.x2 ∧
      min spanState.operands.x spanState.operands.x2 < 640) ∧
    (0 ≤ spanState.operands.x ∧ spanState.operands.x < 640 ∧ 1 ≤ spanState.operands.x2 ∧
      1 ≤ spanState.operands.h) ∧
    (spriteKind .alpha16 = some (.w16, .alpha) ∧ 0 < spriteState.operands.h ∧ spriteState.operands.y < 400 ∧
      0 < spriteState.operands.y + spriteState.operands.h ∧ -(wordBits .w16 : Int) < spriteState.operands.x ∧
      spriteState.operands.x < 640) ∧
    (∀ a ∈ (program .hline spanState.operands).addresses, spanState.platform.check a = none) ∧
    (∀ a ∈ (program .fillrect spanState.operands).addresses, spanState.platform.check a = none) ∧
    ∀ a ∈ (program .alpha16 spriteState.operands).addresses, spriteState.platform.check a = none :=
  ⟨by decide +kernel, by decide +kernel, by decide +kernel, forall_of_all (by decide +kernel),
    forall_of_all (by decide +kernel), forall_of_all (by decide +kernel)⟩

/-- Two states that differ in BM_BASE, in the halves PLOT does not read, in CMD and in STATUS. -/
theorem witness_UnreadOperandsDoNotMatter :
    let s' := { spanState with bmBase := 1#32, arg0 := 0xFFFF0003#32, arg1 := 0x12340001#32, cmd := 1#32,
                               status := 0#32 }
    sameReads .plot spanState s' ∧ spanState.mem = s'.mem ∧ spanState.platform = s'.platform ∧
      spanState.draws = s'.draws ∧ ∃ t, exec .plot spanState = .next t :=
  ⟨⟨rfl, by decide +kernel, by decide +kernel⟩, rfl, rfl, rfl, _, rfl⟩

theorem witness_RegistersKeepTheirValues :
    (pending spanState (.regWrite 0x08#5 .word 5#32)).host = [.regWrite 0x08#5 .word 5#32] ∧
      ∃ t, step (pending spanState (.regWrite 0x08#5 .word 5#32)) = .next t ∧ t.arg0 = 5#32 := ⟨rfl, _, rfl, rfl⟩

/-- An earlier illegal command in CMD and STATUS, ink in memory, and a drawing command next. -/
theorem witness_StepKeepsTheInvariant :
    let s := pending { spriteState with cmd := 0x00000035#32 } (cmdWrite 0x00000005#32)
    s.Inv ∧ ∃ t, step s = .next t :=
  ⟨⟨by decide +kernel, by decide +kernel, by decide +kernel, by decide +kernel⟩, _, rfl⟩

theorem witness_PseudoInstructionsSetTheOperands :
    (Stmt.coordinateOk (-32768) = true ∧ Stmt.coordinateOk 32767 = true ∧ Stmt.coordinateOk 0 = true) ∧
      (Stmt.plot (-32768) 0, Instr.plot, (0 : Int), (0 : Int)) ∈
        [(Stmt.plot (-32768) 0, Instr.plot, (0 : Int), (0 : Int)), (.hline (-32768) 32767 0, .hline, 32767, 0),
         (.fillrect (-32768) 32767 0 1, .fillrect, 32767, 1), (.clearrect (-32768) 32767 0 1, .clearrect, 32767, 1)] ∧
      ({ spanState with host := expand (.plot (-32768) 0) ++ [] } : State).host = expand (.plot (-32768) 0) ++ [] ∧
      Instr.isSprite .alpha8 = true ∧
      ({ spanState with host := expand (.sprite .alpha8 0 0 1 (some 7#32)) ++ [] } : State).host =
        expand (.sprite .alpha8 0 0 1 (some 7#32)) ++ [] := by decide +kernel

theorem witness_DisassemblerNamesEveryWord :
    decode 0x000000D5#32 = .ok .blit16Repinv ∧ legal 0x00000035#32 = false ∧ legal 0x000000D5#32 = true := by decide +kernel

/-- An illegal word, a foreign write at the last address below the window. -/
theorem witness_IllegalWordInADisturbedWriteMakesNoAccess :
    legal 0x00000035#32 = false ∧
      (∀ o ∈ [((0xFFFFFFDF#32 : Addr), 7#8)], spanState.platform.inWindow o.1 = false) ∧
      (pending spanState (.contendedCmd 0x00000035#32 [(0xFFFFFFDF#32, 7#8)])).host =
        [.contendedCmd 0x00000035#32 [(0xFFFFFFDF#32, 7#8)]] ∧
      (pending spanState (.resetDuringCmd 0x00000035#32 [(0xFFFFFFDF#32, 7#8)])).host =
        [.resetDuringCmd 0x00000035#32 [(0xFFFFFFDF#32, 7#8)]] :=
  ⟨rfl, forall_of_all (by decide +kernel), rfl, rfl⟩

/-- A foreign write to a byte that HLINE reads and writes. -/
theorem witness_DisturbedCommandsAreInterleavings :
    decode 0x00000002#32 = .ok .hline ∧
      (∀ a ∈ (program .hline spanState.operands).addresses, spanState.platform.inWindow a = false) ∧
      (∀ o ∈ [((0x00010050#32 : Addr), 7#8)], spanState.platform.inWindow o.1 = false) ∧
      (pending spanState (.contendedCmd 0x00000002#32 [(0x00010050#32, 7#8)])).host =
        [.contendedCmd 0x00000002#32 [(0x00010050#32, 7#8)]] ∧
      (pending spanState (.resetDuringCmd 0x00000002#32 [(0x00010050#32, 7#8)])).host =
        [.resetDuringCmd 0x00000002#32 [(0x00010050#32, 7#8)]] ∧
      (0x00010050#32 : Addr) ∈ (program .hline spanState.operands).addresses :=
  ⟨rfl, forall_of_all (by decide +kernel), forall_of_all (by decide +kernel), rfl, rfl, by decide +kernel⟩

end Sys2Proof.Tests
end

section
/-! SUPPORT. Runs as lists of accesses: what a run performed is what it left in memory, a platform that refuses more
cuts a run short and changes nothing else, and a command's addresses do not depend on the bytes it reads (R37, R50). -/

namespace Sys2Proof.Machine

/-! ### What a run performed -/

@[simp] theorem Bus.afterWrite_mem (b : Bus) (p : Platform) (a : Addr) (v : Byte) :
    (b.afterWrite p a v).mem = if p.isDevice a then b.mem else b.mem.write a v := rfl

/-- A run only adds accesses, and leaves in memory what these leave there. -/
theorem BusProg.run_performs (p : Platform) (x : BusProg) (b : Bus) :
    ∃ l, (x.run p b).bus.log = l.reverse ++ b.log ∧ (x.run p b).bus.mem = b.mem.replay p l := by
  induction x generalizing b with
  | done => exact ⟨[], rfl, rfl⟩
  | read a k ih =>
    cases h : p.check a with
    | none =>
      obtain ⟨l, hlog, hmem⟩ := ih (b.valueAt p a) (b.afterRead p a)
      exact ⟨.read a (b.valueAt p a) :: l, by simp [run_read p a k b h, hlog], by simp [run_read p a k b h, hmem]⟩
    | some e => exact ⟨[], by simp [run_read_stopped p a k b e h], by simp [run_read_stopped p a k b e h]⟩
  | write a v k ih =>
    cases h : p.check a with
    | none =>
      obtain ⟨l, hlog, hmem⟩ := ih (b.afterWrite p a v)
      exact ⟨.write a v :: l, by simp [run_write p a v k b h, hlog], by simp [run_write p a v k b h, hmem]⟩
    | some e => exact ⟨[], by simp [run_write_stopped p a v k b e h], by simp [run_write_stopped p a v k b e h]⟩

/-- A command's run leaves in memory exactly what its accesses leave there. -/
theorem State.run_mem_eq_replay (s : State) (p : Platform) (x : BusProg) :
    (x.run p s.bus).bus.mem = s.mem.replay p (x.run p s.bus).performed := by
  obtain ⟨l, hlog, hmem⟩ := x.run_performs p s.bus
  simpa [RunEnd.performed, hlog] using hmem

/-- A run stops early only at an access that the check stops. -/
theorem BusProg.exists_check_of_stop (p : Platform) (x : BusProg) (b : Bus) (e : BusStop)
    (h : (x.run p b).stop = some e) : ∃ a, p.check a = some e := by
  induction x generalizing b with
  | done => cases h
  | read a k ih =>
    cases hc : p.check a with
    | none => rw [run_read p a k b hc] at h; exact ih _ _ h
    | some e' => rw [run_read_stopped p a k b e' hc] at h; exact ⟨a, hc.trans h⟩
  | write a v k ih =>
    cases hc : p.check a with
    | none => rw [run_write p a v k b hc] at h; exact ih _ h
    | some e' => rw [run_write_stopped p a v k b e' hc] at h; exact ⟨a, hc.trans h⟩

/-- The platform with `MemOK` true everywhere permits what the platform itself permits. -/
theorem Platform.check_refusingNone {p : Platform} {a : Addr} (h : p.check a = none) :
    ({ p with refused := [] } : Platform).check a = none := by
  obtain ⟨hw, -⟩ := (p.check_eq_none a).mp h
  exact (check_eq_none _ a).mpr ⟨hw, rfl⟩

/-- A platform's refusals only cut a run short: where it refuses none, the same accesses come first (R120). -/
theorem BusProg.run_refusingNone_extends (p : Platform) (x : BusProg) (b : Bus) :
    ∃ l, (x.run { p with refused := [] } b).bus.log = l ++ (x.run p b).bus.log := by
  induction x generalizing b with
  | done => exact ⟨[], rfl⟩
  | read a k ih =>
    cases h : p.check a with
    | none =>
      rw [run_read p a k b h, run_read _ a k b (Platform.check_refusingNone h)]
      exact ih _ _
    | some e =>
      rw [run_read_stopped p a k b e h]
      obtain ⟨l, hlog, -⟩ := (BusProg.read a k).run_performs { p with refused := [] } b
      exact ⟨_, hlog⟩
  | write a v k ih =>
    cases h : p.check a with
    | none =>
      rw [run_write p a v k b h, run_write _ a v k b (Platform.check_refusingNone h)]
      exact ih _
    | some e =>
      rw [run_write_stopped p a v k b e h]
      obtain ⟨l, hlog, -⟩ := (BusProg.write a v k).run_performs { p with refused := [] } b
      exact ⟨_, hlog⟩

/-- What a run performed is the beginning of what it would perform where no access is refused (R120). -/
theorem RunEnd.performed_eq_take (p : Platform) (x : BusProg) (b : Bus) :
    (x.run p b).performed =
      (x.run { p with refused := [] } b).performed.take (x.run p b).performed.length := by
  obtain ⟨l, hlog⟩ := x.run_refusingNone_extends p b
  simp [RunEnd.performed, hlog]

/-! ### Addresses that do not depend on the bytes read -/

/-- Whatever its reads give, the accesses of a sequence fall on these addresses, in this order (R37, R50). -/
inductive BusProg.Visits : BusProg → List Addr → Prop where
  | done : Visits .done []
  | read {a : Addr} {k : Byte → BusProg} {l : List Addr} : (∀ v, Visits (k v) l) → Visits (.read a k) (a :: l)
  | write {a : Addr} {v : Byte} {k : BusProg} {l : List Addr} : Visits k l → Visits (.write a v k) (a :: l)

theorem BusProg.Visits.addresses_eq {x : BusProg} {l : List Addr} (h : x.Visits l) : x.addresses = l := by
  induction h with
  | done => rfl
  | read _ ih => simp [addresses, ih]
  | write _ ih => simp [addresses, ih]

theorem BusProg.Visits.seq {x y : BusProg} {l m : List Addr} (hx : x.Visits l) (hy : y.Visits m) :
    (x.seq y).Visits (l ++ m) := by
  induction hx with
  | done => exact hy
  | read _ ih => exact .read ih
  | write _ ih => exact .write ih

theorem BusProg.Visits.seqAll_map {ι : Type} (f : ι → BusProg) (g : ι → List Addr) (is : List ι)
    (h : ∀ i, (f i).Visits (g i)) : (BusProg.seqAll (is.map f)).Visits (is.flatMap g) := by
  induction is with
  | nil => exact .done
  | cons i is ih => exact (h i).seq ih

theorem BusProg.visits_readBE {w : Nat} (n : Nat) (a : Addr) (k : BitVec w → BusProg) (l : List Addr)
    (h : ∀ v, (k v).Visits l) : (BusProg.readBE w a n k).Visits (byteAddrs n a ++ l) := by
  unfold readBE
  generalize 0 = acc
  induction n generalizing a acc with
  | zero => exact h _
  | succ n ih => exact .read fun v => ih _ _

theorem BusProg.visits_writeBE {w : Nat} (n : Nat) (a : Addr) (v : BitVec w) :
    (BusProg.writeBE n a v).Visits (byteAddrs n a) := by
  induction n generalizing a with
  | zero => exact .done
  | succ n ih => exact .write (ih _)

/-! ### The commands' addresses -/

/-- A byte of a span is accessed once where it is interior, twice where it is a boundary byte (R75). -/
theorem visits_spanByte (fb : Addr) (row lo hi : Nat) (op : SpanOp) (j : Nat) :
    (spanByte fb row lo hi op j).Visits
      (if spanMask lo hi j = 0xFF#8 then [fbByteAddr fb row j] else [fbByteAddr fb row j, fbByteAddr fb row j]) := by
  by_cases hm : spanMask lo hi j = 0xFF#8
  · rw [if_pos hm]
    cases op <;> (rw [spanByte, if_pos hm]; exact .write .done)
  · rw [if_neg hm]
    cases op <;> (rw [spanByte, if_neg hm]; exact .read fun _ => .write .done)

theorem visits_spanRow (fb : Addr) (row lo hi : Nat) (op : SpanOp) :
    (spanRow fb row lo hi op).Visits
      ((List.range' (lo / 8) (hi / 8 + 1 - lo / 8)).flatMap fun j =>
        if spanMask lo hi j = 0xFF#8 then [fbByteAddr fb row j] else [fbByteAddr fb row j, fbByteAddr fb row j]) :=
  .seqAll_map _ _ _ (visits_spanByte fb row lo hi op)

theorem exists_visits_rectRows (fb : Addr) (r : Rect) (op : SpanOp) : ∃ l, (rectRows fb r op).Visits l :=
  ⟨_, .seqAll_map _ _ _ fun row => visits_spanRow fb row r.col (r.col + r.len - 1) op⟩

theorem visits_composeTarget (w : WordWidth) (mode : Mode) (fb : Addr) (row : Nat) (s : SpriteWord w) (t : Target) :
    (composeTarget w mode fb row s t).Visits
      (byteAddrs (wordBytes w) (fbWordAddr w fb row t.widx) ++
        byteAddrs (wordBytes w) (fbWordAddr w fb row t.widx)) :=
  BusProg.visits_readBE _ _ _ _ fun _ => BusProg.visits_writeBE _ _ _

theorem visits_composeRow (w : WordWidth) (mode : Mode) (o : Operands) (ts : List Target) (row : Nat) :
    (composeRow w mode o ts row).Visits
      (byteAddrs (wordBytes w) (bitmapRowAddr w o.bm ((row : Int) - o.y).toNat) ++
        ts.flatMap fun t => byteAddrs (wordBytes w) (fbWordAddr w o.fb row t.widx) ++
          byteAddrs (wordBytes w) (fbWordAddr w o.fb row t.widx)) :=
  BusProg.visits_readBE _ _ _ _ fun _ => .seqAll_map _ _ _ fun _ => visits_composeTarget _ _ _ _ _ _

theorem exists_visits_compose (w : WordWidth) (mode : Mode) (o : Operands) : ∃ l, (compose w mode o).Visits l := by
  unfold compose
  split
  · exact ⟨_, .done⟩
  · split
    · exact ⟨_, .done⟩
    · exact ⟨_, .seqAll_map _ _ _ (visits_composeRow _ _ _ _)⟩

theorem exists_visits_plotProg (o : Operands) : ∃ l, (plotProg o).Visits l := by
  unfold plotProg
  split
  · exact ⟨_, .read fun _ => .write .done⟩
  · exact ⟨_, .done⟩

theorem exists_visits_hlineProg (o : Operands) : ∃ l, (hlineProg o).Visits l := by
  unfold hlineProg
  split
  · exact ⟨_, .done⟩
  · exact ⟨_, visits_spanRow _ _ _ _ _⟩

theorem exists_visits_fillrectProg (o : Operands) : ∃ l, (fillrectProg o).Visits l := by
  unfold fillrectProg
  split
  · exact ⟨_, .done⟩
  · exact exists_visits_rectRows _ _ _

theorem exists_visits_clearrectProg (o : Operands) : ∃ l, (clearrectProg o).Visits l := by
  unfold clearrectProg
  split
  · exact ⟨_, .done⟩
  · exact exists_visits_rectRows _ _ _

/-- The sprite commands are the compositions (R95 to R109). -/
theorem program_eq_compose {i : Instr} {w : WordWidth} {mode : Mode} (h : spriteKind i = some (w, mode))
    (o : Operands) : program i o = compose w mode o := by
  cases i <;> cases h <;> rfl

/-- No command computes an address from a byte it read (R37, R62). -/
theorem program_visits (i : Instr) (o : Operands) : (program i o).Visits (program i o).addresses := by
  have hl : ∃ l, (program i o).Visits l := by
    cases hk : spriteKind i with
    | some k => rw [program_eq_compose hk]; exact exists_visits_compose _ _ _
    | none =>
      cases i with
      | nop => exact ⟨[], .done⟩
      | plot => exact exists_visits_plotProg o
      | hline => exact exists_visits_hlineProg o
      | fillrect => exact exists_visits_fillrectProg o
      | clearrect => exact exists_visits_clearrectProg o
      | _ => cases hk
  obtain ⟨l, hl⟩ := hl
  rwa [hl.addresses_eq]

/-! ### Where a run stops -/

/-- A run performs the accesses before the first one that the check stops, and no later one (R120). -/
theorem BusProg.Visits.run_stops_at {p : Platform} {before after : List Addr} {a : Addr} {e : BusStop}
    (hok : ∀ x ∈ before, p.check x = none) (ha : p.check a = some e) {x : BusProg}
    (h : x.Visits (before ++ a :: after)) (b : Bus) :
    (x.run p b).stop = some e ∧
      ∃ l : List Access, (x.run p b).bus.log = l.reverse ++ b.log ∧ l.map Access.addr = before := by
  induction before generalizing x b with
  | nil =>
    cases h with
    | read _ => rw [run_read_stopped p a _ b e ha]; exact ⟨rfl, [], rfl, rfl⟩
    | write _ => rw [run_write_stopped p a _ _ b e ha]; exact ⟨rfl, [], rfl, rfl⟩
  | cons c before ih =>
    have hc : p.check c = none := hok c (by simp)
    have hrest : ∀ x ∈ before, p.check x = none := fun x hx => hok x (by simp [hx])
    cases h with
    | @read _ k _ hk =>
      obtain ⟨hstop, l, hlog, hl⟩ := ih hrest (hk (b.valueAt p c)) (b.afterRead p c)
      rw [run_read p c k b hc]
      exact ⟨hstop, .read c (b.valueAt p c) :: l, by simp [hlog], by simp [hl]⟩
    | @write _ v k _ hk =>
      obtain ⟨hstop, l, hlog, hl⟩ := ih hrest hk (b.afterWrite p c v)
      rw [run_write p c v k b hc]
      exact ⟨hstop, .write c v :: l, by simp [hlog], by simp [hl]⟩

/-- How a command runs whose first access that is not permitted falls on `a`. -/
theorem program_stops_at {i : Instr} {s : State} {before after : List Addr} {a : Addr} {e : BusStop}
    (h : (program i s.operands).addresses = before ++ a :: after) (hok : ∀ x ∈ before, s.platform.check x = none)
    (ha : s.platform.check a = some e) :
    ((program i s.operands).run s.platform s.bus).stop = some e ∧
      ((program i s.operands).run s.platform s.bus).performed.map Access.addr = before := by
  obtain ⟨hstop, l, hlog, hl⟩ := (h ▸ program_visits i s.operands).run_stops_at hok ha s.bus
  exact ⟨hstop, by simpa [RunEnd.performed, hlog] using hl⟩

/-- A command stopped by `MemOK` ends with BUS_ERROR (R120). -/
theorem exec_of_refused {i : Instr} {s : State}
    (h : ((program i s.operands).run s.platform s.bus).stop = some .refused) :
    exec i s =
      .next ((s.withBus ((program i s.operands).run s.platform s.bus).bus).raiseError .busError) := by
  simp [exec_eq_runCommand, State.runCommand, State.finish, h]

/-! ### The obligations on BUS_ERROR -/

/-- Settles O37: the run stops at the refused access, and is the beginning of the run that nothing refuses. -/
theorem busErrorStopsAtTheFirstRefusedAccess : Obligations.BusErrorStopsAtTheFirstRefusedAccess := by
  intro i s before after a haddr hok ha
  obtain ⟨hstop, hperf⟩ := program_stops_at haddr hok ha
  have hlen : before.length = ((program i s.operands).run s.platform s.bus).performed.length := by simp [← hperf]
  refine ⟨_, exec_of_refused hstop, by simp, ?_, ?_⟩
  · simp [State.sameRegisters]
  · rw [hlen, ← RunEnd.performed_eq_take]
    exact s.run_mem_eq_replay s.platform _

/-- Settles O39: only an access where `MemOK` is false ends a command with BUS_ERROR. -/
theorem referencePlatformMeetsNoBusError : Obligations.ReferencePlatformMeetsNoBusError := by
  intro i s t hok hexec
  rcases exec_cases hexec with ⟨-, rfl⟩ | ⟨hstop, -⟩
  · simp
  · obtain ⟨a, ha⟩ := BusProg.exists_check_of_stop _ _ _ _ hstop
    obtain ⟨-, hbad⟩ := (s.platform.check_eq_refused a).mp ha
    simp [hok a] at hbad

end Sys2Proof.Machine
end

section
/-! SUPPORT. The pixels of a word on the bus: bits of the value ReadBE gives and bytes WriteBE leaves, by address
(R16, R18, R42, R44). -/

namespace Sys2Proof.Machine

/-! ### Bytes of a word, by address -/

theorem add_one_add_ofNat (a : Addr) (i : Nat) : a + 1#32 + BitVec.ofNat 32 i = a + BitVec.ofNat 32 (i + 1) := by
  rw [BitVec.add_assoc, Nat.add_comm i 1, BitVec.ofNat_add]

theorem mem_byteAddrs {n : Nat} {a x : Addr} : x ∈ byteAddrs n a ↔ ∃ i < n, x = a + BitVec.ofNat 32 i := by
  induction n generalizing a with
  | zero => simp [byteAddrs]
  | succ n ih =>
    rw [byteAddrs, List.mem_cons, ih, Nat.exists_lt_succ_left]
    simp [add_one_add_ofNat]

/-- ReadBE's value by bits: bit `i` of the word is in byte `n - 1 - i / 8` (R16, R44). -/
theorem Memory.testBit_bytesFrom (m : Memory) (n : Nat) (a : Addr) (acc i : Nat) :
    (m.bytesFrom n a acc).testBit i =
      if i < 8 * n then (m.read (a + BitVec.ofNat 32 (n - 1 - i / 8))).getLsbD (i % 8)
      else acc.testBit (i - 8 * n) := by
  induction n generalizing a acc with
  | zero => simp [bytesFrom]
  | succ n ih =>
    have hbyte (j : Nat) : (acc * 256 + (m.read a).toNat).testBit j =
        if j < 8 then (m.read a).getLsbD j else acc.testBit (j - 8) := by
      rw [Nat.mul_comm, show 256 = 2 ^ 8 by rfl, Nat.testBit_two_pow_mul_add _ (m.read a).isLt]
      rfl
    rw [bytesFrom, ih, hbyte, add_one_add_ofNat]
    rcases Nat.lt_or_ge i (8 * n) with hlow | hlow
    · rw [if_pos hlow, if_pos (by omega), show n - 1 - i / 8 + 1 = n + 1 - 1 - i / 8 by omega]
    · rw [if_neg (by omega)]
      rcases Nat.lt_or_ge i (8 * (n + 1)) with hhead | hhead
      · rw [if_pos (by omega), if_pos hhead, show n + 1 - 1 - i / 8 = 0 by omega, show i - 8 * n = i % 8 by omega,
          BitVec.add_zero]
      · rw [if_neg (by omega), if_neg (by omega), show i - 8 * n - 8 = i - 8 * (n + 1) by omega]

/-- WriteBE changes no byte but the word's own. -/
theorem Memory.read_writeWord_other {w : Nat} (m : Memory) (n : Nat) (a x : Addr) (v : BitVec w)
    (h : ∀ i < n, x ≠ a + BitVec.ofNat 32 i) : (m.writeWord n a v).read x = m.read x := by
  induction n generalizing m a with
  | zero => rfl
  | succ n ih =>
    have hhead : x ≠ a := by simpa using h 0 (by omega)
    have htail : ∀ i < n, x ≠ a + 1#32 + BitVec.ofNat 32 i := fun i hi => by
      simpa [add_one_add_ofNat] using h (i + 1) (by omega)
    rw [writeWord, ih _ _ htail, read_write_other _ _ hhead]

/-- WriteBE's bytes: the byte at offset `i` is the word's `i`-th from the top (R16, R44). -/
theorem Memory.read_writeWord {w : Nat} (m : Memory) (n : Nat) (a : Addr) (v : BitVec w) {i : Nat} (hi : i < n)
    (hn : n ≤ 2 ^ 32) : (m.writeWord n a v).read (a + BitVec.ofNat 32 i) = v.extractLsb' (8 * (n - 1 - i)) 8 := by
  induction n generalizing m a i with
  | zero => omega
  | succ n ih =>
    rw [writeWord]
    cases i with
    | zero =>
      have hapart : ∀ j < n, a ≠ a + 1#32 + BitVec.ofNat 32 j := fun j hj => by
        rw [add_one_add_ofNat]
        intro h
        have := congrArg BitVec.toNat h
        simp only [BitVec.toNat_add, BitVec.toNat_ofNat] at this
        omega
      rw [BitVec.add_zero, read_writeWord_other _ n _ _ v hapart, read_write_same]
      simp
    | succ i =>
      rw [← add_one_add_ofNat a i, ih _ _ (by omega) (by omega), show n + 1 - 1 - (i + 1) = n - 1 - i by omega]

/-! ### Pixels of a framebuffer word -/

theorem wordBits_eq (w : WordWidth) : wordBits w = 8 * wordBytes w := by cases w <;> rfl

/-- Column `c` of framebuffer word `j` is in the word's byte `c / 8`, at bit `7 - c mod 8` (R41, R42). -/
theorem Memory.pixel_word (m : Memory) (w : WordWidth) (fb : Addr) (row j c : Nat) :
    m.pixel fb (j * wordBits w + c) row =
      (m.read (fbWordAddr w fb row j + BitVec.ofNat 32 (c / 8))).getLsbD (7 - c % 8) := by
  have hassoc : j * wordBits w + c = 8 * (j * wordBytes w) + c := by rw [wordBits_eq]; ring
  have haddr : fbByteAddr fb row (j * wordBytes w + c / 8) =
      fbWordAddr w fb row j + BitVec.ofNat 32 (c / 8) := by
    rw [fbWordAddr, fbByteAddr, fbByteAddr, BitVec.add_assoc, ← BitVec.ofNat_add, Nat.add_assoc]
  rw [pixel, hassoc, Nat.mul_add_div (by omega), Nat.mul_add_mod, haddr]

/-- The word ReadBE gives has screen pixel `j W + c` at `colbit_W(c)` (R18, R42). -/
theorem Memory.getLsbD_bytesFrom_eq_pixel (m : Memory) (w : WordWidth) (fb : Addr) (row j c : Nat)
    (hc : c < wordBits w) :
    (BitVec.ofNat (wordBits w) (m.bytesFrom (wordBytes w) (fbWordAddr w fb row j) 0)).getLsbD (wordBits w - 1 - c) =
      m.pixel fb (j * wordBits w + c) row := by
  have hw := wordBits_eq w
  rw [pixel_word, BitVec.getLsbD_ofNat, testBit_bytesFrom, if_pos (by omega),
    show wordBytes w - 1 - (wordBits w - 1 - c) / 8 = c / 8 by omega,
    show (wordBits w - 1 - c) % 8 = 7 - c % 8 by omega]
  simp only [show wordBits w - 1 - c < wordBits w by omega, decide_true, Bool.true_and]

/-- WriteBE of a word leaves screen pixel `j W + c` at its bit `colbit_W(c)` (R18, R42). -/
theorem Memory.pixel_writeWord (m : Memory) (w : WordWidth) (fb : Addr) (row j c : Nat) (v : SpriteWord w)
    (hc : c < wordBits w) :
    (m.writeWord (wordBytes w) (fbWordAddr w fb row j) v).pixel fb (j * wordBits w + c) row =
      v.getLsbD (wordBits w - 1 - c) := by
  have hw := wordBits_eq w
  have hn : wordBytes w ≤ 2 ^ 32 := by have := wordBits_cases w; omega
  rw [pixel_word, read_writeWord m _ _ v (by omega) hn, BitVec.getLsbD_extractLsb',
    show 8 * (wordBytes w - 1 - c / 8) + (7 - c % 8) = wordBits w - 1 - c by omega]
  simp only [show 7 - c % 8 < 8 by omega, decide_true, Bool.true_and]

/-- Settles O34: ReadBE gives, and WriteBE leaves, the word's pixels at their column bits. -/
theorem wordViewNamesTheSamePixels : Obligations.WordViewNamesTheSamePixels := by
  intro p b fb w row j _ _ hplain
  have hword : ∀ x ∈ byteAddrs (wordBytes w) (fbWordAddr w fb row j), p.ordinary x = true := by
    intro x hx
    obtain ⟨n, hn, rfl⟩ := mem_byteAddrs.mp hx
    exact hplain n hn
  constructor
  · intro k
    obtain ⟨l, hrun⟩ := BusProg.run_readBytes p _ _ 0 (fun v => k (BitVec.ofNat (wordBits w) v)) b hword
    exact ⟨_, l, hrun, fun c hc => b.mem.getLsbD_bytesFrom_eq_pixel w fb row j c hc⟩
  · intro v
    obtain ⟨l, hrun⟩ := BusProg.run_writeBE p _ _ v b hword
    exact ⟨_, l, hrun, fun c hc => b.mem.pixel_writeWord w fb row j c v hc,
      fun a ha => b.mem.read_writeWord_other _ _ a v ha⟩

end Sys2Proof.Machine
end

section
/-! SUPPORT. The host's accesses to the register window: which offset is which register (R21, R22), what one step
makes of a read, of a write and of a reset, and which accesses are refused (U6). -/

namespace Sys2Proof.Machine

/-! ### Offsets of the window -/

/-- The byte offset of a register in the window (R21). -/
def WindowReg.offset : WindowReg → BitVec 5
  | .fbBase => 0x00
  | .bmBase => 0x04
  | .arg0 => 0x08
  | .arg1 => 0x0C
  | .cmd => 0x10
  | .status => 0x14
  | .geom => 0x18
  | .reserved => 0x1C

theorem windowReg_eq_some {off : BitVec 5} {r : WindowReg} : windowReg off = some r ↔ off = r.offset := by
  revert off
  cases r <;> decide

theorem windowReg_eq_none {off : BitVec 5} : windowReg off = none ↔ off.toNat % 4 ≠ 0 := by
  revert off
  decide

/-- Only a 32-bit access at a register's offset reaches it (R22). -/
theorem accessedReg_eq_some {off : BitVec 5} {width : AccessWidth} {r : WindowReg} :
    accessedReg off width = some r ↔ width = .word ∧ off = r.offset := by
  cases width <;> simp [accessedReg, windowReg_eq_some]

@[simp] theorem accessedReg_offset (r : WindowReg) : accessedReg r.offset .word = some r :=
  accessedReg_eq_some.mpr ⟨rfl, rfl⟩

/-- A narrow or misaligned access reaches no register (R22). -/
theorem accessedReg_eq_none {off : BitVec 5} {width : AccessWidth} :
    accessedReg off width = none ↔ width ≠ .word ∨ off.toNat % 4 ≠ 0 := by
  cases width <;> simp [accessedReg, windowReg_eq_none]

/-! ### One step with a pending access -/

theorem step_eq_perform {s : State} {a : HostAccess} {rest : List HostAccess} (h : s.host = a :: rest) :
    step s = perform a { s with host := rest } := by
  simp [step, performNext, h]

/-- A register's value does not depend on the accesses still to come. -/
theorem State.readReg_with_host (s : State) (r : WindowReg) (rest : List HostAccess) :
    ({ s with host := rest } : State).readReg r = s.readReg r := by
  cases r <;> rfl

/-- A 32-bit host read records the register's value (R22, R66). -/
theorem step_regRead {s : State} {rest : List HostAccess} (r : WindowReg)
    (h : s.host = .regRead r.offset .word :: rest) :
    step s = .next { s with host := rest, recorded := s.readReg r :: s.recorded } := by
  rw [step_eq_perform h, ← s.readReg_with_host r rest]
  simp [perform, hostRegRead, State.record]

/-- A 32-bit host write of any register but CMD is the register's own write (R22). -/
theorem step_regWrite {s : State} {rest : List HostAccess} {v : Word} (r : WindowReg) (hr : r ≠ .cmd)
    (h : s.host = .regWrite r.offset .word v :: rest) :
    step s = .next (({ s with host := rest } : State).writeReg r v) := by
  rw [step_eq_perform h]
  cases r with
  | cmd => exact absurd rfl hr
  | _ => simp [perform, hostRegWrite]

theorem step_reset {s : State} {rest : List HostAccess} (h : s.host = .reset :: rest) :
    step s = .next ({ s with host := rest } : State).resetRegisters :=
  step_eq_perform h

/-- The registers after a reset (R36). -/
theorem State.readReg_resetRegisters (s : State) (r : WindowReg) :
    s.resetRegisters.readReg r = if r = .geom then 0x01900280#32 else 0x00000000#32 := by
  cases r <;> rfl

/-- `State.reset` holds the values that a reset sets. -/
theorem State.resetRegisters_reset : State.reset.resetRegisters = State.reset := rfl

/-! ### The obligations on the window and on reset -/

/-- Settles O7: the list of offsets and values is the window, register by register. -/
theorem hostReadsGiveTheRegisters : Obligations.HostReadsGiveTheRegisters := by
  intro s rest off v hmem hs
  have hreg : (off, v) ∈ [WindowReg.fbBase, .bmBase, .arg0, .arg1, .cmd, .status, .geom, .reserved].map
      fun r => (r.offset, s.readReg r) := hmem
  obtain ⟨r, -, hr⟩ := List.mem_map.mp hreg
  cases hr
  exact step_regRead r hs

/-- Settles O8: each write is the write of one register. -/
theorem hostWritesStoreTheOperandRegisters : Obligations.HostWritesStoreTheOperandRegisters := by
  intro s rest v
  refine ⟨step_regWrite .fbBase nofun, step_regWrite .bmBase nofun, step_regWrite .arg0 nofun,
    step_regWrite .arg1 nofun, ?_⟩
  intro off hoff hs
  have hreg : off ∈ [WindowReg.status, .geom, .reserved].map WindowReg.offset := hoff
  simp only [List.map_cons, List.map_nil, List.mem_cons, List.not_mem_nil, or_false] at hreg
  rcases hreg with rfl | rfl | rfl
  · exact step_regWrite .status nofun hs
  · exact step_regWrite .geom nofun hs
  · exact step_regWrite .reserved nofun hs

/-- Settles O9: both are constants of `State.readReg`, and `State.writeReg` stores nothing there. -/
theorem geomAndReservedOffsetAreHardWired : Obligations.GeomAndReservedOffsetAreHardWired := by
  refine ⟨fun s => ⟨⟨s.readReg_geom, by simp, by simp⟩, s.readReg_reserved⟩, windowReg_eq_some.mpr rfl,
    windowReg_eq_some.mpr rfl, ?_⟩
  intro s v rest off hoff
  simp only [List.mem_cons, List.not_mem_nil, or_false] at hoff
  rcases hoff with rfl | rfl
  · exact ⟨step_regWrite .geom nofun, step_regRead .geom⟩
  · exact ⟨step_regWrite .reserved nofun, step_regRead .reserved⟩

/-- Settles O10: such an access reaches no register, and a byte access in the window is refused where it is made. -/
theorem narrowOrMisalignedHostAccessIsRefused : Obligations.NarrowOrMisalignedHostAccessIsRefused := by
  refine ⟨?window, ?memory, ?foreign⟩
  case window =>
    intro s off width v rest hbad
    have hnone := accessedReg_eq_none.mpr hbad
    constructor <;> intro hs <;> rw [step_eq_perform hs]
    · simp [perform, hostRegRead, hnone]
    · simp [perform, hostRegWrite, hnone]
  case memory =>
    intro s a v rest hwin
    constructor <;> intro hs <;> rw [step_eq_perform hs]
    · simp [perform, hostMemRead, hwin]
    · simp [perform, hostMemWrite, hwin]
  case foreign =>
    intro s c others rest hwin
    have hforeign : foreignInWindow others { s with host := rest } = true := List.any_eq_true.mpr hwin
    constructor <;> intro hs <;> rw [step_eq_perform hs]
    · simp [perform, contendedCmd, hforeign]
    · simp [perform, resetDuringCmd, hforeign]

/-- Settles O11: the state after reset is itself one that a reset leaves. -/
theorem resetLeavesTheResetValues : Obligations.ResetLeavesTheResetValues := by
  have hzero (s : State) : ∀ r ∈ [WindowReg.fbBase, .bmBase, .arg0, .arg1, .cmd, .status],
      s.resetRegisters.readReg r = 0x00000000#32 := by
    intro r hr
    rw [s.readReg_resetRegisters, if_neg]
    rintro rfl
    simp at hr
  refine ⟨?_, State.readReg_geom _, fun s rest hs => ⟨_, step_reset hs, hzero _, State.readReg_geom _⟩⟩
  rw [← State.resetRegisters_reset]
  exact hzero _

end Sys2Proof.Machine
end

section
/-! SUPPORT. What a step keeps: the operand registers and CMD (R32), and the invariant of STATUS and memory
(R118 to R120). -/

namespace Sys2Proof.Machine

/-! ### The registers through a command -/

/-- The end of a command changes memory, STATUS and the count of draws at most (R32). -/
theorem State.sameRegisters_of_finish {s t : State} {r : RunEnd} (h : s.finish r = .next t) : s.sameRegisters t := by
  rcases State.finish_cases h with ⟨-, rfl⟩ | ⟨-, rfl⟩ <;> simp [State.sameRegisters]

/-- Command issue stores the word in CMD and leaves the other registers (R32, R69). -/
theorem sameRegisters_of_issue {c : Word} {s t : State} (h : issue c s = .next t) :
    (s.writeReg .cmd c).sameRegisters t := by
  rcases issue_cases c s with ⟨e, -, he⟩ | ⟨i, -, hi⟩
  · obtain rfl : _ = t := by simpa [he] using h
    simp [State.sameRegisters]
  · rw [hi, exec_eq_runCommand] at h
    exact State.sameRegisters_of_finish h

/-- A contended command stores the word in CMD and leaves the other registers (R32, R52). -/
theorem sameRegisters_of_contendedCmd {c : Word} {others : List (Addr × Byte)} {s t : State}
    (h : contendedCmd c others s = .next t) : (s.writeReg .cmd c).sameRegisters t := by
  rcases contendedCmd_cases h with ⟨e, -, rfl⟩ | ⟨i, -, hfin⟩
  · simp [State.sameRegisters]
  · exact State.sameRegisters_of_finish hfin

/-- A reset during a command leaves the registers and CMD at 0, the platform and the host's later accesses as they
are (R133). -/
theorem exists_resetRegisters_of_resetDuringCmd {c : Word} {others : List (Addr × Byte)} {s t : State}
    (h : resetDuringCmd c others s = .next t) : ∃ b, t = (s.withBus b).resetRegisters := by
  rcases resetDuringCmd_cases h with ⟨e, -, rfl⟩ | ⟨i, -, rfl⟩ <;> exact ⟨_, rfl⟩

/-- Settles O44, by the kind of access. -/
theorem registersKeepTheirValues : Obligations.RegistersKeepTheirValues := by
  intro s t a rest hs hstep
  rw [step_eq_perform hs] at hstep
  cases a with
  | regRead off width =>
    obtain ⟨r, -, rfl⟩ := hostRegRead_cases hstep
    simp
  | regWrite off width data =>
    rcases hostRegWrite_cases hstep with ⟨hr, hissue⟩ | ⟨r, hr, hne, rfl⟩
    · obtain ⟨rfl, rfl⟩ := accessedReg_eq_some.mp hr
      obtain ⟨hfb, hbm, harg0, harg1, hcmd, hplatform, hhost, -⟩ := sameRegisters_of_issue hissue
      simp_all [WindowReg.offset]
    · obtain ⟨rfl, rfl⟩ := accessedReg_eq_some.mp hr
      cases r with
      | cmd => exact absurd rfl hne
      | _ => simp [WindowReg.offset]
  | memRead a =>
    obtain ⟨-, rfl⟩ := hostMemRead_cases hstep
    simp
  | memWrite a v =>
    obtain ⟨-, rfl⟩ := hostMemWrite_cases hstep
    simp
  | reset =>
    cases hstep
    simp
  | contendedCmd c others =>
    obtain ⟨hfb, hbm, harg0, harg1, hcmd, hplatform, hhost, -⟩ := sameRegisters_of_contendedCmd hstep
    simp_all
  | resetDuringCmd c others =>
    obtain ⟨b, rfl⟩ := exists_resetRegisters_of_resetDuringCmd hstep
    simp

/-! ### The invariant after each kind of end -/

theorem legal_of_decode_ok {c : Word} {i : Instr} (h : decode c = .ok i) : legal c = true := by
  simp [legal, h]

theorem legal_of_decode_error {c : Word} {e : DecodeError} (h : decode c = .error e) : legal c = false := by
  simp [legal, h]

theorem decode_zero : decode 0x00000000#32 = .ok .nop := rfl

/-- STATUS is OK and the word in CMD legal (R71). -/
theorem State.inv_of_ok {s : State} (hmem : s.mem.wf = true) (hstatus : s.status = 0x00000000#32)
    (hcmd : legal s.cmd = true) : s.Inv where
  memory := hmem
  statusLegal := .inl hstatus
  illegalIffStatus := by simp [hstatus, hcmd]
  busErrorDraws := by simp [hstatus]

/-- STATUS is ILLEGAL_CMD and the word in CMD illegal (R119). -/
theorem State.inv_of_illegalCmd {s : State} (hmem : s.mem.wf = true) (hstatus : s.status = 0x00000011#32)
    (hcmd : legal s.cmd = false) : s.Inv where
  memory := hmem
  statusLegal := .inr (.inl hstatus)
  illegalIffStatus := by simp [hstatus, hcmd]
  busErrorDraws := by simp [hstatus]

/-- STATUS is BUS_ERROR and the word in CMD a drawing command's (R120). -/
theorem State.inv_of_busError {s : State} (hmem : s.mem.wf = true) (hstatus : s.status = 0x00000021#32)
    (hcmd : legal s.cmd = true) (hdraws : s.cmd ≠ 0x00000000#32) : s.Inv where
  memory := hmem
  statusLegal := .inr (.inr hstatus)
  illegalIffStatus := by simp [hstatus, hcmd]
  busErrorDraws := fun _ => hdraws

/-- An access that leaves CMD and STATUS keeps the invariant with the canonical form of memory. -/
theorem State.Inv.of_same_cmd_status {s t : State} (h : s.Inv) (hmem : t.mem.wf = true) (hcmd : t.cmd = s.cmd)
    (hstatus : t.status = s.status) : t.Inv where
  memory := hmem
  statusLegal := hstatus ▸ h.statusLegal
  illegalIffStatus := by rw [hstatus, hcmd]; exact h.illegalIffStatus
  busErrorDraws := by rw [hstatus, hcmd]; exact h.busErrorDraws

/-- A write of any other register leaves CMD (R22). -/
theorem State.writeReg_keeps_cmd (s : State) {r : WindowReg} (v : Word) (hr : r ≠ .cmd) :
    (s.writeReg r v).cmd = s.cmd := by
  cases r with
  | cmd => exact absurd rfl hr
  | _ => rfl

/-- A reset meets the invariant whatever the registers were (R36). -/
theorem State.inv_resetRegisters {s : State} (hmem : s.mem.wf = true) : s.resetRegisters.Inv :=
  State.inv_of_ok hmem rfl (legal_of_decode_ok decode_zero)

/-- The end of a legal command meets the invariant, where a run of NOP is not stopped (R118: BUS_ERROR is raised by
drawing commands). -/
theorem State.inv_of_finish {s t : State} {r : RunEnd} {i : Instr} (h : s.finish r = .next t)
    (hcmd : decode s.cmd = .ok i) (hmem : r.bus.mem.wf = true) (hnop : i = .nop → r.stop = none) : t.Inv := by
  rcases State.finish_cases h with ⟨-, rfl⟩ | ⟨hstop, rfl⟩
  · exact State.inv_of_ok hmem rfl (legal_of_decode_ok hcmd)
  · refine State.inv_of_busError hmem rfl (legal_of_decode_ok hcmd) fun hzero => ?_
    have hcmd0 : s.cmd = 0x00000000#32 := hzero
    rw [hcmd0, decode_zero] at hcmd
    cases hcmd
    rw [hnop rfl] at hstop
    cases hstop

/-- Command issue establishes STATUS and CMD together (R69, R119, R120). -/
theorem inv_of_issue {c : Word} {s t : State} (hmem : s.mem.wf = true) (h : issue c s = .next t) : t.Inv := by
  rcases issue_cases c s with ⟨e, hdec, he⟩ | ⟨i, hdec, hi⟩
  · obtain rfl : _ = t := by simpa only [he, Host.Outcome.next.injEq] using h
    exact State.inv_of_illegalCmd hmem rfl (legal_of_decode_error hdec)
  · rw [hi, exec_eq_runCommand] at h
    refine State.inv_of_finish h hdec (BusProg.run_wf _ _ _ hmem) ?_
    rintro rfl
    rfl

/-- A contended command establishes STATUS and CMD as command issue does (R52, R69). -/
theorem inv_of_contendedCmd {c : Word} {others : List (Addr × Byte)} {s t : State} (hmem : s.mem.wf = true)
    (h : contendedCmd c others s = .next t) : t.Inv := by
  rcases contendedCmd_cases h with ⟨e, hdec, rfl⟩ | ⟨i, hdec, hfin⟩
  · exact State.inv_of_illegalCmd (s.bus.wf_land _ _ hmem) rfl (legal_of_decode_error hdec)
  · refine State.inv_of_finish hfin hdec (BusProg.runAmong_wf _ _ _ _ _ _ hmem) ?_
    rintro rfl
    rfl

/-- A reset during a command meets the invariant (R133, R135). -/
theorem inv_of_resetDuringCmd {c : Word} {others : List (Addr × Byte)} {s t : State} (hmem : s.mem.wf = true)
    (h : resetDuringCmd c others s = .next t) : t.Inv := by
  rcases resetDuringCmd_cases h with ⟨e, -, rfl⟩ | ⟨i, -, rfl⟩
  · exact State.inv_resetRegisters (s.bus.wf_land _ _ hmem)
  · exact State.inv_resetRegisters (BusProg.runAmong_wf _ _ _ _ _ _ hmem)

/-- Every access of the host keeps the invariant. -/
theorem inv_of_perform {a : HostAccess} {s t : State} (hinv : s.Inv) (h : perform a s = .next t) : t.Inv := by
  have hmem := hinv.memory
  cases a with
  | regRead off width =>
    obtain ⟨r, -, rfl⟩ := hostRegRead_cases h
    exact hinv.of_same_cmd_status hmem rfl rfl
  | regWrite off width data =>
    rcases hostRegWrite_cases h with ⟨-, hissue⟩ | ⟨r, -, hne, rfl⟩
    · exact inv_of_issue hmem hissue
    · exact hinv.of_same_cmd_status (by simpa using hmem) (s.writeReg_keeps_cmd data hne)
        (s.writeReg_keeps_status r data)
  | memRead a =>
    obtain ⟨-, rfl⟩ := hostMemRead_cases h
    exact hinv.of_same_cmd_status hmem rfl rfl
  | memWrite a v =>
    obtain ⟨-, rfl⟩ := hostMemWrite_cases h
    exact hinv.of_same_cmd_status (s.bus.wf_afterWrite _ _ _ hmem) rfl rfl
  | reset =>
    cases h
    exact State.inv_resetRegisters hmem
  | contendedCmd c others => exact inv_of_contendedCmd hmem h
  | resetDuringCmd c others => exact inv_of_resetDuringCmd hmem h

/-- Settles O45: an idle step keeps the state, and every access keeps the invariant. -/
theorem stepKeepsTheInvariant : Obligations.StepKeepsTheInvariant := by
  intro s t hinv hstep
  rcases performNext_cases hstep with ⟨-, rfl⟩ | ⟨a, rest, -, hperform⟩
  · exact hinv
  · have hinv' : State.Inv { s with host := rest } := hinv.of_same_cmd_status hinv.memory rfl rfl
    exact inv_of_perform hinv' hperform

/-- Settles O46: the state after reset is one that a reset leaves. -/
theorem resetMeetsTheInvariant : Obligations.ResetMeetsTheInvariant :=
  State.inv_resetRegisters (s := State.reset) Memory.wf_nil

end Sys2Proof.Machine
end

section
/-! SUPPORT. Which operand fields a command reads (R37), and the end of a command at its own register window (U7). -/

namespace Sys2Proof.Machine

/-! ### A command at its own window -/

/-- A command stopped at its own window is refused, with the address (R22, U7). -/
theorem exec_of_ownWindow {i : Instr} {s : State} {a : Addr}
    (h : ((program i s.operands).run s.platform s.bus).stop = some (.ownWindow a)) :
    exec i s = .refused (.blockAccessToOwnWindow a) := by
  simp [exec_eq_runCommand, State.runCommand, State.finish, h]

/-- Settles O40: the run stops at the window's address. -/
theorem ownWindowAccessIsRefused : Obligations.OwnWindowAccessIsRefused := by
  intro i s before after a haddr hok hwin
  obtain ⟨hstop, -⟩ := program_stops_at haddr hok ((s.platform.check_eq_ownWindow a a).mpr ⟨hwin, rfl⟩)
  exact exec_of_ownWindow hstop

/-! ### The fields each command reads -/

/-- The compositor reads every operand but HLINE's second endpoint (R37). -/
theorem compose_congr {w : WordWidth} {mode : Mode} {o o' : Operands} (hfb : o.fb = o'.fb) (hbm : o.bm = o'.bm)
    (hx : o.x = o'.x) (hy : o.y = o'.y) (hh : o.h = o'.h) : compose w mode o = compose w mode o' := by
  have hrow (ts : List Target) (row : Nat) : composeRow w mode o ts row = composeRow w mode o' ts row := by
    simp only [composeRow, hfb, hbm, hy]
  simp only [compose, hx, hy, hh, funext (hrow _)]

/-- PLOT reads FB_BASE and the low halves of ARG0 and ARG1 (R37). -/
theorem plotProg_congr {o o' : Operands} (hfb : o.fb = o'.fb) (hx : o.x = o'.x) (hy : o.y = o'.y) :
    plotProg o = plotProg o' := by
  simp only [plotProg, hfb, hx, hy]

/-- HLINE reads FB_BASE, both halves of ARG0 and the low half of ARG1 (R37). -/
theorem hlineProg_congr {o o' : Operands} (hfb : o.fb = o'.fb) (hx : o.x = o'.x) (hx2 : o.x2 = o'.x2)
    (hy : o.y = o'.y) : hlineProg o = hlineProg o' := by
  simp only [hlineProg, hfb, hx, hx2, hy]

/-- What R37's table says of a sprite command. -/
theorem sameReads_of_sprite {i : Instr} {k : WordWidth × Mode} {s s' : State} (hk : spriteKind i = some k)
    (h : sameReads i s s') :
    s.fbBase = s'.fbBase ∧ s.bmBase = s'.bmBase ∧ lowHalf s.arg0 = lowHalf s'.arg0 ∧ s.arg1 = s'.arg1 := by
  cases i with
  | nop | plot | hline | fillrect | clearrect => cases hk
  | _ => exact h

/-- A command's accesses depend on the fields that R37 says it reads, and on no other. -/
theorem program_eq_of_sameReads {i : Instr} {s s' : State} (h : sameReads i s s') :
    program i s.operands = program i s'.operands := by
  cases hk : spriteKind i with
  | some k =>
    obtain ⟨hfb, hbm, hx, harg1⟩ := sameReads_of_sprite hk h
    rw [program_eq_compose hk, program_eq_compose hk]
    exact compose_congr hfb hbm hx (congrArg lowHalf harg1) (congrArg highHalf harg1)
  | none =>
    cases i with
    | nop => rfl
    | plot =>
      obtain ⟨hfb, hx, hy⟩ := h
      exact plotProg_congr hfb hx hy
    | hline =>
      obtain ⟨hfb, harg0, hy⟩ := h
      exact hlineProg_congr hfb (congrArg lowHalf harg0) (congrArg highHalf harg0) hy
    | fillrect | clearrect =>
      obtain ⟨hfb, harg0, harg1⟩ := h
      simp only [program, fillrectProg, clearrectProg, State.operands, hfb, harg0, harg1]
    | _ => cases hk

/-! ### The end of the same run in two states -/

/-- What a run's end writes into the state does not depend on the state. -/
theorem State.finish_eq_next {s t : State} {r : RunEnd} (s' : State) (h : s.finish r = .next t) :
    s'.finish r = .next { s' with mem := t.mem, status := t.status, draws := t.draws } := by
  rcases State.finish_cases h with ⟨hstop, rfl⟩ | ⟨hstop, rfl⟩ <;> simp only [State.finish, hstop] <;> rfl

/-- A run that meets the block's own window is refused in every state (U7). -/
theorem State.finish_eq_refused {s : State} {r : RunEnd} {e : Refusal} (s' : State) (h : s.finish r = .refused e) :
    s'.finish r = .refused e := by
  unfold State.finish at h ⊢
  split at h
  · cases h
  · cases h
  · simpa using h

/-- Settles O43: both states run the same accesses on the same bus. -/
theorem unreadOperandsDoNotMatter : Obligations.UnreadOperandsDoNotMatter := by
  intro i s s' hreads hmem hplatform hdraws
  have hbus : s'.bus = s.bus := by simp only [State.bus, hmem, hdraws]
  have hrun : exec i s' = s'.finish ((program i s.operands).run s.platform s.bus) := by
    rw [exec_eq_runCommand, State.runCommand, program_eq_of_sameReads hreads, hplatform, hbus]
  rw [exec_eq_runCommand, hrun]
  exact ⟨fun t => State.finish_eq_next s', fun e => State.finish_eq_refused s'⟩

end Sys2Proof.Machine
end

section
/-! SUPPORT. Memory under more than one writer: the host's own byte accesses (R51), and the runs that foreign writes or
a reset disturb, as interleavings of byte accesses (R52, R135, U3, U5). -/

namespace Sys2Proof.Machine

/-! ### The host's byte accesses -/

/-- Settles O15: the address is plain memory, so the write lands, and the read draws no free value. -/
theorem hostMemoryAccessesAreSeen : Obligations.HostMemoryAccessesAreSeen := by
  intro s a v rest hwin hdev
  constructor <;> intro hs <;> rw [step_eq_perform hs]
  · simp [perform, hostMemWrite, hwin, Bus.afterWrite, State.withBus, State.bus, hdev]
  · simp [perform, hostMemRead, hwin, Bus.afterRead, Bus.valueAt, State.withBus, State.bus, State.record, hdev]

/-! ### How a run that the window does not refuse ends a command -/

/-- A run that came to its last access ends the command with STATUS = OK (R69, R71). -/
theorem State.finish_of_completed {s : State} {r : RunEnd} (h : r.stop = none) :
    s.finish r = .next (s.withBus r.bus).complete := by
  simp [finish, h]

/-- A run that `MemOK` stopped ends the command with BUS_ERROR (R120). -/
theorem State.finish_of_refused {s : State} {r : RunEnd} (h : r.stop = some .refused) :
    s.finish r = .next ((s.withBus r.bus).raiseError .busError) := by
  simp [finish, h]

/-! ### A disturbed CMD write -/

theorem foreignInWindow_eq_false {others : List (Addr × Byte)} {s : State}
    (h : ∀ o ∈ others, s.platform.inWindow o.1 = false) : foreignInWindow others s = false := by
  simpa [foreignInWindow] using h

theorem exists_decode_error_of_illegal {c : Word} (h : legal c = false) : ∃ e, decode c = .error e := by
  cases hdec : decode c with
  | error e => exact ⟨e, rfl⟩
  | ok i => simp [legal_of_decode_ok hdec] at h

/-- A contended CMD write of a legal word runs its command among the foreign writes (R52). -/
theorem step_contendedCmd {s : State} {c : Word} {i : Instr} {others : List (Addr × Byte)} {rest : List HostAccess}
    (hdec : decode c = .ok i) (hforeign : ∀ o ∈ others, s.platform.inWindow o.1 = false)
    (hs : s.host = .contendedCmd c others :: rest) :
    step s = State.finish { s with cmd := c, host := rest }
      ((program i s.operands).runAmong s.platform s.draws 0 others s.drawnBus) := by
  have hout : foreignInWindow others { s with host := rest } = false := foreignInWindow_eq_false hforeign
  rw [step_eq_perform hs]
  simp only [perform, contendedCmd, hout, hdec]
  rfl

/-- A CMD write of a legal word cut by a reset runs a beginning of its command among the foreign writes (R135). -/
theorem step_resetDuringCmd {s : State} {c : Word} {i : Instr} {others : List (Addr × Byte)} {rest : List HostAccess}
    (hdec : decode c = .ok i) (hforeign : ∀ o ∈ others, s.platform.inWindow o.1 = false)
    (hs : s.host = .resetDuringCmd c others :: rest) :
    step s = State.finishByReset { s with host := rest }
      (((program i s.operands).cut (Config.resetPoint s.draws)).runAmong s.platform s.draws 0 others s.drawnBus) := by
  have hout : foreignInWindow others { s with host := rest } = false := foreignInWindow_eq_false hforeign
  rw [step_eq_perform hs]
  simp only [perform, resetDuringCmd, hout, hdec]
  rfl

/-- Settles O50: an illegal word runs nothing, and the foreign writes land on the memory as it stands. -/
theorem illegalWordInADisturbedWriteMakesNoAccess : Obligations.IllegalWordInADisturbedWriteMakesNoAccess := by
  intro s c others rest hillegal hforeign
  obtain ⟨e, hdec⟩ := exists_decode_error_of_illegal hillegal
  have hout : foreignInWindow others { s with host := rest } = false := foreignInWindow_eq_false hforeign
  have hland := Bus.land_mem s.bus s.platform others
  rw [State.bus_mem] at hland
  constructor <;> intro hs <;> rw [step_eq_perform hs, ← hland]
  · simp only [perform, contendedCmd, hout, hdec]
    rfl
  · simp only [perform, resetDuringCmd, hout, hdec]
    rfl

/-! ### Runs among foreign writes, as interleavings -/

/-- From memory `m` the sequence `x` can, racing with the foreign writes `others`, perform the accesses `own` and leave
memory `m'`: one interleaving of the two, in which every own access is permitted and reads what stands there (R52). -/
def BusProg.RacesTo (p : Platform) (x : BusProg) (others : List (Addr × Byte)) (m : Memory) (own : List Access)
    (m' : Memory) : Prop :=
  x.begins own ∧ (∀ y ∈ own, p.memOK y.addr = true) ∧
  ∃ all, Interleaves own (others.map fun o => Access.write o.1 o.2) all ∧ m.seenBy p all ∧ m' = m.replay p all

/-- A run over the addresses `l` ended after `n` accesses: at the last one, or because `MemOK` is false at the next
(R120). -/
def RunEnd.EndsAfter (p : Platform) (r : RunEnd) (l : List Addr) (n : Nat) : Prop :=
  (r.stop = none ∧ n = l.length) ∨ (r.stop = some .refused ∧ ∃ a, l[n]? = some a ∧ p.memOK a = false)

theorem RunEnd.EndsAfter.cons {p : Platform} {r : RunEnd} {l : List Addr} {n : Nat} (h : r.EndsAfter p l n)
    (a : Addr) : r.EndsAfter p (a :: l) (n + 1) := by
  simpa [EndsAfter] using h

theorem Memory.replay_cons (p : Platform) (m : Memory) (z : Access) (rest : List Access) :
    m.replay p (z :: rest) = (m.replay p [z]).replay p rest :=
  m.replay_append p [z] rest

/-- With no own access, all foreign writes land. -/
theorem BusProg.racesTo_land (p : Platform) (x : BusProg) (others : List (Addr × Byte)) (b : Bus) :
    x.RacesTo p others b.mem [] (b.land p others).mem := by
  refine ⟨x.begins_nil, by simp, others.map fun o => .write o.1 o.2, interleaves_foreign _, ?_, b.land_mem p others⟩
  simpa using Memory.seenBy_writes_append p b.mem others [] (by simp [Memory.seenBy])

/-- The first `n` foreign writes land, then `x` makes its access `z` and goes on as `k` with the rest of them. -/
theorem BusProg.RacesTo.cons {p : Platform} {x k : BusProg} {others : List (Addr × Byte)} {own : List Access}
    {b : Bus} {m' : Memory} {n : Nat} {z : Access}
    (h : k.RacesTo p (others.drop n) ((b.land p (others.take n)).mem.replay p [z]) own m')
    (hbegins : k.begins own → x.begins (z :: own)) (hok : p.memOK z.addr = true)
    (hseen : ∀ all, ((b.land p (others.take n)).mem.replay p [z]).seenBy p all →
      (b.land p (others.take n)).mem.seenBy p (z :: all)) :
    x.RacesTo p others b.mem (z :: own) m' := by
  obtain ⟨hown, howned, all, hinter, hall, rfl⟩ := h
  rw [Bus.land_mem] at hall hseen ⊢
  refine ⟨hbegins hown, by simpa using ⟨hok, howned⟩,
    (others.take n).map (fun o => .write o.1 o.2) ++ z :: all, ?_, ?_, ?_⟩
  · have hsplit := interleaves_foreign_append ((others.take n).map fun o => Access.write o.1 o.2)
      (interleaves_own_cons z hinter)
    rwa [← List.map_append, List.take_append_drop] at hsplit
  · exact Memory.seenBy_writes_append p b.mem _ _ (hseen all hall)
  · rw [Memory.replay_append, Memory.replay_cons p _ z all]

theorem Platform.check_of_not_inWindow {p : Platform} {a : Addr} (h : p.inWindow a = false) :
    p.check a = if p.memOK a then none else some .refused := by
  simp [check, h]

/-- A run among foreign writes is one of their interleavings, whatever the free numbers are (R52, U3). -/
theorem BusProg.Visits.runAmong_racesTo {p : Platform} {x : BusProg} {l : List Addr} (h : x.Visits l)
    (hwin : ∀ a ∈ l, p.inWindow a = false) (d n : Nat) (others : List (Addr × Byte)) (b : Bus) :
    ∃ own, x.RacesTo p others b.mem own (x.runAmong p d n others b).bus.mem ∧
      (x.runAmong p d n others b).EndsAfter p l own.length := by
  induction h generalizing n others b with
  | done => exact ⟨[], racesTo_land p _ others b, .inl ⟨rfl, rfl⟩⟩
  | @read a k l _ ih =>
    have hcheck := Platform.check_of_not_inWindow (hwin a (by simp))
    cases hok : p.memOK a with
    | false =>
      simp only [runAmong, hcheck, hok]
      exact ⟨[], racesTo_land p _ others b, .inr ⟨rfl, a, rfl, hok⟩⟩
    | true =>
      simp only [runAmong, hcheck, hok]
      let b' := b.land p (others.take (Config.landing d n))
      obtain ⟨own, hraces, hends⟩ := ih (b'.valueAt p a) (fun a' ha' => hwin a' (by simp [ha'])) (n + 1)
        (others.drop (Config.landing d n)) (b'.afterRead p a)
      refine ⟨.read a (b'.valueAt p a) :: own, hraces.cons (fun hown => ⟨rfl, hown⟩) hok ?_, hends.cons a⟩
      exact fun all hall => ⟨fun hdev => by simp [Bus.valueAt, hdev, b'], hall⟩
  | @write a v k l _ ih =>
    have hcheck := Platform.check_of_not_inWindow (hwin a (by simp))
    cases hok : p.memOK a with
    | false =>
      simp only [runAmong, hcheck, hok]
      exact ⟨[], racesTo_land p _ others b, .inr ⟨rfl, a, rfl, hok⟩⟩
    | true =>
      simp only [runAmong, hcheck, hok]
      let b' := b.land p (others.take (Config.landing d n))
      obtain ⟨own, hraces, hends⟩ := ih (fun a' ha' => hwin a' (by simp [ha'])) (n + 1)
        (others.drop (Config.landing d n)) (b'.afterWrite p a v)
      exact ⟨.write a v :: own, hraces.cons (fun hown => ⟨rfl, rfl, hown⟩) hok fun all hall => hall, hends.cons a⟩

/-- The beginning of a sequence falls on the beginning of its addresses (R135). -/
theorem BusProg.Visits.cut {x : BusProg} {l : List Addr} (h : x.Visits l) (n : Nat) :
    (x.cut n).Visits (l.take n) := by
  induction h generalizing n with
  | done => cases n <;> exact .done
  | read _ ih =>
    cases n with
    | zero => exact .done
    | succ n => exact .read fun v => ih v n
  | write _ ih =>
    cases n with
    | zero => exact .done
    | succ n => exact .write (ih n)

/-- What the cut sequence can race to, the whole can (R135). -/
theorem BusProg.RacesTo.of_cut {p : Platform} {x : BusProg} {n : Nat} {others : List (Addr × Byte)}
    {own : List Access} {m m' : Memory} (h : (x.cut n).RacesTo p others m own m') : x.RacesTo p others m own m' :=
  ⟨x.begins_of_cut n own h.1, h.2⟩

/-- Whatever the end of the run would have been, the registers take their reset values (R133, R135). -/
theorem State.finishByReset_of_endsAfter {s : State} {p : Platform} {r : RunEnd} {l : List Addr} {n : Nat}
    (h : r.EndsAfter p l n) : s.finishByReset r = .next (s.withBus r.bus).resetRegisters := by
  rcases h with ⟨hstop, -⟩ | ⟨hstop, -⟩ <;> simp [finishByReset, hstop]

/-- Settles O51: the run of the command, or of the beginning that the reset leaves of it, is one interleaving. -/
theorem disturbedCommandsAreInterleavings : Obligations.DisturbedCommandsAreInterleavings := by
  intro s c i others rest hdec hwin hforeign
  have hvisits := program_visits i s.operands
  constructor <;> intro hs
  · obtain ⟨own, hraces, hends⟩ := hvisits.runAmong_racesTo hwin s.draws 0 others s.drawnBus
    rw [step_contendedCmd hdec hforeign hs]
    rcases hends with ⟨hstop, hlen⟩ | ⟨hstop, hnext⟩
    · exact ⟨_, own, State.finish_of_completed hstop, hraces, rfl, .inl ⟨rfl, hlen⟩⟩
    · exact ⟨_, own, State.finish_of_refused hstop, hraces, rfl, .inr ⟨rfl, hnext⟩⟩
  · obtain ⟨own, hraces, hends⟩ := (hvisits.cut (Config.resetPoint s.draws)).runAmong_racesTo
      (fun a ha => hwin a (List.mem_of_mem_take ha)) s.draws 0 others s.drawnBus
    rw [step_resetDuringCmd hdec hforeign hs]
    exact ⟨_, own, State.finishByReset_of_endsAfter hends, hraces.of_cut, rfl⟩

/-! ### Bytes that only the other agents write -/

/-- Every access that a sequence begins with falls on one of its addresses. -/
theorem BusProg.Visits.addr_mem_of_begins {x : BusProg} {l : List Addr} (h : x.Visits l) {own : List Access}
    (hown : x.begins own) : ∀ y ∈ own, y.addr ∈ l := by
  induction h generalizing own with
  | done =>
    cases own with
    | nil => simp
    | cons _ _ => exact hown.elim
  | @read a k l _ ih =>
    rcases own with _ | ⟨⟨a', v⟩ | ⟨a', v⟩, own⟩
    · simp
    · obtain ⟨rfl, hrest⟩ := hown
      simpa using fun y hy => Or.inr (ih v hrest y hy)
    · exact hown.elim
  | @write a v k l _ ih =>
    rcases own with _ | ⟨⟨a', v'⟩ | ⟨a', v'⟩, own⟩
    · simp
    · exact hown.elim
    · obtain ⟨rfl, rfl, hrest⟩ := hown
      simpa using fun y hy => Or.inr (ih hrest y hy)

/-- An access changes no byte but its own. -/
theorem Memory.read_replay_cons_other (p : Platform) (m : Memory) {z : Access} {a : Addr} (h : z.addr ≠ a) :
    (m.replay p [z]).read a = m.read a := by
  cases z with
  | read a' v => rfl
  | write a' v =>
    simp only [replay_write, replay_nil]
    split
    · rfl
    · exact m.read_write_other v h.symm

/-- The same access leaves the same byte where the same byte stood. -/
theorem Memory.read_replay_congr (p : Platform) {m m' : Memory} {a : Addr} (h : m.read a = m'.read a) (z : Access) :
    (m.replay p [z]).read a = (m'.replay p [z]).read a := by
  cases z with
  | read a' v => exact h
  | write a' v =>
    simp only [replay_write, replay_nil]
    split
    · exact h
    · simp only [read_write, h]

/-- A byte that none of one party's accesses reach ends as the other party leaves it, whatever the interleaving. -/
theorem Interleaves.read_replay {p : Platform} {own foreign all : List Access} (h : Interleaves own foreign all)
    {a : Addr} (hown : ∀ y ∈ own, y.addr ≠ a) {m m' : Memory} (hm : m.read a = m'.read a) :
    (m.replay p all).read a = (m'.replay p foreign).read a := by
  induction all generalizing own foreign m m' with
  | nil =>
    obtain ⟨rfl, rfl⟩ := h
    exact hm
  | cons z all ih =>
    rw [Memory.replay_cons p m]
    rcases h with ⟨own', rfl, hrest⟩ | ⟨foreign', rfl, hrest⟩
    · refine ih hrest (fun y hy => hown y (by simp [hy])) ?_
      rw [Memory.read_replay_cons_other p m (hown z (by simp)), hm]
    · rw [Memory.replay_cons p m']
      exact ih hrest hown (Memory.read_replay_congr p hm z)

theorem Memory.replay_writes_of_no_device {p : Platform} (hdev : p.device = []) (m : Memory)
    (others : List (Addr × Byte)) :
    m.replay p (others.map fun o => .write o.1 o.2) = others.foldl (fun m o => m.write o.1 o.2) m := by
  have hplain (a : Addr) : p.isDevice a = false := by simp [Platform.isDevice, hdev]
  induction others generalizing m with
  | nil => rfl
  | cons o others ih => simp [hplain, ih]

/-- Settles O14: of the interleaving that O51 gives, only the foreign writes reach the byte. -/
theorem contendedCommandSparesOtherBytes : Obligations.ContendedCommandSparesOtherBytes := by
  intro s c i others rest hdec hdev hs hwin hforeign
  obtain ⟨t, own, hstep, ⟨hbegins, -, all, hinter, -, hmem⟩, hframe, hstatus⟩ :=
    (disturbedCommandsAreInterleavings s c i others rest hdec hwin hforeign).1 hs
  refine ⟨t, hstep, hframe, hstatus.imp And.left And.left, fun a ha => ?_⟩
  have hspared : ∀ y ∈ own, y.addr ≠ a := by
    rintro y hy rfl
    exact ha ((program_visits i s.operands).addr_mem_of_begins hbegins y hy)
  rw [hmem, hinter.read_replay hspared rfl, Memory.replay_writes_of_no_device hdev]

end Sys2Proof.Machine
end

section
/-! SUPPORT. Undisturbed runs: a command whose accesses are all permitted completes (R71), and a sprite command is its
drawn rows, one after the other (R50, R87, R94). -/

namespace Sys2Proof.Machine

/-! ### Runs that nothing stops -/

/-- A run that nothing stops comes to its end and makes each access (R71). -/
theorem BusProg.Visits.run_completes {p : Platform} {x : BusProg} {l : List Addr} (h : x.Visits l)
    (hok : ∀ a ∈ l, p.check a = none) (b : Bus) :
    (x.run p b).stop = none ∧
      ∃ own : List Access, (x.run p b).bus.log = own.reverse ++ b.log ∧ own.map Access.addr = l := by
  induction h generalizing b with
  | done => exact ⟨rfl, [], rfl, rfl⟩
  | @read a k l _ ih =>
    have hrest : ∀ a' ∈ l, p.check a' = none := fun a' ha' => hok a' (by simp [ha'])
    obtain ⟨hstop, own, hlog, hown⟩ := ih (b.valueAt p a) hrest (b.afterRead p a)
    rw [run_read p a k b (hok a (by simp))]
    exact ⟨hstop, .read a (b.valueAt p a) :: own, by simp [hlog], by simp [hown]⟩
  | @write a v k l _ ih =>
    have hrest : ∀ a' ∈ l, p.check a' = none := fun a' ha' => hok a' (by simp [ha'])
    obtain ⟨hstop, own, hlog, hown⟩ := ih hrest (b.afterWrite p a v)
    rw [run_write p a v k b (hok a (by simp))]
    exact ⟨hstop, .write a v :: own, by simp [hlog], by simp [hown]⟩

/-- Settles O36: no command's addresses depend on what it reads, so the permitted list is the one it accesses. -/
theorem permittedCommandCompletes : Obligations.PermittedCommandCompletes := by
  intro i s hok
  obtain ⟨hstop, own, hlog, hown⟩ := (program_visits i s.operands).run_completes hok s.bus
  refine ⟨_, (exec_eq_runCommand i s).trans (State.finish_of_completed hstop), rfl, by simp [State.sameRegisters], ?_⟩
  simpa [RunEnd.performed, hlog] using hown

/-! ### The rows and the words that a sprite command draws -/

/-- The screen rows from `y` on, `h` of them, that are on screen (R86). -/
def drawnRows (y h : Int) : List Nat := List.range' (max 0 y).toNat (min (y + h) 400 - max 0 y).toNat

/-- The compositor's row loop runs over the drawn rows; a no-op height draws none (R86, R94). -/
theorem compose_eq_drawnRows {w : WordWidth} {mode : Mode} {o : Operands} {g : Regime} (hg : hclip o.x w = some g) :
    compose w mode o = .seqAll ((drawnRows o.y o.h).map (composeRow w mode o (targets w g))) := by
  unfold compose
  cases hv : vclip o.y o.h with
  | none =>
    have hnone := (vclip_eq_none _ _).mp hv
    have hcount : (min (o.y + o.h) 400 - max 0 o.y).toNat = 0 := by omega
    simp [drawnRows, hcount]
  | some rows =>
    obtain ⟨first, last⟩ := rows
    obtain ⟨hfirst, hlast, hle, -⟩ := vclip_eq_some hv
    have hstart : (max 0 o.y).toNat = first := by omega
    have hcount : (min (o.y + o.h) 400 - max 0 o.y).toNat = last + 1 - first := by omega
    simp [drawnRows, hg, hstart, hcount]

theorem compose_of_no_column {w : WordWidth} {mode : Mode} {o : Operands} (hg : hclip o.x w = none) :
    compose w mode o = .done := by
  unfold compose
  split
  · rfl
  · rw [hg]

/-- The word indices of the target words, by the sprite's column (R89 to R91). -/
theorem map_widx_targets {x : Int} {w : WordWidth} {g : Regime} (hg : hclip x w = some g) :
    (targets w g).map Target.widx =
      if x < 0 then [0]
      else if x > 640 - (wordBits w : Int) then [640 / wordBits w - 1]
      else if x % (wordBits w : Int) = 0 then [(x / (wordBits w : Int)).toNat]
      else [(x / (wordBits w : Int)).toNat, (x / (wordBits w : Int)).toNat + 1] := by
  cases g with
  | left m =>
    obtain ⟨hneg, -⟩ := hclip_eq_left hg
    rw [if_pos hneg]
    rfl
  | right m =>
    have hw := wordBits_cases w
    obtain ⟨hright, -⟩ := hclip_eq_right hg
    rw [if_neg (by omega), if_pos (by omega)]
    rfl
  | full k m =>
    obtain ⟨hx, hfits, hk, hm, -⟩ := hclip_eq_full hg
    rw [if_neg (by omega), if_neg (by omega), ← hk, ← hm]
    by_cases hm0 : m = 0 <;> simp [targets, hm0]

theorem byteAddrs_eq_map_range (n : Nat) (a : Addr) :
    byteAddrs n a = (List.range n).map fun j => a + BitVec.ofNat 32 j := by
  induction n generalizing a with
  | zero => rfl
  | succ n ih => simp [byteAddrs, ih, List.range_succ_eq_map, add_one_add_ofNat, Function.comp_def]

/-- Settles O41: row by row the bitmap word, and then each target word for its read and its write. -/
theorem spriteAccessOrder : Obligations.SpriteAccessOrder := by
  intro o i w mode hk hh hy hyh hxl hxr first last bytes words
  obtain ⟨g, hg⟩ : ∃ g, hclip o.x w = some g := by
    have hsome : hclip o.x w ≠ none := fun hnone => by
      have := (hclip_eq_none o.x w).mp hnone
      omega
    exact Option.ne_none_iff_exists'.mp hsome
  have hrows : drawnRows o.y o.h = List.range' first.toNat (last - first + 1).toNat := by
    rw [drawnRows, show min (o.y + o.h) 400 - max 0 o.y = last - first + 1 by omega]
  have hwords : words = (targets w g).map Target.widx := (map_widx_targets hg).symm
  have hvisits := BusProg.Visits.seqAll_map _ _ (drawnRows o.y o.h) (visits_composeRow w mode o (targets w g))
  rw [program_eq_compose hk, compose_eq_drawnRows hg, hvisits.addresses_eq, hrows, hwords]
  simp only [byteAddrs_eq_map_range, List.flatMap_map]
  rfl

/-! ### One row more -/

theorem BusProg.seq_assoc (x y z : BusProg) : (x.seq y).seq z = x.seq (y.seq z) := by
  induction x with
  | done => rfl
  | read a k ih => simp only [seq, ih]
  | write a v k ih => simp only [seq, ih]

theorem BusProg.seqAll_append (xs ys : List BusProg) :
    BusProg.seqAll (xs ++ ys) = (BusProg.seqAll xs).seq (BusProg.seqAll ys) := by
  induction xs with
  | nil => rfl
  | cons x xs ih => simp [ih, seq_assoc]

/-- A row more of height is a drawn row more where that row is on screen. -/
theorem drawnRows_succ (y : Int) (n : Nat) : drawnRows y (n + 1) = drawnRows y n ++ drawnRows (y + n) 1 := by
  unfold drawnRows
  by_cases hrow : 0 ≤ y + n ∧ y + n < 400
  · rw [show (min (y + (n + 1)) 400 - max 0 y).toNat = (min (y + n) 400 - max 0 y).toNat + 1 by omega,
      show (min (y + n + 1) 400 - max 0 (y + n)).toNat = 1 by omega,
      show (max 0 (y + n)).toNat = (max 0 y).toNat + (min (y + n) 400 - max 0 y).toNat by omega,
      List.range'_append_1]
  · rw [show (min (y + (n + 1)) 400 - max 0 y).toNat = (min (y + n) 400 - max 0 y).toNat by omega,
      show (min (y + n + 1) 400 - max 0 (y + n)).toNat = 0 by omega]
    simp

theorem eq_of_mem_drawnRows_one {y : Int} {r : Nat} (h : r ∈ drawnRows y 1) : (r : Int) = y := by
  simp only [drawnRows, List.mem_range'_1] at h
  omega

/-- The operands with another height. -/
def Operands.withHeight (o : Operands) (h : Int) : Operands := { o with h := h }

/-- The operands of the row below `n` rows: height 1, and the bitmap from its row `n` on (R87). -/
def Operands.rowBelow (o : Operands) (w : WordWidth) (n : Nat) : Operands :=
  { o with y := o.y + n, h := 1, bm := o.bm + BitVec.ofNat 32 (n * wordBytes w) }

/-- Alone, the row below `n` rows reads the same bitmap row and composes the same words (R87). -/
theorem composeRow_rowBelow {w : WordWidth} {mode : Mode} {o : Operands} {ts : List Target} {n r : Nat}
    (hr : (r : Int) = o.y + n) : composeRow w mode (o.rowBelow w n) ts r = composeRow w mode o ts r := by
  have hfirst : ((r : Int) - (o.y + n)).toNat = 0 := by omega
  have hnth : ((r : Int) - o.y).toNat = n := by omega
  simp [composeRow, Operands.rowBelow, bitmapRowAddr, hfirst, hnth]

/-- The composition of `n + 1` rows is that of `n` rows and then that of the row below them (R94). -/
theorem compose_succ (w : WordWidth) (mode : Mode) (o : Operands) (n : Nat) :
    compose w mode (o.withHeight (n + 1)) =
      (compose w mode (o.withHeight n)).seq (compose w mode (o.rowBelow w n)) := by
  cases hg : hclip o.x w with
  | none =>
    rw [compose_of_no_column (o := o.withHeight (n + 1)) hg, compose_of_no_column (o := o.withHeight n) hg,
      compose_of_no_column (o := o.rowBelow w n) hg]
    rfl
  | some g =>
    have hrow : (drawnRows (o.y + n) 1).map (composeRow w mode (o.rowBelow w n) (targets w g)) =
        (drawnRows (o.y + n) 1).map (composeRow w mode o (targets w g)) :=
      List.map_congr_left fun r hr => composeRow_rowBelow (eq_of_mem_drawnRows_one hr)
    rw [compose_eq_drawnRows (o := o.withHeight (n + 1)) hg, compose_eq_drawnRows (o := o.withHeight n) hg,
      compose_eq_drawnRows (o := o.rowBelow w n) hg]
    calc BusProg.seqAll ((drawnRows o.y (n + 1)).map (composeRow w mode o (targets w g)))
      _ = (BusProg.seqAll ((drawnRows o.y n).map (composeRow w mode o (targets w g)))).seq
            (BusProg.seqAll ((drawnRows (o.y + n) 1).map (composeRow w mode o (targets w g)))) := by
          rw [drawnRows_succ, List.map_append, BusProg.seqAll_append]
      _ = _ := by rw [← hrow]; rfl

/-! ### Two commands, one after the other -/

/-- A run depends on memory and on the count of draws, and not on the accesses that went before. -/
theorem BusProg.run_congr (p : Platform) (x : BusProg) {b b' : Bus} (hmem : b.mem = b'.mem)
    (hdraws : b.draws = b'.draws) :
    (x.run p b).stop = (x.run p b').stop ∧ (x.run p b).bus.mem = (x.run p b').bus.mem ∧
      (x.run p b).bus.draws = (x.run p b').bus.draws := by
  induction x generalizing b b' with
  | done => exact ⟨rfl, hmem, hdraws⟩
  | read a k ih =>
    cases h : p.check a with
    | none =>
      rw [run_read p a k b h, run_read p a k b' h,
        show b.valueAt p a = b'.valueAt p a by simp only [Bus.valueAt, hmem, hdraws]]
      exact ih _ hmem (by simp only [Bus.afterRead, hdraws])
    | some e =>
      rw [run_read_stopped p a k b e h, run_read_stopped p a k b' e h]
      exact ⟨rfl, hmem, hdraws⟩
  | write a v k ih =>
    cases h : p.check a with
    | none =>
      rw [run_write p a v k b h, run_write p a v k b' h]
      exact ih (by simp only [Bus.afterWrite_mem, hmem]) hdraws
    | some e =>
      rw [run_write_stopped p a v k b e h, run_write_stopped p a v k b' e h]
      exact ⟨rfl, hmem, hdraws⟩

theorem State.finish_congr (s : State) {r r' : RunEnd} (hstop : r.stop = r'.stop) (hmem : r.bus.mem = r'.bus.mem)
    (hdraws : r.bus.draws = r'.bus.draws) : s.finish r = s.finish r' := by
  simp only [finish, withBus, hstop, hmem, hdraws]

/-- A sequence leaves what its two parts leave, where the first, from `s`, ended OK in `u` and the second ran from a
state `u'` with the memory and the draws of `u`; the operand registers that gave the parts do not matter (R50). -/
theorem State.runCommand_seq {s s' u u' v : State} {x y : BusProg} (hx : s.runCommand x = .next u)
    (hok : u.status = 0x00000000#32) (hy : u'.runCommand y = .next v) (hplatform : s'.platform = s.platform)
    (hbus : s'.bus = s.bus) (hplatform' : u'.platform = u.platform) (hbus' : u'.bus = u.bus) :
    s'.runCommand (x.seq y) = .next { s' with mem := v.mem, status := v.status, draws := v.draws } := by
  rcases finish_cases hx with ⟨hstop, rfl⟩ | ⟨-, rfl⟩
  · obtain ⟨hstop', hmem, hdraws⟩ := y.run_congr s.platform (b := (x.run s.platform s.bus).bus)
      (b' := (s.withBus (x.run s.platform s.bus).bus).complete.bus) rfl rfl
    rw [runCommand, hplatform', hbus', complete_platform, withBus_platform] at hy
    rw [← finish_eq_next s' hy, runCommand, hplatform, hbus, BusProg.run_seq, hstop]
    exact s'.finish_congr hstop' hmem hdraws
  · simp at hok

/-! ### The halves of a packed register -/

theorem lowHalf_pack (lo hi : Int) (hlo : -32768 ≤ lo ∧ lo ≤ 32767) : lowHalf (pack lo hi) = lo := by
  rw [lowHalf, pack, BitVec.extractLsb'_append_eq_right, BitVec.toInt_ofInt, Int.bmod_eq_of_le] <;> omega

theorem highHalf_pack (lo hi : Int) (hhi : -32768 ≤ hi ∧ hi ≤ 32767) : highHalf (pack lo hi) = hi := by
  rw [highHalf, pack, BitVec.extractLsb'_append_eq_left, BitVec.toInt_ofInt, Int.bmod_eq_of_le] <;> omega

theorem lowHalf_bounds (v : Word) : -32768 ≤ lowHalf v ∧ lowHalf v ≤ 32767 := by
  have hle := BitVec.le_toInt (v.extractLsb' 0 16)
  have hlt := BitVec.toInt_lt (x := v.extractLsb' 0 16)
  simp only [lowHalf]
  omega

/-- The operands of a register file whose ARG1 was packed from numbers in range (R15, R62). -/
theorem State.operands_of_arg1_eq_pack {s : State} {y h : Int} (harg1 : s.arg1 = pack y h)
    (hy : -32768 ≤ y ∧ y ≤ 32767) (hh : -32768 ≤ h ∧ h ≤ 32767) :
    s.operands = ⟨s.fbBase, s.bmBase, lowHalf s.arg0, highHalf s.arg0, y, h⟩ := by
  simp only [operands, harg1, lowHalf_pack y h hy, highHalf_pack y h hh]

theorem exec_sprite {i : Instr} {w : WordWidth} {mode : Mode} (hk : spriteKind i = some (w, mode)) (s : State) :
    exec i s = s.runCommand (compose w mode s.operands) := by
  rw [exec_eq_runCommand, program_eq_compose hk]

/-- Settles O27: `n + 1` rows are the run of `n` rows and then that of the row below them. -/
theorem spriteRowsComposeOneByOne : Obligations.SpriteRowsComposeOneByOne := by
  intro s u v i w mode n hk hn hyn hu hok hv
  have hy := lowHalf_bounds s.arg1
  have hheight (h : Int) (hh : 0 ≤ h ∧ h ≤ 32767) :
      ({ s with arg1 := pack (lowHalf s.arg1) h } : State).operands = s.operands.withHeight h :=
    State.operands_of_arg1_eq_pack rfl hy (by omega)
  rw [exec_sprite hk, hheight n (by omega)] at hu
  obtain ⟨hfb, -, harg0, -⟩ := State.sameRegisters_of_finish hu
  have hbelow : ({ u with
      arg1 := pack (lowHalf s.arg1 + n) 1
      bmBase := s.bmBase + BitVec.ofNat 32 (n * wordBytes w) } : State).operands = s.operands.rowBelow w n := by
    rw [State.operands_of_arg1_eq_pack rfl (by omega) (by omega), hfb, harg0]
    rfl
  rw [exec_sprite hk, hbelow] at hv
  rw [exec_sprite hk, hheight (n + 1) (by omega), compose_succ]
  -- `simp only` and not `rfl`, which would evaluate the packed registers
  apply State.runCommand_seq hu hok hv <;> simp only [State.bus]

end Sys2Proof.Machine
end

section
/-! SUPPORT. Command words: the fields of a word (R57), the word of each command (R65), and the words that name a
command (R61, R64). -/

namespace Sys2Proof

open Laws

/-! ### A word and its fields (R57) -/

theorem ofBool_getLsbD_eq_extractLsb' {w : Nat} (v : BitVec w) (i : Nat) :
    BitVec.ofBool (v.getLsbD i) = v.extractLsb' i 1 := by
  ext k hk
  obtain rfl : k = 0 := by omega
  simp [BitVec.getElem_ofBool]

/-- A word with RSVD = 0 is the word of its own fields: they stand side by side and cover it. -/
theorem cmdWord_fields {c : Word} (h : cmdRsvd c = 0#24) :
    cmdWord (cmdOp c) (cmdWsel c) (cmdDestr c) (cmdInv c) = c := by
  simp only [cmdWord, ← h, cmdRsvd, cmdInv, cmdDestr, cmdWsel, cmdOp, ofBool_getLsbD_eq_extractLsb']
  iterate 4 rw [BitVec.extractLsb'_append_extractLsb'_eq_extractLsb' (by rfl)]
  exact BitVec.extractLsb'_eq_self

/-- Bits [7:6] are INV and DESTR. -/
theorem extractLsb'_six_two (c : Word) :
    c.extractLsb' 6 2 = BitVec.ofBool (cmdInv c) ++ BitVec.ofBool (cmdDestr c) := by
  simp only [cmdInv, cmdDestr, ofBool_getLsbD_eq_extractLsb']
  rw [BitVec.extractLsb'_append_extractLsb'_eq_extractLsb' (by rfl)]

/-- Bits [7:4] are INV, DESTR and WSEL. -/
theorem extractLsb'_four_four (c : Word) :
    c.extractLsb' 4 4 = BitVec.ofBool (cmdInv c) ++ BitVec.ofBool (cmdDestr c) ++ cmdWsel c := by
  rw [← extractLsb'_six_two, cmdWsel, BitVec.extractLsb'_append_extractLsb'_eq_extractLsb' (by rfl)]

theorem extractLsb'_six_two_eq_zero {c : Word} :
    c.extractLsb' 6 2 = 0#2 ↔ cmdDestr c = false ∧ cmdInv c = false := by
  rw [extractLsb'_six_two]
  generalize cmdDestr c = destr, cmdInv c = inv
  revert destr inv
  decide

theorem extractLsb'_four_four_eq_zero {c : Word} :
    c.extractLsb' 4 4 = 0#4 ↔ cmdWsel c = 0#2 ∧ cmdDestr c = false ∧ cmdInv c = false := by
  rw [extractLsb'_four_four]
  generalize cmdWsel c = wsel, cmdDestr c = destr, cmdInv c = inv
  revert wsel destr inv
  decide

/-! ### The word of each command (R65) -/

/-- The value of WSEL that selects a width (R59). -/
def WordWidth.wsel : WordWidth → BitVec 2
  | .w8 => 0
  | .w16 => 1
  | .w32 => 2

theorem decodeWidth_eq_some {wsel : BitVec 2} {w : WordWidth} : decodeWidth wsel = some w ↔ wsel = w.wsel := by
  revert wsel
  cases w <;> decide

theorem decodeWidth_eq_none {wsel : BitVec 2} : decodeWidth wsel = none ↔ wsel = 3#2 := by
  revert wsel
  decide

/-- Every value of WSEL but the reserved one selects a width (R59). -/
theorem exists_eq_wsel {wsel : BitVec 2} : (∃ w : WordWidth, wsel = w.wsel) ↔ wsel ≠ 3#2 := by
  simp only [← decodeWidth_eq_some, ← decodeWidth_eq_none, ne_eq, ← Option.isSome_iff_exists,
    Option.isSome_iff_ne_none]

theorem encode_blitInstr (w : WordWidth) (destr inv : Bool) :
    encode (blitInstr w destr inv) = cmdWord 5 w.wsel destr inv := by
  cases w <;> cases destr <;> cases inv <;> rfl

theorem encode_alphaInstr (w : WordWidth) : encode (alphaInstr w) = cmdWord 6 w.wsel false false := by
  cases w <;> rfl

theorem exists_encode_plain {op : BitVec 4} (h : op.toNat ≤ 4) : ∃ i, encode i = cmdWord op 0 false false := by
  have hop : op = 0#4 ∨ op = 1#4 ∨ op = 2#4 ∨ op = 3#4 ∨ op = 4#4 := by bv_omega
  rcases hop with rfl | rfl | rfl | rfl | rfl
  exacts [⟨.nop, rfl⟩, ⟨.plot, rfl⟩, ⟨.hline, rfl⟩, ⟨.fillrect, rfl⟩, ⟨.clearrect, rfl⟩]

/-! ### What the decoder accepts (R61, R64) -/

theorem decodePlain_eq_ok {c : Word} {i j : Instr} :
    decodePlain c i = .ok j ↔ c.extractLsb' 4 4 = 0#4 ∧ i = j := by
  unfold decodePlain
  split <;> simp_all

/-- What a word of OP 0 to 4 decodes to is the command of its OP, with the other fields 0. -/
theorem decodePlain_cases {c : Word} {i j : Instr} {n : Nat} (hn : n ≤ 4)
    (hj : encode j = cmdWord (BitVec.ofNat 4 n) 0 false false) (hop : (cmdOp c).toNat = n)
    (h : decodePlain c j = .ok i) :
    (cmdOp c).toNat ≤ 4 ∧ c.extractLsb' 4 4 = 0#4 ∧ encode i = cmdWord (cmdOp c) 0 false false := by
  obtain ⟨hbits, rfl⟩ := decodePlain_eq_ok.mp h
  refine ⟨hop ▸ hn, hbits, ?_⟩
  rw [hj, ← hop, BitVec.ofNat_toNat, BitVec.setWidth_eq]

theorem decodeBlit_eq_ok {c : Word} {i : Instr} :
    decodeBlit c = .ok i ↔ ∃ w : WordWidth, cmdWsel c = w.wsel ∧ blitInstr w (cmdDestr c) (cmdInv c) = i := by
  simp only [← decodeWidth_eq_some, decodeBlit]
  cases decodeWidth (cmdWsel c) <;> simp

theorem decodeAlpha_eq_ok {c : Word} {i : Instr} :
    decodeAlpha c = .ok i ↔ ∃ w : WordWidth, cmdWsel c = w.wsel ∧ c.extractLsb' 6 2 = 0#2 ∧ alphaInstr w = i := by
  simp only [← decodeWidth_eq_some, decodeAlpha, extractLsb'_six_two_eq_zero]
  cases decodeWidth (cmdWsel c) <;> cases cmdDestr c <;> cases cmdInv c <;> simp

/-- The fields of a word that decodes, and the command they select: one case for OP 0 to 4, one for OP 5 and one for
OP 6. -/
theorem decode_cases {c : Word} {i : Instr} (h : decode c = .ok i) :
    cmdRsvd c = 0#24 ∧
      (((cmdOp c).toNat ≤ 4 ∧ c.extractLsb' 4 4 = 0#4 ∧ encode i = cmdWord (cmdOp c) 0 false false) ∨
       (cmdOp c = 5#4 ∧ ∃ w : WordWidth, cmdWsel c = w.wsel ∧ blitInstr w (cmdDestr c) (cmdInv c) = i) ∨
       (cmdOp c = 6#4 ∧ ∃ w : WordWidth, cmdWsel c = w.wsel ∧ c.extractLsb' 6 2 = 0#2 ∧ alphaInstr w = i)) := by
  unfold decode at h
  split at h
  · next hrsvd =>
    refine ⟨hrsvd, ?_⟩
    split at h
    case h_1 hop | h_2 hop | h_3 hop | h_4 hop | h_5 hop => exact .inl (decodePlain_cases (by decide) rfl hop h)
    case h_6 hop => exact .inr (.inl ⟨BitVec.eq_of_toNat_eq hop, decodeBlit_eq_ok.mp h⟩)
    case h_7 hop => exact .inr (.inr ⟨BitVec.eq_of_toNat_eq hop, decodeAlpha_eq_ok.mp h⟩)
    case h_8 => cases h
  · cases h

/-- A word that decodes has the fields of its command's word, and so is that word. -/
theorem eq_encode_of_decode {c : Word} {i : Instr} (h : decode c = .ok i) : c = encode i := by
  obtain ⟨hrsvd, hcases⟩ := decode_cases h
  rw [← cmdWord_fields hrsvd]
  rcases hcases with ⟨-, hbits, hi⟩ | ⟨hop, w, hw, rfl⟩ | ⟨hop, w, hw, hbits, rfl⟩
  · obtain ⟨hwsel, hdestr, hinv⟩ := extractLsb'_four_four_eq_zero.mp hbits
    rw [hwsel, hdestr, hinv, hi]
    rfl
  · rw [hop, hw, encode_blitInstr]
    rfl
  · obtain ⟨hdestr, hinv⟩ := extractLsb'_six_two_eq_zero.mp hbits
    rw [hop, hw, hdestr, hinv, encode_alphaInstr]
    rfl

theorem decode_encode : ∀ i, decode (encode i) = .ok i
  | .nop => RoundTrip.nop.2
  | .plot => RoundTrip.plot.2
  | .hline => RoundTrip.hline.2
  | .fillrect => RoundTrip.fillrect.2
  | .clearrect => RoundTrip.clearrect.2
  | .blit8Or => RoundTrip.blit8Or.2
  | .blit8Xor => RoundTrip.blit8Xor.2
  | .blit8Rep => RoundTrip.blit8Rep.2
  | .blit8Repinv => RoundTrip.blit8Repinv.2
  | .blit16Or => RoundTrip.blit16Or.2
  | .blit16Xor => RoundTrip.blit16Xor.2
  | .blit16Rep => RoundTrip.blit16Rep.2
  | .blit16Repinv => RoundTrip.blit16Repinv.2
  | .blit32Or => RoundTrip.blit32Or.2
  | .blit32Xor => RoundTrip.blit32Xor.2
  | .blit32Rep => RoundTrip.blit32Rep.2
  | .blit32Repinv => RoundTrip.blit32Repinv.2
  | .alpha8 => RoundTrip.alpha8.2
  | .alpha16 => RoundTrip.alpha16.2
  | .alpha32 => RoundTrip.alpha32.2

theorem decode_eq_ok_iff {c : Word} {i : Instr} : decode c = .ok i ↔ c = encode i :=
  ⟨eq_encode_of_decode, fun h => h ▸ decode_encode i⟩

/-- Settles O3: the decoder's cases give back the fields of the command's word, and these are the whole word. -/
theorem decodeAndEncodeAreInverse : Obligations.DecodeAndEncodeAreInverse :=
  ⟨fun i _ => decode_encode i, fun _ _ => eq_encode_of_decode⟩

/-! ### Legal words (R61) -/

theorem legal_iff_exists_encode {c : Word} : legal c = true ↔ ∃ i, c = encode i := by
  simp only [← decode_eq_ok_iff, legal]
  cases decode c <;> simp

/-- R61's rule on the fields: with RSVD = 0 the other fields are the whole word. -/
theorem legal_iff_fields {c : Word} : legal c = true ↔
    cmdRsvd c = 0#24 ∧ (((cmdOp c).toNat ≤ 4 ∧ c.extractLsb' 4 4 = 0#4) ∨ (cmdOp c = 5#4 ∧ cmdWsel c ≠ 3#2) ∨
      (cmdOp c = 6#4 ∧ cmdWsel c ≠ 3#2 ∧ c.extractLsb' 6 2 = 0#2)) := by
  rw [legal_iff_exists_encode]
  constructor
  · rintro ⟨i, hi⟩
    obtain ⟨hrsvd, hcases⟩ := decode_cases (decode_eq_ok_iff.mpr hi)
    refine ⟨hrsvd, ?_⟩
    rcases hcases with ⟨hop, hbits, -⟩ | ⟨hop, w, hw, -⟩ | ⟨hop, w, hw, hbits, -⟩
    · exact .inl ⟨hop, hbits⟩
    · exact .inr (.inl ⟨hop, exists_eq_wsel.mp ⟨w, hw⟩⟩)
    · exact .inr (.inr ⟨hop, exists_eq_wsel.mp ⟨w, hw⟩, hbits⟩)
  · rintro ⟨hrsvd, hfields⟩
    rw [← cmdWord_fields hrsvd]
    rcases hfields with ⟨hop, hbits⟩ | ⟨hop, hwsel⟩ | ⟨hop, hwsel, hbits⟩
    · obtain ⟨hwsel, hdestr, hinv⟩ := extractLsb'_four_four_eq_zero.mp hbits
      obtain ⟨i, hi⟩ := exists_encode_plain hop
      exact ⟨i, by rw [hi, hwsel, hdestr, hinv]; rfl⟩
    · obtain ⟨w, hw⟩ := exists_eq_wsel.mpr hwsel
      exact ⟨blitInstr w (cmdDestr c) (cmdInv c), by rw [encode_blitInstr, hop, hw]; rfl⟩
    · obtain ⟨w, hw⟩ := exists_eq_wsel.mpr hwsel
      obtain ⟨hdestr, hinv⟩ := extractLsb'_six_two_eq_zero.mp hbits
      exact ⟨alphaInstr w, by rw [encode_alphaInstr, hop, hw, hdestr, hinv]; rfl⟩

theorem mem_allInstrs (i : Instr) : i ∈ allInstrs := by
  cases i <;> decide

theorem legal_iff_mem_words {c : Word} : legal c = true ↔ c ∈ allInstrs.map encode := by
  rw [legal_iff_exists_encode, List.mem_map]
  exact ⟨fun ⟨i, hi⟩ => ⟨i, mem_allInstrs i, hi.symm⟩, fun ⟨i, _, hi⟩ => ⟨i, hi.symm⟩⟩

/-! ### The table of R65 -/

/-- A command's row of R65's table: its word, its mnemonic, and the word's fields. -/
def tableRow (i : Instr) : Word × String × Nat × Nat × Bool × Bool :=
  (encode i, mnemonic i, (cmdOp (encode i)).toNat, (cmdWsel (encode i)).toNat, cmdDestr (encode i), cmdInv (encode i))

/-- Settles O1: the rows are those of `allInstrs`, in its order. -/
theorem commandWordsOfTheTable : Obligations.CommandWordsOfTheTable := by
  refine ⟨fun row hrow => ?_, fun i => ?_, fun _ _ => eq_encode_of_decode⟩
  · have hrows : row ∈ allInstrs.map tableRow := hrow
    obtain ⟨i, -, rfl⟩ := List.mem_map.mp hrows
    exact ⟨⟨i, decode_encode i, rfl, rfl⟩, rfl, rfl, rfl, rfl⟩
  · exact List.mem_map_of_mem (f := encode) (mem_allInstrs i)

end Sys2Proof

namespace Sys2Proof.Machine

/-! ### A CMD write of an illegal word -/

theorem step_cmdWrite {s : State} {c : Word} {rest : List HostAccess} (h : s.host = cmdWrite c :: rest) :
    step s = issue c { s with host := rest } :=
  step_eq_perform h

/-- An illegal word changes CMD and STATUS, and makes no access (R119). -/
theorem step_cmdWrite_illegal {s : State} {c : Word} {rest : List HostAccess} (hc : legal c = false)
    (h : s.host = cmdWrite c :: rest) :
    step s = .next { s with cmd := c, status := 0x00000011#32, host := rest } := by
  obtain ⟨e, hdec⟩ := exists_decode_error_of_illegal hc
  rw [step_cmdWrite h, issue, hdec]
  rfl

/-- Settles O2: the decoder's cases are R61's, and the words it accepts are those of the twenty commands. -/
theorem legalityRuleSelectsTheTwentyWords : Obligations.LegalityRuleSelectsTheTwentyWords :=
  ⟨fun _ => legal_iff_fields, fun _ => legal_iff_mem_words,
    fun _ _ _ hc hs => ⟨_, step_cmdWrite_illegal hc hs, rfl, rfl⟩⟩

end Sys2Proof.Machine
end

section
/-! SUPPORT. Host programs: the text of a command word (R68), and what the expansion of a pseudo-instruction leaves in
the operand registers (R67). -/

namespace Sys2Proof.Machine

/-! ### Hexadecimal digits (R68) -/

theorem hexDigitVal_hexDigit (d : BitVec 4) : hexDigitVal (hexDigit d) = some d.toNat := by
  revert d
  decide

theorem length_hexDigits (v : Word) (n : Nat) : (hexDigits v n).length = n := by
  induction n with
  | zero => rfl
  | succ n ih => rw [hexDigits, List.length_cons, ih]

/-- The `n` lowest digits of a word are read as the word modulo `16 ^ n`, below the digits read before them. -/
theorem digitsVal_hexDigits (v : Word) (n acc : Nat) :
    digitsVal 16 hexDigitVal (hexDigits v n) acc = some (acc * 16 ^ n + v.toNat % 16 ^ n) := by
  induction n generalizing acc with
  | zero => simp [hexDigits, digitsVal, Nat.mod_one]
  | succ n ih =>
    have hdigit : (v.extractLsb' (4 * n) 4).toNat = v.toNat / 16 ^ n % 16 := by
      rw [BitVec.extractLsb'_toNat, Nat.shiftRight_eq_div_pow, pow_mul]
      rfl
    simp only [hexDigits, digitsVal, hexDigitVal_hexDigit, ih, hdigit, Nat.mod_pow_succ]
    ring_nf

/-! ### Mnemonics (R65, R68) -/

theorem mnemonic_injective : Function.Injective mnemonic := by
  have hnodup : (allInstrs.map mnemonic).Nodup := by decide
  exact fun i j h => List.inj_on_of_nodup_map hnodup (mem_allInstrs i) (mem_allInstrs j) h

theorem disassemble_encode (i : Instr) : disassemble (encode i) = mnemonic i := by
  rw [disassemble, decode_encode]

/-- Settles O49: mnemonics are distinct, and the digits of an illegal word are read as the word. -/
theorem disassemblerNamesEveryWord : Obligations.DisassemblerNamesEveryWord := by
  refine ⟨?legal, ?illegal, ?distinct⟩
  case legal =>
    intro c i hdec
    rw [eq_encode_of_decode hdec, disassemble_encode]
  case illegal =>
    intro c hc
    obtain ⟨e, hdec⟩ := exists_decode_error_of_illegal hc
    refine ⟨hexDigits c 8, length_hexDigits c 8, by rw [disassemble, hdec], ?_⟩
    rw [digitsVal_hexDigits, Nat.zero_mul, Nat.zero_add, Nat.mod_eq_of_lt (b := 16 ^ 8) c.isLt]
  case distinct =>
    intro c c' hc hc' h
    obtain ⟨i, rfl⟩ := legal_iff_exists_encode.mp hc
    obtain ⟨j, rfl⟩ := legal_iff_exists_encode.mp hc'
    rw [disassemble_encode, disassemble_encode] at h
    rw [mnemonic_injective h]

/-! ### The writes of a pseudo-instruction (R62, R67) -/

theorem run_succ_of_step {s t : State} (h : step s = .next t) (k : Nat) :
    Host.Core.run core (k + 1) s = Host.Core.run core k t := by
  simp only [Host.Core.run, core, h]

theorem coordinateOk_iff {v : Int} : Stmt.coordinateOk v = true ↔ -32768 ≤ v ∧ v ≤ 32767 := by
  simp [Stmt.coordinateOk]

theorem coordinateOk_zero : Stmt.coordinateOk 0 = true := by decide

/-- The two operand writes of a drawing pseudo-instruction, up to its CMD write. -/
theorem run_drawAccesses {s : State} {arg0 arg1 : Word} {i : Instr} {rest : List HostAccess}
    (h : s.host = drawAccesses arg0 arg1 i ++ rest) :
    Host.Core.run core 2 s =
      .next { s with arg0 := arg0, arg1 := arg1, host := cmdWrite (encode i) :: rest } := by
  rw [run_succ_of_step (step_regWrite .arg0 nofun h), run_succ_of_step (step_regWrite .arg1 nofun rfl)]
  rfl

/-- Operands in range come out of the registers as they were packed (R15, R145). -/
theorem State.operands_of_packed {s : State} {x x2 y h : Int} (harg0 : s.arg0 = pack x x2) (harg1 : s.arg1 = pack y h)
    (hx : Stmt.coordinateOk x = true) (hx2 : Stmt.coordinateOk x2 = true) (hy : Stmt.coordinateOk y = true)
    (hh : Stmt.coordinateOk h = true) : s.operands = ⟨s.fbBase, s.bmBase, x, x2, y, h⟩ := by
  rw [coordinateOk_iff] at hx hx2 hy hh
  rw [operands_of_arg1_eq_pack harg1 hy hh, harg0, lowHalf_pack x x2 hx, highHalf_pack x x2 hx2]

/-- The two operand writes leave the numbers they packed as the operands, memory as it was, and the CMD write next. -/
theorem run_drawAccesses_operands {s : State} {x x2 y h : Int} {i : Instr} {rest : List HostAccess}
    (hx : Stmt.coordinateOk x = true) (hx2 : Stmt.coordinateOk x2 = true) (hy : Stmt.coordinateOk y = true)
    (hh : Stmt.coordinateOk h = true) (hs : s.host = drawAccesses (pack x x2) (pack y h) i ++ rest) :
    ∃ t, Host.Core.run core 2 s = .next t ∧ t.host = cmdWrite (encode i) :: rest ∧ t.mem = s.mem ∧
      t.operands = ⟨s.fbBase, s.bmBase, x, x2, y, h⟩ :=
  ⟨_, run_drawAccesses hs, rfl, rfl, State.operands_of_packed rfl rfl hx hx2 hy hh⟩

/-- Settles O48: every drawing pseudo-instruction ends with the same three writes, and one with a bitmap operand
begins with the write of BM_BASE. -/
theorem pseudoInstructionsSetTheOperands : Obligations.PseudoInstructionsSetTheOperands := by
  intro s rest x x2 y h hx hx2 hy hh
  have h0 := coordinateOk_zero
  refine ⟨?span, ?sprite, ?bitmap⟩
  case span =>
    intro st i e f hst hs
    simp only [List.mem_cons, List.not_mem_nil, or_false, Prod.mk.injEq] at hst
    rcases hst with ⟨rfl, rfl, rfl, rfl⟩ | ⟨rfl, rfl, rfl, rfl⟩ | ⟨rfl, rfl, rfl, rfl⟩ | ⟨rfl, rfl, rfl, rfl⟩
    · exact run_drawAccesses_operands hx h0 hy h0 hs
    · exact run_drawAccesses_operands hx hx2 hy h0 hs
    · exact run_drawAccesses_operands hx hx2 hy hh hs
    · exact run_drawAccesses_operands hx hx2 hy hh hs
  case sprite =>
    intro i _ hs
    exact run_drawAccesses_operands hx h0 hy hh hs
  case bitmap =>
    intro i bm _ hs
    rw [run_succ_of_step (step_regWrite .bmBase nofun hs)]
    exact run_drawAccesses_operands hx h0 hy hh rfl

end Sys2Proof.Machine
end

section
/-! SUPPORT. The issue of a legal word (R69), and the commands that make no access: NOP (R72), and a drawing command
whose clip leaves nothing to draw (R71, R76, R78, R86, R88). -/

namespace Sys2Proof.Machine

/-! ### Command issue -/

/-- Settles O5: a step with a CMD write is the issue of its word, and a word that decodes is run. -/
theorem stepRunsTheIssuedCommand : Obligations.StepRunsTheIssuedCommand := by
  intro s c i rest hdec _ hs
  rw [step_cmdWrite hs, issue, hdec]
  rfl

/-! ### Commands without an access -/

/-- A command whose sequence of accesses is empty completes, and changes STATUS only (R71). -/
theorem noOp_of_program_eq_done {i : Instr} {s : State} (h : program i s.operands = .done) :
    (program i s.operands).addresses = [] ∧ exec i s = .next { s with status := 0x00000000#32 } := by
  rw [exec_eq_runCommand, State.runCommand, h]
  exact ⟨rfl, rfl⟩

/-- Settles O16: NOP's sequence of accesses is empty, whatever the operands. -/
theorem nopOnlyClearsStatus : Obligations.NopOnlyClearsStatus :=
  ⟨decode_zero, fun _ => noOp_of_program_eq_done rfl⟩

theorem fillrectProg_of_no_rect {o : Operands} (h : rectClip o.x o.x2 o.y o.h = none) : fillrectProg o = .done := by
  rw [fillrectProg, h]

theorem clearrectProg_of_no_rect {o : Operands} (h : rectClip o.x o.x2 o.y o.h = none) :
    clearrectProg o = .done := by
  rw [clearrectProg, h]

theorem hlineProg_of_no_column {o : Operands} (h : hlineClip o.x o.x2 o.y = none) : hlineProg o = .done := by
  rw [hlineProg, h]

/-- Settles O20: RectClip and HLINE's clip leave nothing on exactly these operands. -/
theorem rectanglesAndLinesOffScreenAreNoOps : Obligations.RectanglesAndLinesOffScreenAreNoOps := by
  intro s x x2 y h
  refine ⟨fun hoff i hi => noOp_of_program_eq_done ?rectangle, fun hoff => noOp_of_program_eq_done ?line⟩
  case rectangle =>
    have hclip : rectClip x x2 y h = none := (rectClip_eq_none x x2 y h).mpr hoff
    simp only [List.mem_cons, List.not_mem_nil, or_false] at hi
    rcases hi with rfl | rfl
    · exact fillrectProg_of_no_rect hclip
    · exact clearrectProg_of_no_rect hclip
  case line =>
    have hclip : hlineClip x x2 y = none := (hlineClip_eq_none x x2 y).mpr (by omega)
    exact hlineProg_of_no_column hclip

theorem compose_of_no_row {w : WordWidth} {mode : Mode} {o : Operands} (hv : vclip o.y o.h = none) :
    compose w mode o = .done := by
  rw [compose, hv]

/-- Settles O24: the first three conditions leave VClip no row, the last two leave HClip no column. -/
theorem spritesOffScreenAreNoOps : Obligations.SpritesOffScreenAreNoOps := by
  intro s i w mode hk hoff
  have hclip : vclip (lowHalf s.arg1) (highHalf s.arg1) = none ∨ hclip (lowHalf s.arg0) w = none := by
    rw [vclip_eq_none, hclip_eq_none]
    omega
  have hdone : compose w mode s.operands = .done := by
    rcases hclip with hrow | hcolumn
    · exact compose_of_no_row hrow
    · exact compose_of_no_column hcolumn
  exact noOp_of_program_eq_done ((program_eq_compose hk s.operands).trans hdone)

end Sys2Proof.Machine
end

section
/-! SUPPORT. A command's accesses by kind and address, and the ones a run performs of them: where a sprite command is
stopped it is at a read, between two target words (R94, R120, C9). -/

namespace Sys2Proof.Machine

/-! ### The kinds of a command's accesses -/

/-- What kind of access it is (`true`: a write) and where. -/
def Access.kind (z : Access) : Bool × Addr := (z.isWrite, z.addr)

@[simp] theorem Access.kind_read (a : Addr) (v : Byte) : (Access.read a v).kind = (false, a) := rfl
@[simp] theorem Access.kind_write (a : Addr) (v : Byte) : (Access.write a v).kind = (true, a) := rfl

/-- Reads of these addresses, in order. -/
def readsOf (l : List Addr) : List (Bool × Addr) := l.map (Prod.mk false)

/-- Writes of these addresses, in order. -/
def writesOf (l : List Addr) : List (Bool × Addr) := l.map (Prod.mk true)

/-- Where the writes among accesses fall, in order. -/
def writtenAddrs (T : List (Bool × Addr)) : List Addr := (T.filter Prod.fst).map Prod.snd

@[simp] theorem writtenAddrs_append (T U : List (Bool × Addr)) :
    writtenAddrs (T ++ U) = writtenAddrs T ++ writtenAddrs U := by
  simp [writtenAddrs]

@[simp] theorem writtenAddrs_readsOf (l : List Addr) : writtenAddrs (readsOf l) = [] := by
  simp [writtenAddrs, readsOf]

@[simp] theorem writtenAddrs_writesOf (l : List Addr) : writtenAddrs (writesOf l) = l := by
  simp [writtenAddrs, writesOf, List.filter_map, Function.comp_def]

theorem writtenAddrs_map_kind (own : List Access) :
    writtenAddrs (own.map Access.kind) = (own.filter Access.isWrite).map Access.addr := by
  simp [writtenAddrs, List.filter_map, Function.comp_def, Access.kind]

/-- `BusProg.Visits` with the kind of each access: whatever its reads give, a sequence makes accesses of these kinds. -/
inductive BusProg.Makes : BusProg → List (Bool × Addr) → Prop where
  | done : Makes .done []
  | read {a : Addr} {k : Byte → BusProg} {T : List (Bool × Addr)} :
      (∀ v, Makes (k v) T) → Makes (.read a k) ((false, a) :: T)
  | write {a : Addr} {v : Byte} {k : BusProg} {T : List (Bool × Addr)} :
      Makes k T → Makes (.write a v k) ((true, a) :: T)

theorem BusProg.Makes.visits {x : BusProg} {T : List (Bool × Addr)} (h : x.Makes T) :
    x.Visits (T.map Prod.snd) := by
  induction h with
  | done => exact .done
  | read _ ih => exact .read ih
  | write _ ih => exact .write ih

theorem BusProg.Makes.seq {x y : BusProg} {T U : List (Bool × Addr)} (hx : x.Makes T) (hy : y.Makes U) :
    (x.seq y).Makes (T ++ U) := by
  induction hx with
  | done => exact hy
  | read _ ih => exact .read ih
  | write _ ih => exact .write ih

theorem BusProg.Makes.seqAll_map {ι : Type} (f : ι → BusProg) (g : ι → List (Bool × Addr)) (is : List ι)
    (h : ∀ i, (f i).Makes (g i)) : (BusProg.seqAll (is.map f)).Makes (is.flatMap g) := by
  induction is with
  | nil => exact .done
  | cons i is ih => exact (h i).seq ih

theorem BusProg.makes_readBE {w : Nat} (n : Nat) (a : Addr) (k : BitVec w → BusProg) (T : List (Bool × Addr))
    (h : ∀ v, (k v).Makes T) : (BusProg.readBE w a n k).Makes (readsOf (byteAddrs n a) ++ T) := by
  unfold readBE
  generalize 0 = acc
  induction n generalizing a acc with
  | zero => exact h _
  | succ n ih => exact .read fun v => ih _ _

theorem BusProg.makes_writeBE {w : Nat} (n : Nat) (a : Addr) (v : BitVec w) :
    (BusProg.writeBE n a v).Makes (writesOf (byteAddrs n a)) := by
  induction n generalizing a with
  | zero => exact .done
  | succ n ih => exact .write (ih _)

/-- A run performs the accesses up to the first that the check stops (R120). -/
theorem BusProg.Makes.run_log {p : Platform} {x : BusProg} {T : List (Bool × Addr)} (h : x.Makes T) (b : Bus) :
    ∃ own : List Access, (x.run p b).bus.log = own.reverse ++ b.log ∧
      own.map Access.kind = T.takeWhile fun e => (p.check e.2).isNone := by
  induction h generalizing b with
  | done => exact ⟨[], rfl, rfl⟩
  | @read a k T _ ih =>
    cases hc : p.check a with
    | none =>
      obtain ⟨own, hlog, hown⟩ := ih (b.valueAt p a) (b.afterRead p a)
      rw [run_read p a k b hc]
      exact ⟨.read a (b.valueAt p a) :: own, by simp [hlog], by simp [hown, hc]⟩
    | some e => rw [run_read_stopped p a k b e hc]; exact ⟨[], rfl, by simp [hc]⟩
  | @write a v k T _ ih =>
    cases hc : p.check a with
    | none =>
      obtain ⟨own, hlog, hown⟩ := ih (b.afterWrite p a v)
      rw [run_write p a v k b hc]
      exact ⟨.write a v :: own, by simp [hlog], by simp [hown, hc]⟩
    | some e => rw [run_write_stopped p a v k b e hc]; exact ⟨[], rfl, by simp [hc]⟩

/-- The accesses that a command's run performs, by kind. -/
theorem BusProg.Makes.performed {x : BusProg} {T : List (Bool × Addr)} (h : x.Makes T) (s : State) (p : Platform) :
    (x.run p s.bus).performed.map Access.kind = T.takeWhile fun e => (p.check e.2).isNone := by
  obtain ⟨own, hlog, hown⟩ := h.run_log (p := p) s.bus
  simpa [RunEnd.performed, hlog] using hown

/-! ### Accesses that are stopped between two words only -/

/-- However the check `ok` cuts these accesses short, it stops a read, and the writes before it are those of the first
few whole words of `words`, the bytes of a word `q` being `bytes q`. -/
structure StopsBetweenWords {ι : Type} (ok : Addr → Bool) (bytes : ι → List Addr) (T : List (Bool × Addr))
    (words : List ι) : Prop where
  all : writtenAddrs T = words.flatMap bytes
  beginning : ∃ whole, whole <+: words ∧ writtenAddrs (T.takeWhile fun e => ok e.2) = whole.flatMap bytes
  stop : ∀ e, T.find? (fun e => !ok e.2) = some e → e.1 = false

section
variable {ι : Type} {ok : Addr → Bool} {bytes : ι → List Addr}

theorem StopsBetweenWords.nil : StopsBetweenWords ok bytes [] [] :=
  ⟨rfl, ⟨[], List.prefix_rfl, rfl⟩, nofun⟩

theorem StopsBetweenWords.append {T U : List (Bool × Addr)} {ws vs : List ι}
    (hT : StopsBetweenWords ok bytes T ws) (hU : StopsBetweenWords ok bytes U vs) :
    StopsBetweenWords ok bytes (T ++ U) (ws ++ vs) where
  all := by simp [hT.all, hU.all]
  beginning := by
    rw [List.takeWhile_append]
    split
    · obtain ⟨whole, hpre, hw⟩ := hU.beginning
      exact ⟨ws ++ whole, (List.prefix_append_right_inj ws).mpr hpre, by simp [hT.all, hw]⟩
    · obtain ⟨whole, hpre, hw⟩ := hT.beginning
      exact ⟨whole, hpre.trans (List.prefix_append ws vs), hw⟩
  stop := fun e he => by
    rw [List.find?_append, Option.or_eq_some_iff] at he
    rcases he with he | ⟨-, he⟩
    · exact hT.stop e he
    · exact hU.stop e he

theorem StopsBetweenWords.flatMap {κ : Type} {f : κ → List (Bool × Addr)} {g : κ → List ι} (is : List κ)
    (h : ∀ i, StopsBetweenWords ok bytes (f i) (g i)) :
    StopsBetweenWords ok bytes (is.flatMap f) (is.flatMap g) := by
  induction is with
  | nil => exact .nil
  | cons i is ih => exact (h i).append ih

theorem StopsBetweenWords.reads (l : List Addr) : StopsBetweenWords ok bytes (readsOf l) [] where
  all := writtenAddrs_readsOf l
  beginning := ⟨[], List.prefix_rfl, by
    simp only [readsOf, List.takeWhile_map, List.flatMap_nil]
    exact writtenAddrs_readsOf _⟩
  stop := fun e he => by
    obtain ⟨a, -, rfl⟩ := List.mem_map.mp (List.mem_of_find?_eq_some he)
    rfl

/-- A word that is read in full is written back in full, or not at all (R94). -/
theorem StopsBetweenWords.word (q : ι) :
    StopsBetweenWords ok bytes (readsOf (bytes q) ++ writesOf (bytes q)) [q] := by
  by_cases hok : ∀ a ∈ bytes q, ok a = true
  · have hall : ∀ e ∈ readsOf (bytes q) ++ writesOf (bytes q), ok e.2 = true := by
      simpa [readsOf, writesOf, or_imp, forall_and] using hok
    refine ⟨by simp, ⟨[q], List.prefix_rfl, ?_⟩, fun e he => ?_⟩
    · rw [List.takeWhile_eq_self_iff.mpr hall]
      simp
    · have hbad := List.find?_some he
      simp [hall e (List.mem_of_find?_eq_some he)] at hbad
  · have hbad : ∃ e ∈ readsOf (bytes q), (!ok e.2) = true := by
      simpa [readsOf] using hok
    obtain ⟨e, he⟩ := Option.isSome_iff_exists.mp (List.find?_isSome.mpr hbad)
    have hreads := StopsBetweenWords.reads (ok := ok) (bytes := bytes) (bytes q)
    refine ⟨by simp, ⟨[], List.nil_prefix, ?_⟩, fun e' he' => ?_⟩
    · obtain ⟨whole, hpre, hw⟩ := hreads.beginning
      obtain rfl := List.prefix_nil.mp hpre
      rw [List.takeWhile_append, if_neg, hw]
      intro hlen
      obtain ⟨c, hc, hcbad⟩ := hbad
      have hself := (List.takeWhile_prefix (fun e : Bool × Addr => ok e.2) (l := readsOf (bytes q))).eq_of_length hlen
      simp [List.takeWhile_eq_self_iff.mp hself c hc] at hcbad
    · rw [List.find?_append, he, Option.some_or] at he'
      exact hreads.stop e' (he.trans he')

end

/-! ### The sprite commands -/

/-- The accesses to the bytes of one target word: read in full, written back in full (R94). -/
def targetKinds (w : WordWidth) (fb : Addr) (q : Nat × Nat) : List (Bool × Addr) :=
  readsOf (byteAddrs (wordBytes w) (fbWordAddr w fb q.1 q.2)) ++
    writesOf (byteAddrs (wordBytes w) (fbWordAddr w fb q.1 q.2))

/-- The accesses of one screen row of a sprite: its bitmap row, then its target words (R87, R94). -/
def rowKinds (w : WordWidth) (o : Operands) (ts : List Target) (row : Nat) : List (Bool × Addr) :=
  readsOf (byteAddrs (wordBytes w) (bitmapRowAddr w o.bm ((row : Int) - o.y).toNat)) ++
    (ts.map fun t => (row, t.widx)).flatMap (targetKinds w o.fb)

theorem makes_composeTarget (w : WordWidth) (mode : Mode) (fb : Addr) (row : Nat) (s : SpriteWord w) (t : Target) :
    (composeTarget w mode fb row s t).Makes (targetKinds w fb (row, t.widx)) :=
  BusProg.makes_readBE _ _ _ _ fun _ => BusProg.makes_writeBE _ _ _

theorem makes_composeRow (w : WordWidth) (mode : Mode) (o : Operands) (ts : List Target) (row : Nat) :
    (composeRow w mode o ts row).Makes (rowKinds w o ts row) := by
  refine BusProg.makes_readBE _ _ _ _ fun s => ?_
  rw [List.flatMap_map]
  exact .seqAll_map _ _ ts fun t => makes_composeTarget w mode o.fb row s t

theorem makes_compose {w : WordWidth} {mode : Mode} {o : Operands} {g : Regime} (hg : hclip o.x w = some g) :
    (compose w mode o).Makes ((drawnRows o.y o.h).flatMap (rowKinds w o (targets w g))) := by
  rw [compose_eq_drawnRows hg]
  exact .seqAll_map _ _ _ (makes_composeRow w mode o (targets w g))

/-- The target words of the drawn rows, as row and word index, in the order of the row loop (R94). -/
def drawnWords (w : WordWidth) (o : Operands) (g : Regime) : List (Nat × Nat) :=
  (drawnRows o.y o.h).flatMap fun r => (targets w g).map fun t => (r, t.widx)

theorem sprite_stopsBetweenWords (ok : Addr → Bool) (w : WordWidth) (o : Operands) (g : Regime) :
    StopsBetweenWords ok (fun q => byteAddrs (wordBytes w) (fbWordAddr w o.fb q.1 q.2))
      ((drawnRows o.y o.h).flatMap (rowKinds w o (targets w g))) (drawnWords w o g) := by
  refine .flatMap _ fun row => (StopsBetweenWords.reads _).append ?_
  have hwords := StopsBetweenWords.flatMap (g := fun q => [q]) ((targets w g).map fun t => (row, t.widx))
    (StopsBetweenWords.word (ok := ok) (bytes := fun q => byteAddrs (wordBytes w) (fbWordAddr w o.fb q.1 q.2)))
  rwa [List.flatMap_singleton'] at hwords

/-- A clip regime is that of a sprite with a column on screen (R88). -/
theorem column_of_hclip {x : Int} {w : WordWidth} {g : Regime} (hg : hclip x w = some g) :
    -(wordBits w : Int) < x ∧ x < 640 := by
  by_contra hoff
  simp [(hclip_eq_none x w).mpr (by omega)] at hg

/-- Every target word lies in its row (R89 to R91). -/
theorem target_widx_lt {x : Int} {w : WordWidth} {g : Regime} (hg : hclip x w = some g) {t : Target}
    (ht : t ∈ targets w g) : t.widx < 640 / wordBits w := by
  have hmem : t.widx ∈ (targets w g).map Target.widx := List.mem_map_of_mem ht
  have hcolumn := (column_of_hclip hg).2
  rw [map_widx_targets hg] at hmem
  rcases wordBits_cases w with hw | hw | hw
  all_goals
    rw [hw] at hmem ⊢
    split_ifs at hmem <;> simp at hmem <;> omega

/-! ### The obligation on the refused access -/

/-- The performed access that stands where a read stands in the list of kinds is that read. -/
theorem exists_read_of_kind {own : List Access} {n : Nat} {a : Addr}
    (h : (own.map Access.kind)[n]? = some (false, a)) : ∃ v, own[n]? = some (.read a v) := by
  rw [List.getElem?_map, Option.map_eq_some_iff] at h
  obtain ⟨z, hz, hkind⟩ := h
  cases z with
  | read a' v => cases hkind; exact ⟨v, hz⟩
  | write a' v => cases hkind

/-- The accesses of a sequence at the first one that is refused: `B` before it are performed, and where nothing is
refused the access `(c, a)` comes next (R120). -/
theorem BusProg.Makes.split_at_refused {x : BusProg} {T : List (Bool × Addr)} (h : x.Makes T) {s : State}
    {before after : List Addr} {a : Addr} (haddr : x.addresses = before ++ a :: after)
    (hok : ∀ y ∈ before, s.platform.check y = none) (ha : s.platform.check a = some .refused) :
    ∃ B c A, T = B ++ (c, a) :: A ∧ B.map Prod.snd = before ∧
      (x.run s.platform s.bus).performed.map Access.kind = B ∧
      ((x.run { s.platform with refused := [] } s.bus).performed.map Access.kind)[before.length]? = some (c, a) := by
  rw [h.visits.addresses_eq] at haddr
  obtain ⟨B, R, rfl, rfl, hR⟩ := List.map_eq_append_iff.mp haddr
  obtain ⟨⟨c, a'⟩, A, rfl, rfl, -⟩ := List.map_eq_cons_iff.mp hR
  have hB : ∀ e ∈ B, s.platform.check e.2 = none := fun e he => hok e.2 (List.mem_map_of_mem he)
  have hwin := ((s.platform.check_eq_refused _).mp ha).1
  have hnone : ({ s.platform with refused := [] } : Platform).check a' = none :=
    (Platform.check_eq_none _ a').mpr ⟨hwin, rfl⟩
  refine ⟨B, c, A, rfl, rfl, ?_, ?_⟩
  · rw [h.performed s s.platform, List.takeWhile_append_of_pos fun e he => by simp [hB e he]]
    simp [ha]
  · rw [h.performed s { s.platform with refused := [] },
      List.takeWhile_append_of_pos fun e he => by simp [Platform.check_refusingNone (hB e he)]]
    simp [hnone]

/-- The accesses of PLOT: one byte, read and written (R77). -/
theorem makes_plotProg (o : Operands) :
    ∃ a, (plotProg o).Makes [(false, a), (true, a)] ∨ (plotProg o).Makes [] := by
  unfold plotProg
  split
  · exact ⟨_, .inl (.read fun _ => .write .done)⟩
  · exact ⟨0, .inr .done⟩

/-- The first access of a byte's read and write that is stopped is the read. -/
theorem eq_nil_of_read_write_split {a b : Addr} {c : Bool} {B A : List (Bool × Addr)} {ok : Addr → Prop}
    (h : [(false, b), (true, b)] = B ++ (c, a) :: A) (hB : ∀ y ∈ B.map Prod.snd, ok y) (ha : ¬ ok a) :
    B = [] ∧ c = false := by
  rcases B with _ | ⟨e, B⟩
  · cases h
    exact ⟨rfl, rfl⟩
  · rcases B with _ | ⟨e', B⟩
    · cases h
      exact absurd (hB a (by simp)) ha
    · simp at h

/-- A sprite command that makes an access has rows and target words (R86, R88). -/
theorem exists_clip_of_addresses {w : WordWidth} {mode : Mode} {o : Operands} (h : (compose w mode o).addresses ≠ []) :
    ∃ first last g, vclip o.y o.h = some (first, last) ∧ hclip o.x w = some g := by
  cases hv : vclip o.y o.h with
  | none => simp [compose_of_no_row hv, BusProg.addresses] at h
  | some rows =>
    cases hg : hclip o.x w with
    | none => simp [compose_of_no_column hg, BusProg.addresses] at h
    | some g => exact ⟨rows.1, rows.2, g, rfl, rfl⟩

/-- The rows that VClip lets through are the drawn rows (R86). -/
theorem drawnRows_eq_of_vclip {y h : Int} {first last : Nat} (hv : vclip y h = some (first, last)) :
    drawnRows y h = List.range' first (last + 1 - first) := by
  obtain ⟨hfirst, hlast, hle, -⟩ := vclip_eq_some hv
  rw [drawnRows, show (max 0 y).toNat = first by omega,
    show (min (y + h) 400 - max 0 y).toNat = last + 1 - first by omega]

theorem mem_drawnRows {y h : Int} {r : Nat} : r ∈ drawnRows y h ↔ y ≤ r ∧ (r : Int) < y + h ∧ r < 400 := by
  simp only [drawnRows, List.mem_range'_1]
  omega

theorem drawnWords_on_screen {w : WordWidth} {o : Operands} {g : Regime} (hg : hclip o.x w = some g) {q : Nat × Nat}
    (hq : q ∈ drawnWords w o g) : q.1 < 400 ∧ q.2 < 640 / wordBits w := by
  obtain ⟨r, hr, hq⟩ := List.mem_flatMap.mp hq
  obtain ⟨t, ht, rfl⟩ := List.mem_map.mp hq
  exact ⟨(mem_drawnRows.mp hr).2.2, target_widx_lt hg ht⟩

/-- Settles O38: the accesses of known kinds, split at the refused one; a target word is stopped at its read. -/
theorem refusedAccessOfAWordIsARead : Obligations.RefusedAccessOfAWordIsARead := by
  intro i s before after a hi haddr hok ha written
  have hne : (program i s.operands).addresses ≠ [] := by simp [haddr]
  cases hk : spriteKind i with
  | none =>
    obtain rfl : i = .plot := hi.resolve_right (by simp [hk])
    obtain ⟨b, hmakes | hmakes⟩ := makes_plotProg s.operands
    · obtain ⟨B, c, A, hT, rfl, hperf, hnext⟩ := hmakes.split_at_refused haddr hok ha
      obtain ⟨rfl, rfl⟩ := eq_nil_of_read_write_split hT hok (by simp [ha])
      have hnone : written = [] := (writtenAddrs_map_kind _).symm.trans (congrArg writtenAddrs hperf)
      exact ⟨exists_read_of_kind hnext, fun _ => hnone, nofun⟩
    · exact absurd hmakes.visits.addresses_eq hne
  | some kind =>
    obtain ⟨w, mode⟩ := kind
    rw [program_eq_compose hk] at hne
    obtain ⟨first, last, g, hv, hg⟩ := exists_clip_of_addresses hne
    have hmakes := program_eq_compose hk s.operands ▸ makes_compose (mode := mode) hg
    obtain ⟨B, c, A, hT, rfl, hperf, hnext⟩ := hmakes.split_at_refused haddr hok ha
    obtain ⟨-, ⟨words, hpre, hwords⟩, hstop⟩ :=
      sprite_stopsBetweenWords (fun x => (s.platform.check x).isNone) w s.operands g
    have hB : ∀ e ∈ B, s.platform.check e.2 = none := fun e he => hok e.2 (List.mem_map_of_mem he)
    have hread : c = false := hstop (c, a) <| by
      rw [hT, List.find?_append, List.find?_eq_none.mpr fun e he => by simp [hB e he]]
      simp [ha]
    refine ⟨exists_read_of_kind (hread ▸ hnext), ?_, ?_⟩
    · rintro rfl
      cases hk
    · intro w' mode' hk'
      cases hk'
      refine ⟨first, last, g, words, hv, hg, ?_, fun q hq => drawnWords_on_screen hg (hpre.subset hq), ?_⟩
      · rwa [drawnWords, drawnRows_eq_of_vclip hv] at hpre
      · rw [← hmakes.performed s s.platform, writtenAddrs_map_kind] at hwords
        simp only [← byteAddrs_eq_map_range]
        exact hwords

end Sys2Proof.Machine
end

section
/-! SUPPORT. Bytes and pixels of the framebuffer (R40, R41), span masks (R74), and what the byte of a span and a
rectangle of spans do to the pixels, on plain memory, on devices and where an access is stopped (R75 to R80). -/

namespace Sys2Proof.Machine

/-! ### Bytes and pixels of the framebuffer -/

/-- Different bytes of the screen have different addresses (R40). -/
theorem fbByteAddr_inj {fb : Addr} {r j r' j' : Nat} (hr : r < 400) (hj : j < 80) (hr' : r' < 400) (hj' : j' < 80) :
    fbByteAddr fb r j = fbByteAddr fb r' j' ↔ r = r' ∧ j = j' := by
  rw [fbByteAddr, fbByteAddr, BPL_eq, BitVec.add_right_inj, ← BitVec.toNat_inj, BitVec.toNat_ofNat,
    BitVec.toNat_ofNat, Nat.mod_eq_of_lt (by omega), Nat.mod_eq_of_lt (by omega)]
  omega

/-- The framebuffer's bytes are those of its rows (R40). -/
theorem inFramebuffer_iff {fb a : Addr} : inFramebuffer fb a ↔ ∃ r < 400, ∃ j < 80, a = fbByteAddr fb r j := by
  simp only [inFramebuffer, FBSIZE_eq, fbByteAddr, BPL_eq]
  constructor
  · intro h
    refine ⟨(a - fb).toNat / 80, by omega, (a - fb).toNat % 80, by omega, ?_⟩
    rw [Nat.div_add_mod', BitVec.ofNat_toNat, BitVec.setWidth_eq, BitVec.add_comm, BitVec.sub_add_cancel]
  · rintro ⟨r, hr, j, hj, rfl⟩
    rw [BitVec.add_comm, BitVec.add_sub_cancel, BitVec.toNat_ofNat, Nat.mod_eq_of_lt (by omega)]
    omega

/-- A write to a byte of the screen sets its eight pixels and no other (R41). -/
theorem Memory.pixel_write (m : Memory) (fb : Addr) {r j X y : Nat} (v : Byte) (hr : r < 400) (hj : j < 80)
    (hX : X < 640) (hy : y < 400) :
    (m.write (fbByteAddr fb r j) v).pixel fb X y =
      if y = r ∧ X / 8 = j then v.getLsbD (7 - X % 8) else m.pixel fb X y := by
  simp only [pixel, read_write, fbByteAddr_inj hy (show X / 8 < 80 by omega) hr hj]
  split <;> rfl

/-- Memories with the same pixels have the same bytes in the framebuffer (R41). -/
theorem Memory.read_eq_of_pixel_eq {m m' : Memory} {fb a : Addr}
    (h : ∀ X < 640, ∀ r < 400, m.pixel fb X r = m'.pixel fb X r) (ha : inFramebuffer fb a) : m.read a = m'.read a := by
  obtain ⟨r, hr, j, hj, rfl⟩ := inFramebuffer_iff.mp ha
  refine BitVec.eq_of_getLsbD_eq fun n hn => ?_
  have hpixel := h (8 * j + (7 - n)) (by omega) r hr
  rwa [pixel, pixel, show (8 * j + (7 - n)) / 8 = j by omega, show 7 - (8 * j + (7 - n)) % 8 = n by omega] at hpixel

/-! ### Span masks -/

theorem getLsbD_fullMask (n : Nat) : (0xFF#8).getLsbD n = decide (n < 8) := BitVec.getLsbD_allOnes (v := 8)

/-- The span mask by bits: the pixels of the span in byte `j` (R74). -/
theorem getLsbD_spanMask {lo hi j k : Nat} (hhi : j ≤ hi / 8) (hk : k < 8) :
    (spanMask lo hi j).getLsbD (7 - k) = decide (lo ≤ 8 * j + k ∧ 8 * j + k ≤ hi) := by
  rw [Bool.eq_iff_iff]
  simp only [spanMask, BitVec.getLsbD_and, BitVec.getLsbD_ushiftRight, BitVec.getLsbD_shiftLeft,
    getLsbD_fullMask, Bool.and_eq_true, Bool.not_eq_true', decide_eq_true_eq, decide_eq_false_iff_not]
  omega

/-- A byte strictly between the ends of a span is covered (R74). -/
theorem spanMask_interior {lo hi j : Nat} (hlo : lo / 8 < j) (hhi : j < hi / 8) : spanMask lo hi j = 0xFF#8 := by
  rw [spanMask, show max lo (8 * j) - 8 * j = 0 by omega, show 7 - (min hi (8 * j + 7) - 8 * j) = 0 by omega]
  rfl

/-- Settles O23: the mask by its bits, and its ends by arithmetic. -/
theorem spanMaskCoversTheSpan : Obligations.SpanMaskCoversTheSpan := by
  intro lo hi j hle _ hlo hhi a b
  exact ⟨by omega, rfl, fun k hk => getLsbD_spanMask hhi hk, by omega, by omega, spanMask_interior⟩

/-! ### One byte of a span -/

/-- The value of the pixels that a span operation draws: set 1, cleared 0 (R75). -/
def SpanOp.ink : SpanOp → Bool
  | .set => true
  | .clr => false

/-- What a span operation makes of a byte, with the byte's span mask (R75). -/
def SpanOp.onByte (op : SpanOp) (mask v : Byte) : Byte :=
  match op with
  | .set => v ||| mask
  | .clr => v &&& ~~~mask

theorem SpanOp.getLsbD_onByte (op : SpanOp) (mask v : Byte) {n : Nat} (hn : n < 8) :
    (op.onByte mask v).getLsbD n = if mask.getLsbD n then op.ink else v.getLsbD n := by
  cases op with
  | set =>
    simp only [onByte, ink, BitVec.getLsbD_or]
    cases mask.getLsbD n <;> simp
  | clr =>
    simp only [onByte, ink, BitVec.getLsbD_and, BitVec.getLsbD_not, hn, decide_true, Bool.true_and]
    cases mask.getLsbD n <;> simp

/-- A byte that the mask covers does not depend on what stood there (R75). -/
theorem SpanOp.onByte_covered (op : SpanOp) (v : Byte) :
    op.onByte 0xFF#8 v = if op.ink then 0xFF#8 else 0x00#8 := by
  refine BitVec.eq_of_getLsbD_eq fun n hn => ?_
  have hfull : (0xFF#8).getLsbD n = true := (getLsbD_fullMask n).trans (decide_eq_true hn)
  rw [op.getLsbD_onByte _ _ hn, if_pos hfull]
  cases op with
  | set => exact hfull.symm
  | clr => simp [ink]

section
variable {fb : Addr} {row lo hi j : Nat} (op : SpanOp)

/-- An interior byte is written without a read, with what a read would have given (R75). -/
theorem spanByte_interior (h : spanMask lo hi j = 0xFF#8) (v : Byte) :
    spanByte fb row lo hi op j = .write (fbByteAddr fb row j) (op.onByte (spanMask lo hi j) v) .done := by
  rw [h, op.onByte_covered]
  cases op <;> exact if_pos h

/-- A boundary byte is read, changed and written back (R75). -/
theorem spanByte_boundary (h : spanMask lo hi j ≠ 0xFF#8) :
    spanByte fb row lo hi op j =
      .read (fbByteAddr fb row j) fun v =>
        .write (fbByteAddr fb row j) (op.onByte (spanMask lo hi j) v) .done := by
  cases op <;> exact if_neg h

/-- A permitted byte of a span, interior or boundary, ends as the operation makes of it; a device's memory does not
change (R75, U8). -/
theorem run_spanByte {p : Platform} (b : Bus) (h : p.check (fbByteAddr fb row j) = none) :
    ((spanByte fb row lo hi op j).run p b).stop = none ∧
      ((spanByte fb row lo hi op j).run p b).bus.mem =
        if p.isDevice (fbByteAddr fb row j) then b.mem
        else b.mem.write (fbByteAddr fb row j) (op.onByte (spanMask lo hi j) (b.mem.read (fbByteAddr fb row j))) := by
  by_cases hm : spanMask lo hi j = 0xFF#8
  · rw [spanByte_interior op hm (b.mem.read (fbByteAddr fb row j)), BusProg.run_write _ _ _ _ _ h]
    exact ⟨rfl, rfl⟩
  · rw [spanByte_boundary op hm, BusProg.run_read _ _ _ _ h, BusProg.run_write _ _ _ _ _ h]
    refine ⟨rfl, ?_⟩
    rw [BusProg.run_done, Bus.afterWrite_mem, Bus.afterRead_mem]
    split
    · rfl
    · next hdev => rw [Bus.valueAt, if_neg hdev]

theorem run_spanByte_stopped {p : Platform} {e : BusStop} (b : Bus) (h : p.check (fbByteAddr fb row j) = some e) :
    (spanByte fb row lo hi op j).run p b = ⟨some e, b⟩ := by
  by_cases hm : spanMask lo hi j = 0xFF#8
  · rw [spanByte_interior op hm 0#8, BusProg.run_write_stopped _ _ _ _ _ _ h]
  · rw [spanByte_boundary op hm, BusProg.run_read_stopped _ _ _ _ _ h]

end

/-! ### Which pixels a run may change, and which it draws -/

/-- However a run of the sequence ends, it changes no screen pixel outside `F` (R81, R111). -/
def BusProg.SparesOutside (p : Platform) (fb : Addr) (F : Nat → Nat → Prop) (x : BusProg) : Prop :=
  ∀ (b : Bus) (X r : Nat), X < 640 → r < 400 → ¬ F X r → (x.run p b).bus.mem.pixel fb X r = b.mem.pixel fb X r

theorem BusProg.SparesOutside.done {p : Platform} {fb : Addr} {F : Nat → Nat → Prop} :
    BusProg.done.SparesOutside p fb F :=
  fun _ _ _ _ _ _ => rfl

theorem BusProg.SparesOutside.seq {p : Platform} {fb : Addr} {F : Nat → Nat → Prop} {x y : BusProg}
    (hx : x.SparesOutside p fb F) (hy : y.SparesOutside p fb F) : (x.seq y).SparesOutside p fb F := by
  intro b X r hX hr hF
  rw [run_seq]
  split
  · rw [hy _ X r hX hr hF, hx b X r hX hr hF]
  · exact hx b X r hX hr hF

theorem BusProg.SparesOutside.seqAll_map {p : Platform} {fb : Addr} {F : Nat → Nat → Prop} {ι : Type}
    {f : ι → BusProg} {is : List ι} (h : ∀ i ∈ is, (f i).SparesOutside p fb F) :
    (BusProg.seqAll (is.map f)).SparesOutside p fb F := by
  induction is with
  | nil => exact .done
  | cons i is ih => exact (h i (by simp)).seq (ih fun i' hi' => h i' (by simp [hi']))

theorem BusProg.SparesOutside.mono {p : Platform} {fb : Addr} {F G : Nat → Nat → Prop} {x : BusProg}
    (h : x.SparesOutside p fb F) (hFG : ∀ X < 640, ∀ r < 400, F X r → G X r) : x.SparesOutside p fb G :=
  fun b X r hX hr hG => h b X r hX hr fun hF => hG (hFG X hX r hr hF)

/-- A run of the sequence comes to its end, draws the screen pixels in `F` with `ink`, and leaves the others at `ink`
where they were. -/
def BusProg.Inks (p : Platform) (fb : Addr) (ink : Bool) (F : Nat → Nat → Prop) (x : BusProg) : Prop :=
  ∀ b : Bus, (x.run p b).stop = none ∧ ∀ X r : Nat, X < 640 → r < 400 → F X r ∨ b.mem.pixel fb X r = ink →
    (x.run p b).bus.mem.pixel fb X r = ink

theorem BusProg.Inks.seqAll_map {p : Platform} {fb : Addr} {ink : Bool} {ι : Type} {f : ι → BusProg}
    {F : ι → Nat → Nat → Prop} {is : List ι} (h : ∀ i ∈ is, (f i).Inks p fb ink (F i)) :
    (BusProg.seqAll (is.map f)).Inks p fb ink (fun X r => ∃ i ∈ is, F i X r) := by
  induction is with
  | nil => exact fun b => ⟨rfl, fun X r _ _ hF => hF.resolve_left (by simp)⟩
  | cons i is ih =>
    intro b
    obtain ⟨hstop, hfirst⟩ := h i (by simp) b
    obtain ⟨hstop', hrest⟩ := ih (fun i' hi' => h i' (by simp [hi'])) ((f i).run p b).bus
    rw [List.map_cons, seqAll_cons, run_seq, hstop]
    refine ⟨hstop', fun X r hX hr hF => hrest X r hX hr ?_⟩
    rcases hF with ⟨i', hi', hF⟩ | hink
    · rcases List.mem_cons.mp hi' with rfl | hi'
      · exact .inr (hfirst X r hX hr (.inl hF))
      · exact .inl ⟨i', hi', hF⟩
    · exact .inr (hfirst X r hX hr (.inr hink))

theorem BusProg.Inks.mono {p : Platform} {fb : Addr} {ink : Bool} {F G : Nat → Nat → Prop} {x : BusProg}
    (h : x.Inks p fb ink G) (hFG : ∀ X < 640, ∀ r < 400, F X r → G X r) : x.Inks p fb ink F :=
  fun b => ⟨(h b).1, fun X r hX hr hF => (h b).2 X r hX hr (hF.imp_left (hFG X hX r hr))⟩

/-! ### Spans and rectangles -/

section
variable {p : Platform} {fb : Addr} {row lo hi j : Nat} {op : SpanOp}

/-- A byte of the span, drawn on plain memory, has the ink at the span's pixels and no other pixel changed (R75). -/
theorem pixel_write_onByte (m : Memory) (hrow : row < 400) (hhi : hi < 640) (hjhi : j ≤ hi / 8)
    {X r : Nat} (hX : X < 640) (hr : r < 400) :
    (m.write (fbByteAddr fb row j) (op.onByte (spanMask lo hi j) (m.read (fbByteAddr fb row j)))).pixel fb X r =
      if r = row ∧ X / 8 = j ∧ lo ≤ X ∧ X ≤ hi then op.ink else m.pixel fb X r := by
  rw [Memory.pixel_write m fb _ hrow (by omega) hX hr]
  by_cases hbyte : r = row ∧ X / 8 = j
  · obtain ⟨rfl, rfl⟩ := hbyte
    have hcolumn : 8 * (X / 8) + X % 8 = X := by omega
    rw [if_pos ⟨rfl, rfl⟩, op.getLsbD_onByte _ _ (by omega), getLsbD_spanMask hjhi (by omega), hcolumn]
    simp [Memory.pixel]
  · rw [if_neg hbyte, if_neg fun h => hbyte ⟨h.1, h.2.1⟩]

theorem spanByte_sparesOutside (hrow : row < 400) (hhi : hi < 640) (hjhi : j ≤ hi / 8) :
    (spanByte fb row lo hi op j).SparesOutside p fb (fun X r => r = row ∧ lo ≤ X ∧ X ≤ hi) := by
  intro b X r hX hr hF
  cases hc : p.check (fbByteAddr fb row j) with
  | some e => rw [run_spanByte_stopped op b hc]
  | none =>
    rw [(run_spanByte op b hc).2]
    split
    · rfl
    · rw [pixel_write_onByte _ hrow hhi hjhi hX hr, if_neg fun h => hF ⟨h.1, h.2.2⟩]

theorem spanByte_inks (hrow : row < 400) (hhi : hi < 640) (hjhi : j ≤ hi / 8)
    (hplain : p.ordinary (fbByteAddr fb row j) = true) :
    (spanByte fb row lo hi op j).Inks p fb op.ink (fun X r => r = row ∧ X / 8 = j ∧ lo ≤ X ∧ X ≤ hi) := by
  intro b
  obtain ⟨hcheck, hdev⟩ := (p.ordinary_iff _).mp hplain
  obtain ⟨hstop, hmem⟩ := run_spanByte (lo := lo) (hi := hi) op b hcheck
  refine ⟨hstop, fun X r hX hr hF => ?_⟩
  rw [hmem, if_neg (by simp [hdev]), pixel_write_onByte _ hrow hhi hjhi hX hr]
  rcases hF with hF | hink
  · rw [if_pos hF]
  · rw [hink, ite_self]

theorem mem_spanBytes : j ∈ List.range' (lo / 8) (hi / 8 + 1 - lo / 8) ↔ lo / 8 ≤ j ∧ j ≤ hi / 8 := by
  rw [List.mem_range'_1]
  omega

theorem spanRow_sparesOutside (hrow : row < 400) (hhi : hi < 640) :
    (spanRow fb row lo hi op).SparesOutside p fb (fun X r => r = row ∧ lo ≤ X ∧ X ≤ hi) :=
  .seqAll_map fun _ hj => spanByte_sparesOutside hrow hhi (mem_spanBytes.mp hj).2

theorem spanRow_inks (hrow : row < 400) (hhi : hi < 640)
    (hplain : ∀ j, lo / 8 ≤ j → j ≤ hi / 8 → p.ordinary (fbByteAddr fb row j) = true) :
    (spanRow fb row lo hi op).Inks p fb op.ink (fun X r => r = row ∧ lo ≤ X ∧ X ≤ hi) := by
  refine (BusProg.Inks.seqAll_map (F := fun j X r => r = row ∧ X / 8 = j ∧ lo ≤ X ∧ X ≤ hi) fun j hj => ?_).mono ?_
  · obtain ⟨hjlo, hjhi⟩ := mem_spanBytes.mp hj
    exact spanByte_inks hrow hhi hjhi (hplain j hjlo hjhi)
  · exact fun X _ r _ ⟨hr, hlo, hhi⟩ => ⟨X / 8, mem_spanBytes.mpr (by omega), hr, rfl, hlo, hhi⟩

end

/-- A rectangle lies on the screen, and has a column. -/
structure Rect.OnScreen (r : Rect) : Prop where
  len : 1 ≤ r.len
  right : r.col + r.len ≤ 640
  bottom : r.row + r.height ≤ 400

/-- A pixel of the rectangle. -/
def Rect.covers (r : Rect) (X y : Nat) : Prop :=
  (r.row ≤ y ∧ y < r.row + r.height) ∧ r.col ≤ X ∧ X < r.col + r.len

/-- The kinds of the accesses to byte `j` of a span: an interior byte is not read (R75). -/
def spanByteKinds (fb : Addr) (row lo hi j : Nat) : List (Bool × Addr) :=
  if spanMask lo hi j = 0xFF#8 then writesOf [fbByteAddr fb row j]
  else readsOf [fbByteAddr fb row j] ++ writesOf [fbByteAddr fb row j]

theorem makes_spanByte (fb : Addr) (row lo hi : Nat) (op : SpanOp) (j : Nat) :
    (spanByte fb row lo hi op j).Makes (spanByteKinds fb row lo hi j) := by
  by_cases hm : spanMask lo hi j = 0xFF#8
  · rw [spanByteKinds, if_pos hm, spanByte_interior op hm 0#8]
    exact .write .done
  · rw [spanByteKinds, if_neg hm, spanByte_boundary op hm]
    exact .read fun _ => .write .done

theorem mem_spanByteKinds {fb a : Addr} {row lo hi j : Nat} :
    (true, a) ∈ spanByteKinds fb row lo hi j ↔ a = fbByteAddr fb row j := by
  unfold spanByteKinds
  split <;> simp [readsOf, writesOf]

/-- The kinds of a rectangle's accesses, the same whatever the operation (R75, R79, R80). -/
def rectKinds (fb : Addr) (r : Rect) : List (Bool × Addr) :=
  (List.range' r.row r.height).flatMap fun row =>
    (List.range' (r.col / 8) ((r.col + r.len - 1) / 8 + 1 - r.col / 8)).flatMap
      (spanByteKinds fb row r.col (r.col + r.len - 1))

theorem makes_rectRows (fb : Addr) (r : Rect) (op : SpanOp) : (rectRows fb r op).Makes (rectKinds fb r) :=
  .seqAll_map _ _ _ fun row => .seqAll_map _ _ _ fun j => makes_spanByte fb row r.col (r.col + r.len - 1) op j

/-- A rectangle's accesses write bytes of its rows that hold one of its columns, and every one of these (R75). -/
theorem mem_rectKinds {fb : Addr} {r : Rect} {a : Addr} :
    (true, a) ∈ rectKinds fb r ↔ ∃ row j, (r.row ≤ row ∧ row < r.row + r.height) ∧
      (r.col / 8 ≤ j ∧ j ≤ (r.col + r.len - 1) / 8) ∧ a = fbByteAddr fb row j := by
  simp only [rectKinds, List.mem_flatMap, mem_spanByteKinds, mem_spanBytes]
  simp only [List.mem_range'_1]
  constructor
  · rintro ⟨row, hrow, j, hj, ha⟩
    exact ⟨row, j, hrow, hj, ha⟩
  · rintro ⟨row, j, hrow, hj, ha⟩
    exact ⟨row, hrow, j, hj, ha⟩

theorem rectRows_sparesOutside {p : Platform} {fb : Addr} {r : Rect} (op : SpanOp) (h : r.OnScreen) :
    (rectRows fb r op).SparesOutside p fb r.covers := by
  obtain ⟨hlen, hright, hbottom⟩ := h
  refine .seqAll_map fun row hrow => ?_
  rw [List.mem_range'_1] at hrow
  refine (spanRow_sparesOutside (by omega) (by omega)).mono ?_
  rintro X - y - ⟨rfl, hlo, hhi⟩
  exact ⟨hrow, hlo, by omega⟩

/-- On plain memory a rectangle's run draws the rectangle (R79, R80). -/
theorem rectRows_inks {p : Platform} {fb : Addr} {r : Rect} {op : SpanOp} (h : r.OnScreen)
    (hplain : ∀ a ∈ (rectRows fb r op).addresses, p.ordinary a = true) :
    (rectRows fb r op).Inks p fb op.ink r.covers := by
  obtain ⟨hlen, hright, hbottom⟩ := h
  have hbyte (row j : Nat) (hrow : r.row ≤ row ∧ row < r.row + r.height) (hj : r.col / 8 ≤ j)
      (hj' : j ≤ (r.col + r.len - 1) / 8) : p.ordinary (fbByteAddr fb row j) = true := by
    refine hplain _ ?_
    rw [(makes_rectRows fb r op).visits.addresses_eq]
    exact List.mem_map_of_mem (f := Prod.snd) (mem_rectKinds.mpr ⟨row, j, hrow, ⟨hj, hj'⟩, rfl⟩)
  refine (BusProg.Inks.seqAll_map (F := fun row X y => y = row ∧ r.col ≤ X ∧ X ≤ r.col + r.len - 1)
    fun row hrow => ?_).mono ?_
  · rw [List.mem_range'_1] at hrow
    exact spanRow_inks (by omega) (by omega) fun j => hbyte row j hrow
  · rintro X - y - ⟨hy, hlo, hhi⟩
    exact ⟨y, List.mem_range'_1.mpr hy, rfl, hlo, by omega⟩

/-! ### The span commands as rectangles -/

/-- What a span command does to its pixels: CLEARRECT clears, the others set (R77 to R80). -/
def spanOp : Instr → SpanOp
  | .clearrect => .clr
  | _ => .set

theorem rectRows_of_one_row (fb : Addr) (col len row : Nat) (op : SpanOp) :
    rectRows fb ⟨col, len, row, 1⟩ op = spanRow fb row col (col + len - 1) op :=
  BusProg.seq_done _

/-- PLOT is a span of one pixel: its byte is a boundary byte, whose mask is the pixel's bit (R74, R77). -/
theorem plot_eq_spanRow (fb : Addr) (row x : Nat) :
    BusProg.read (fbByteAddr fb row (x / 8)) (fun v =>
      .write (fbByteAddr fb row (x / 8)) (v ||| (0x80#8 >>> (x % 8))) .done) = spanRow fb row x x .set := by
  have hbit : ∀ k < 8, (0xFF#8 >>> k) &&& (0xFF#8 <<< (7 - k)) = 0x80#8 >>> k ∧ 0x80#8 >>> k ≠ 0xFF#8 := by decide
  obtain ⟨hmask, hne⟩ := hbit (x % 8) (by omega)
  have hspan : spanMask x x (x / 8) = 0x80#8 >>> (x % 8) := by
    rw [← hmask, spanMask, show max x (8 * (x / 8)) - 8 * (x / 8) = x % 8 by omega,
      show min x (8 * (x / 8) + 7) - 8 * (x / 8) = x % 8 by omega]
  rw [spanRow, show x / 8 + 1 - x / 8 = 1 by omega]
  simp [spanByte, hspan, hne]

/-- The command's accesses are those of a rectangle on the screen, and the rectangle is its footprint there; a no-op's
rectangle has no row. -/
def DrawsRect (i : Instr) (o : Operands) : Prop :=
  ∃ r : Rect, r.OnScreen ∧ program i o = rectRows o.fb r (spanOp i) ∧
    ∀ X < 640, ∀ y < 400, footprint i o X y = true ↔ r.covers X y

theorem DrawsRect.of_no_op {i : Instr} {o : Operands} (h : program i o = .done)
    (hempty : ∀ X < 640, ∀ y < 400, footprint i o X y = false) : DrawsRect i o := by
  refine ⟨⟨0, 1, 0, 0⟩, ⟨by simp, by simp, by simp⟩, h, fun X hX y hy => ?_⟩
  simp [hempty X hX y hy, Rect.covers]

theorem plot_drawsRect (o : Operands) : DrawsRect .plot o := by
  have hfoot (X y : Nat) : footprint .plot o X y = decide (o.x = X ∧ o.y = y) := rfl
  by_cases hon : onScreen o.x o.y = true
  · have hbounds := (onScreen_iff o.x o.y).mp hon
    refine ⟨⟨o.x.toNat, 1, o.y.toNat, 1⟩, ⟨le_refl 1, by dsimp only; omega, by dsimp only; omega⟩, ?_,
      fun X hX y hy => ?_⟩
    · rw [rectRows_of_one_row, Nat.add_sub_cancel]
      exact (if_pos hon).trans (plot_eq_spanRow o.fb o.y.toNat o.x.toNat)
    · simp only [hfoot, Rect.covers, decide_eq_true_eq]
      omega
  · refine .of_no_op (if_neg hon) fun X hX y hy => ?_
    rw [onScreen_iff] at hon
    simp only [hfoot, decide_eq_false_iff_not]
    omega

theorem hline_drawsRect (o : Operands) : DrawsRect .hline o := by
  have hfoot (X y : Nat) :
      footprint .hline o X y = decide (min o.x o.x2 ≤ X ∧ (X : Int) ≤ max o.x o.x2 ∧ o.y = y) := rfl
  cases hclip : hlineClip o.x o.x2 o.y with
  | none =>
    refine .of_no_op (hlineProg_of_no_column hclip) fun X hX y hy => ?_
    rw [hlineClip_eq_none] at hclip
    simp only [hfoot, decide_eq_false_iff_not]
    omega
  | some span =>
    obtain ⟨lo, hi⟩ := span
    obtain ⟨hlo, hhi, hle, hlt, hy0, hy1⟩ := hlineClip_eq_some hclip
    refine ⟨⟨lo, hi + 1 - lo, o.y.toNat, 1⟩, ⟨by dsimp only; omega, by dsimp only; omega, by dsimp only; omega⟩, ?_,
      fun X hX y hy => ?_⟩
    · rw [rectRows_of_one_row, show lo + (hi + 1 - lo) - 1 = hi by omega]
      simp [program, hlineProg, hclip, spanOp]
    · simp only [hfoot, Rect.covers, decide_eq_true_eq]
      omega

/-- The clipped rectangle is the footprint of FILLRECT and of CLEARRECT (R76). -/
theorem rectClip_covers {o : Operands} {r : Rect} (h : rectClip o.x o.x2 o.y o.h = some r) :
    r.OnScreen ∧ ∀ X < 640, ∀ y < 400, footprint .fillrect o X y = true ↔ r.covers X y := by
  obtain ⟨hcol, hlen, hrow, hheight, hx0, hx1, hy0, hy1, hlen1, hh1⟩ := rectClip_eq_some h
  refine ⟨⟨by omega, by omega, by omega⟩, fun X hX y hy => ?_⟩
  simp only [footprint, Rect.covers, decide_eq_true_eq]
  omega

theorem rectClip_none_footprint {o : Operands} (h : rectClip o.x o.x2 o.y o.h = none) {X y : Nat} (hX : X < 640)
    (hy : y < 400) : footprint .fillrect o X y = false := by
  rw [rectClip_eq_none] at h
  simp only [footprint, decide_eq_false_iff_not]
  omega

theorem fillrect_drawsRect (o : Operands) : DrawsRect .fillrect o := by
  cases hclip : rectClip o.x o.x2 o.y o.h with
  | none => exact .of_no_op (fillrectProg_of_no_rect hclip) fun X hX y => rectClip_none_footprint hclip hX
  | some r =>
    obtain ⟨hon, hcovers⟩ := rectClip_covers hclip
    exact ⟨r, hon, by simp [program, fillrectProg, hclip, spanOp], hcovers⟩

theorem clearrect_drawsRect (o : Operands) : DrawsRect .clearrect o := by
  cases hclip : rectClip o.x o.x2 o.y o.h with
  | none => exact .of_no_op (clearrectProg_of_no_rect hclip) fun X hX y => rectClip_none_footprint hclip hX
  | some r =>
    obtain ⟨hon, hcovers⟩ := rectClip_covers hclip
    exact ⟨r, hon, by simp [program, clearrectProg, hclip, spanOp], hcovers⟩

/-- The commands that are no sprite commands draw a rectangle, or nothing (R72, R77 to R80). -/
theorem drawsRect_of_not_sprite {i : Instr} (hk : spriteKind i = none) (o : Operands) : DrawsRect i o := by
  cases i with
  | nop => exact .of_no_op rfl fun _ _ _ _ => rfl
  | plot => exact plot_drawsRect o
  | hline => exact hline_drawsRect o
  | fillrect => exact fillrect_drawsRect o
  | clearrect => exact clearrect_drawsRect o
  | _ => cases hk

end Sys2Proof.Machine
end

section
/-! SUPPORT. No command draws outside its footprint (R81, R111): the target words of a sprite by columns (R89 to R92),
and a word read, merged and written back, on any platform. -/

namespace Sys2Proof.Machine

/-! ### Target words by columns -/

/-- How many columns a shift moves a word to the right. -/
def Shift.offset : Shift → Int
  | .right n => n
  | .left n => -n

/-- Every target word moves the sprite's first column to where it is on the row (R89 to R91). -/
theorem target_column {x : Int} {w : WordWidth} {g : Regime} (hg : hclip x w = some g) {t : Target}
    (ht : t ∈ targets w g) : (t.widx * wordBits w : Nat) + t.shift.offset = x := by
  cases g with
  | left m =>
    obtain ⟨-, hm, -⟩ := hclip_eq_left hg
    obtain rfl := List.mem_singleton.mp ht
    simp [Shift.offset, hm]
  | right m =>
    obtain ⟨hlo, hhi, hm, -⟩ := hclip_eq_right hg
    obtain rfl := List.mem_singleton.mp ht
    simp only [wordsPerLine, SW_eq, Shift.offset, hm]
    rcases wordBits_cases w with hw | hw | hw <;> rw [hw] at hlo ⊢ <;> omega
  | full k m =>
    obtain ⟨hx, -, hk, hm, hlt⟩ := hclip_eq_full hg
    have hsplit : (k : Int) * wordBits w + m = x := by rw [hk, hm, Int.ediv_mul_add_emod]
    by_cases hm0 : m = 0
    · obtain rfl : t = ⟨k, .right 0⟩ := by simpa [targets, hm0] using ht
      simp only [Shift.offset]
      push_cast
      omega
    · have hcases : t = ⟨k, .right m⟩ ∨ t = ⟨k + 1, .left (wordBits w - m)⟩ := by simpa [targets, hm0] using ht
      rcases hcases with rfl | rfl
      · simpa [Shift.offset] using hsplit
      · simp only [Shift.offset, Nat.add_one_mul]
        push_cast
        omega

/-- The mask of a target by bits: the columns that the shift leaves in the word (R89 to R92). -/
theorem Target.getLsbD_mask (t : Target) (w : WordWidth) {c : Nat} (hc : c < wordBits w) :
    (t.mask w).getLsbD (wordBits w - 1 - c) =
      decide (t.shift.offset ≤ c ∧ (c : Int) < t.shift.offset + wordBits w) := by
  rw [Bool.eq_iff_iff, decide_eq_true_iff]
  cases hs : t.shift with
  | right n =>
    simp only [mask, hs, Shift.apply, Shift.offset, BitVec.getLsbD_ushiftRight, BitVec.getLsbD_allOnes,
      decide_eq_true_eq]
    omega
  | left n =>
    simp only [mask, hs, Shift.apply, Shift.offset, BitVec.getLsbD_shiftLeft, BitVec.getLsbD_allOnes,
      Bool.and_eq_true, Bool.not_eq_true', decide_eq_true_eq, decide_eq_false_iff_not]
    omega

/-- The positioned sprite lies inside its footprint mask (R92). -/
theorem Target.getLsbD_positioned_of_mask {w : WordWidth} {t : Target} {n : Nat} (h : (t.mask w).getLsbD n = false)
    (s : SpriteWord w) : (t.positioned s).getLsbD n = false := by
  cases hs : t.shift with
  | right k =>
    simp only [mask, positioned, hs, Shift.apply, BitVec.getLsbD_ushiftRight, BitVec.getLsbD_allOnes,
      decide_eq_false_iff_not] at h ⊢
    exact BitVec.getLsbD_of_ge s _ (by omega)
  | left k =>
    simp only [mask, positioned, hs, Shift.apply, BitVec.getLsbD_shiftLeft, BitVec.getLsbD_allOnes] at h ⊢
    by_contra hbit
    simp only [Bool.not_eq_false, Bool.and_eq_true, decide_eq_true_eq] at hbit
    simp only [hbit.1, decide_true, Bool.true_and, decide_eq_false_iff_not] at h
    omega

/-- A merge keeps the bits outside the mask, whatever the mode (R92, R93). -/
theorem getLsbD_merge_of_mask {w : WordWidth} (mode : Mode) (old : SpriteWord w) {s f : SpriteWord w} {n : Nat}
    (hf : f.getLsbD n = false) (hs : s.getLsbD n = false) (hn : n < wordBits w) :
    (merge mode old s f).getLsbD n = old.getLsbD n := by
  cases mode <;>
    simp only [merge, BitVec.getLsbD_or, BitVec.getLsbD_xor, BitVec.getLsbD_and, BitVec.getLsbD_not, hf, hs, hn,
      decide_true, Bool.not_false, Bool.and_true, Bool.or_false, Bool.xor_false]

/-! ### A word on any platform -/

theorem ne_add_ofNat {n : Nat} (a : Addr) (hn : n < 2 ^ 32) : ∀ i < n, a ≠ a + 1#32 + BitVec.ofNat 32 i := by
  intro i hi h
  rw [add_one_add_ofNat] at h
  have := congrArg BitVec.toNat h
  simp only [BitVec.toNat_add, BitVec.toNat_ofNat] at this
  omega

theorem Memory.bytesFrom_congr {m m' : Memory} {n : Nat} {a : Addr} (acc : Nat)
    (h : ∀ i < n, m.read (a + BitVec.ofNat 32 i) = m'.read (a + BitVec.ofNat 32 i)) :
    m.bytesFrom n a acc = m'.bytesFrom n a acc := by
  induction n generalizing a acc with
  | zero => rfl
  | succ n ih =>
    have hhead : m.read a = m'.read a := by simpa using h 0 (by omega)
    have htail : ∀ i < n, m.read (a + 1#32 + BitVec.ofNat 32 i) = m'.read (a + 1#32 + BitVec.ofNat 32 i) :=
      fun i hi => by simpa [add_one_add_ofNat] using h (i + 1) (by omega)
    rw [bytesFrom, bytesFrom, hhead, ih _ htail]

/-- ReadBE on any platform: it is stopped, or goes on with the value that the word has in some memory which differs
from this one on devices only (U8). It changes no memory. -/
theorem BusProg.run_readBytes_cases (p : Platform) (n : Nat) (a : Addr) (acc : Nat) (k : Nat → BusProg) (b : Bus)
    (hn : n ≤ 2 ^ 32) :
    ((BusProg.readBytes n a acc k).run p b).bus.mem = b.mem ∨
      ∃ (m : Memory) (b' : Bus), (BusProg.readBytes n a acc k).run p b = (k (m.bytesFrom n a acc)).run p b' ∧
        b'.mem = b.mem ∧ ∀ x, p.isDevice x = false → m.read x = b.mem.read x := by
  induction n generalizing a acc b with
  | zero => exact .inr ⟨b.mem, b, rfl, rfl, fun _ _ => rfl⟩
  | succ n ih =>
    cases hc : p.check a with
    | some e => rw [readBytes, run_read_stopped p a _ b e hc]; exact .inl rfl
    | none =>
      rw [readBytes, run_read p a _ b hc]
      rcases ih (a + 1#32) (acc * 256 + (b.valueAt p a).toNat) (b.afterRead p a) (by omega) with
        hmem | ⟨m, b', hrun, hmem, hagree⟩
      · exact .inl hmem
      · refine .inr ⟨m.write a (b.valueAt p a), b', ?_, hmem, fun x hx => ?_⟩
        · rw [hrun, Memory.bytesFrom, Memory.read_write_same]
          rw [Memory.bytesFrom_congr _ fun i hi => m.read_write_other _ (ne_add_ofNat a (by omega) i hi).symm]
        · rw [Memory.read_write]
          split
          · next hxa => simp [Bus.valueAt, ← hxa, hx]
          · exact hagree x hx

/-- WriteBE on any platform keeps a bit that the word has as it stands in memory; a device's memory does not change
(U8). -/
theorem BusProg.getLsbD_run_writeBE {w : Nat} (p : Platform) (n : Nat) (a x : Addr) (v : BitVec w) (c : Nat) (b : Bus)
    (h : ∀ i < n, x = a + BitVec.ofNat 32 i → p.isDevice x = false →
      (v.extractLsb' (8 * (n - 1 - i)) 8).getLsbD c = (b.mem.read x).getLsbD c) :
    (((BusProg.writeBE n a v).run p b).bus.mem.read x).getLsbD c = (b.mem.read x).getLsbD c := by
  induction n generalizing a b with
  | zero => rfl
  | succ n ih =>
    cases hc : p.check a with
    | some e => rw [writeBE, run_write_stopped p a _ _ b e hc]
    | none =>
      have hhead : ((b.afterWrite p a (v.extractLsb' (8 * n) 8)).mem.read x).getLsbD c = (b.mem.read x).getLsbD c := by
        rw [Bus.afterWrite_mem]
        split
        · rfl
        · next hdev =>
          rw [Memory.read_write]
          split
          · next hxa => simpa using h 0 (by omega) (by simpa using hxa) (by simpa [hxa] using hdev)
          · rfl
      rw [writeBE, run_write p a _ _ b hc, ih (a + 1#32), hhead]
      intro i hi hx hdev
      rw [hhead, ← h (i + 1) (by omega) (by rw [hx, add_one_add_ofNat]) hdev,
        show n + 1 - 1 - (i + 1) = n - 1 - i by omega]

/-! ### The sprite commands -/

theorem BusProg.SparesOutside.readBE {p : Platform} {fb : Addr} {F : Nat → Nat → Prop} {w : Nat} (n : Nat) (a : Addr)
    (k : BitVec w → BusProg) (h : ∀ v, (k v).SparesOutside p fb F) : (BusProg.readBE w a n k).SparesOutside p fb F := by
  unfold BusProg.readBE
  generalize 0 = acc
  induction n generalizing a acc with
  | zero => exact h _
  | succ n ih =>
    intro b X r hX hr hF
    cases hc : p.check a with
    | some e => rw [readBytes, run_read_stopped p a _ b e hc]
    | none => rw [readBytes, run_read p a _ b hc]; exact ih _ _ _ X r hX hr hF

/-- A byte of a framebuffer word is a byte of its row (R40, R42). -/
theorem fbWordAddr_add (w : WordWidth) (fb : Addr) (row j i : Nat) :
    fbWordAddr w fb row j + BitVec.ofNat 32 i = fbByteAddr fb row (j * wordBytes w + i) := by
  rw [fbWordAddr, fbByteAddr, fbByteAddr, BitVec.add_assoc, ← BitVec.ofNat_add, Nat.add_assoc]

theorem wordByte_lt {w : WordWidth} {j i : Nat} (hj : j < 640 / wordBits w) (hi : i < wordBytes w) :
    j * wordBytes w + i < 80 := by
  cases w with
  | w8 | w16 | w32 =>
    simp only [wordBytes, wordBits] at hj hi ⊢
    omega

/-- Outside the target's mask, the merged word has the pixels of the word that was read, byte by byte (R18, R92). -/
theorem getLsbD_merged_byte {w : WordWidth} {t : Target} {i k : Nat} (m : Memory) (mode : Mode) (fb : Addr) (row : Nat)
    (s : SpriteWord w) (hi : i < wordBytes w) (hk : k < 8)
    (hmask : (t.mask w).getLsbD (wordBits w - 1 - (8 * i + k)) = false) :
    ((merge mode (BitVec.ofNat (wordBits w) (m.bytesFrom (wordBytes w) (fbWordAddr w fb row t.widx) 0))
        (t.positioned s) (t.mask w)).extractLsb' (8 * (wordBytes w - 1 - i)) 8).getLsbD (7 - k) =
      m.pixel fb (t.widx * wordBits w + (8 * i + k)) row := by
  have hbits := wordBits_eq w
  rw [BitVec.getLsbD_extractLsb', show 8 * (wordBytes w - 1 - i) + (7 - k) = wordBits w - 1 - (8 * i + k) by omega,
    getLsbD_merge_of_mask mode _ hmask (t.getLsbD_positioned_of_mask hmask s) (by omega),
    m.getLsbD_bytesFrom_eq_pixel w fb row t.widx _ (by omega)]
  simp only [show 7 - k < 8 by omega, decide_true, Bool.true_and]

/-- A target word is read, merged and written back: no pixel outside the target's mask changes (R92, R94). -/
theorem composeTarget_sparesOutside {p : Platform} {fb : Addr} {F : Nat → Nat → Prop} {w : WordWidth} {row : Nat}
    {t : Target} (mode : Mode) (s : SpriteWord w) (hrow : row < 400) (ht : t.widx < 640 / wordBits w)
    (hF : ∀ c < wordBits w, (t.mask w).getLsbD (wordBits w - 1 - c) = true → F (t.widx * wordBits w + c) row) :
    (composeTarget w mode fb row s t).SparesOutside p fb F := by
  intro b X r hX hr hout
  have hbits := wordBits_eq w
  have hn : wordBytes w ≤ 2 ^ 32 := by have := wordBits_cases w; omega
  rcases BusProg.run_readBytes_cases p (wordBytes w) (fbWordAddr w fb row t.widx) 0 (fun v =>
      .writeBE (wordBytes w) (fbWordAddr w fb row t.widx)
        (merge mode (BitVec.ofNat (wordBits w) v) (t.positioned s) (t.mask w))) b hn with
    hmem | ⟨m, b', hrun, hmem, hagree⟩
  · exact congrArg (fun m => Memory.pixel m fb X r) hmem
  · rw [composeTarget, BusProg.readBE, hrun, Memory.pixel, Memory.pixel, ← hmem]
    refine BusProg.getLsbD_run_writeBE p _ _ _ _ _ b' fun i hi haddr hdev => ?_
    rw [fbWordAddr_add, fbByteAddr_inj hr (by omega) hrow (wordByte_lt ht hi)] at haddr
    obtain ⟨rfl, hbyte⟩ := haddr
    have hX' : X = t.widx * wordBits w + (8 * i + X % 8) := by
      rw [hbits, Nat.mul_left_comm, ← Nat.add_assoc, ← Nat.mul_add, ← hbyte, Nat.div_add_mod]
    have hmask : (t.mask w).getLsbD (wordBits w - 1 - (8 * i + X % 8)) = false := by
      by_contra hbit
      exact hout (hX' ▸ hF _ (by omega) (by simpa using hbit))
    rw [getLsbD_merged_byte m mode fb r s hi (by omega) hmask, ← hX', Memory.pixel, hagree _ hdev, hmem]

/-- A sequence keeps to the footprint `F`: its runs change no other screen pixel, and its writes fall on rows of the
screen that hold a pixel of the footprint (R81, R111). -/
structure BusProg.StaysIn (p : Platform) (fb : Addr) (F : Nat → Nat → Bool) (x : BusProg) : Prop where
  spares : x.SparesOutside p fb (fun X r => F X r = true)
  writes : ∃ T, x.Makes T ∧ ∀ a, (true, a) ∈ T →
    ∃ r < 400, ∃ j < 80, a = fbByteAddr fb r j ∧ ∃ X < 640, F X r = true

theorem footprint_of_sprite {i : Instr} {w : WordWidth} {mode : Mode} (hk : spriteKind i = some (w, mode))
    (o : Operands) : footprint i o = spriteFootprint w o := by
  cases i <;> cases hk <;> rfl

theorem spriteFootprint_iff {w : WordWidth} {o : Operands} {X r : Nat} : spriteFootprint w o X r = true ↔
    (o.x ≤ X ∧ (X : Int) < o.x + wordBits w) ∧ o.y ≤ r ∧ (r : Int) < o.y + o.h := by
  simp [spriteFootprint, and_assoc]

theorem compose_sparesOutside {p : Platform} {w : WordWidth} {mode : Mode} {o : Operands} {g : Regime}
    (hg : hclip o.x w = some g) :
    (compose w mode o).SparesOutside p o.fb (fun X r => spriteFootprint w o X r = true) := by
  rw [compose_eq_drawnRows hg]
  refine .seqAll_map fun row hrow => .readBE _ _ _ fun s => .seqAll_map fun t ht => ?_
  obtain ⟨hfirst, hlast, hlt⟩ := mem_drawnRows.mp hrow
  refine composeTarget_sparesOutside mode s hlt (target_widx_lt hg ht) fun c hc hbit => ?_
  have hx := target_column hg ht
  rw [t.getLsbD_mask w hc, decide_eq_true_eq] at hbit
  exact spriteFootprint_iff.mpr (by omega)

theorem mem_kinds_of_write {w : WordWidth} {o : Operands} {g : Regime} {a : Addr}
    (h : (true, a) ∈ (drawnRows o.y o.h).flatMap (rowKinds w o (targets w g))) :
    ∃ r ∈ drawnRows o.y o.h, ∃ t ∈ targets w g, ∃ i < wordBytes w,
      a = fbByteAddr o.fb r (t.widx * wordBytes w + i) := by
  simpa [rowKinds, targetKinds, readsOf, writesOf, mem_byteAddrs, fbWordAddr_add] using h

theorem compose_staysIn (p : Platform) (w : WordWidth) (mode : Mode) (o : Operands) :
    (compose w mode o).StaysIn p o.fb (spriteFootprint w o) := by
  cases hg : hclip o.x w with
  | none =>
    rw [compose_of_no_column hg]
    exact ⟨.done, [], .done, nofun⟩
  | some g =>
    refine ⟨compose_sparesOutside hg, _, makes_compose hg, fun a ha => ?_⟩
    obtain ⟨r, hr, t, ht, n, hn, rfl⟩ := mem_kinds_of_write ha
    obtain ⟨hfirst, hlast, hlt⟩ := mem_drawnRows.mp hr
    obtain ⟨hleft, hright⟩ := column_of_hclip hg
    have hw := wordBits_cases w
    exact ⟨r, hlt, _, wordByte_lt (target_widx_lt hg ht) hn, rfl, (max 0 o.x).toNat, by omega,
      spriteFootprint_iff.mpr (by omega)⟩

theorem DrawsRect.staysIn {i : Instr} {o : Operands} (p : Platform) (h : DrawsRect i o) :
    (program i o).StaysIn p o.fb (footprint i o) := by
  obtain ⟨r, hon, hprog, hcovers⟩ := h
  rw [hprog]
  refine ⟨(rectRows_sparesOutside _ hon).mono fun X hX y hy => (hcovers X hX y hy).mpr,
    rectKinds o.fb r, makes_rectRows _ _ _, fun a ha => ?_⟩
  obtain ⟨hlen, hright, hbottom⟩ := hon
  obtain ⟨row, j, hrow, hj, rfl⟩ := mem_rectKinds.mp ha
  exact ⟨row, by omega, j, by omega, rfl, r.col, by omega,
    (hcovers r.col (by omega) row (by omega)).mpr ⟨hrow, le_refl _, by omega⟩⟩

/-- Every command keeps to its footprint. -/
theorem program_staysIn (p : Platform) (i : Instr) (o : Operands) :
    (program i o).StaysIn p o.fb (footprint i o) := by
  cases hk : spriteKind i with
  | none => exact (drawsRect_of_not_sprite hk o).staysIn p
  | some kind =>
    rw [program_eq_compose hk, footprint_of_sprite hk]
    exact compose_staysIn p _ _ o

/-! ### The obligation on the frame -/

/-- A byte that no performed access writes is as before. -/
theorem Memory.read_replay_of_not_written {p : Platform} {a : Addr} {l : List Access} (m : Memory)
    (h : ∀ v, .write a v ∉ l) : (m.replay p l).read a = m.read a := by
  induction l generalizing m with
  | nil => rfl
  | cons z l ih =>
    rw [replay_cons, ih _ fun v hv => h v (by simp [hv])]
    cases z with
    | read a' v => rfl
    | write a' v =>
      refine read_replay_cons_other p m fun ha => h v ?_
      rw [← show a' = a from ha]
      simp

/-- The memory that a command leaves is its run's, however it ends. -/
theorem exec_mem {i : Instr} {s t : State} (h : exec i s = .next t) :
    t.mem = ((program i s.operands).run s.platform s.bus).bus.mem := by
  rcases exec_cases h with ⟨-, rfl⟩ | ⟨-, rfl⟩ <;> rfl

/-- Settles O35: a byte outside the framebuffer is not written, and a written one keeps the pixels outside the
footprint. -/
theorem noCommandWritesOutsideItsFootprint : Obligations.NoCommandWritesOutsideItsFootprint := by
  intro i s t hexec
  obtain ⟨hspares, T, hmakes, hwrites⟩ := program_staysIn s.platform i s.operands
  have hwritten (a : Addr) (v : Byte)
      (h : Access.write a v ∈ ((program i s.operands).run s.platform s.bus).performed) : (true, a) ∈ T := by
    have hkind := List.mem_map_of_mem (f := Access.kind) h
    rw [hmakes.performed s s.platform] at hkind
    exact (List.takeWhile_prefix _).subset hkind
  rw [exec_mem hexec]
  refine ⟨fun a ha => ?_, fun X hX r hr hout => ?_, fun a v h => hwrites a (hwritten a v h)⟩
  · rw [s.run_mem_eq_replay]
    refine Memory.read_replay_of_not_written s.mem fun v hv => ha ?_
    obtain ⟨r, hr, j, hj, haddr, -⟩ := hwrites a (hwritten a v hv)
    exact inFramebuffer_iff.mpr ⟨r, hr, j, hj, haddr⟩
  · exact hspares s.bus X r hX hr (by simp [hout])

end Sys2Proof.Machine
end

section
/-! SUPPORT. The pixel and span commands on plain memory (R76 to R84): what one leaves, and one after another. -/

namespace Sys2Proof.Machine

/-! ### A command on plain memory -/

/-- A run that meets no device draws no free value (U8). -/
theorem BusProg.Visits.run_draws {p : Platform} {x : BusProg} {l : List Addr} (h : x.Visits l)
    (hdev : ∀ a ∈ l, p.isDevice a = false) (b : Bus) : (x.run p b).bus.draws = b.draws := by
  induction h generalizing b with
  | done => rfl
  | @read a k l _ ih =>
    cases hc : p.check a with
    | none =>
      rw [run_read p a k b hc, ih _ fun a' ha' => hdev a' (by simp [ha'])]
      simp [Bus.afterRead, hdev a (by simp)]
    | some e => rw [run_read_stopped p a k b e hc]
  | @write a v k l _ ih =>
    cases hc : p.check a with
    | none => rw [run_write p a v k b hc, ih fun a' ha' => hdev a' (by simp [ha']), Bus.afterWrite_draws]
    | some e => rw [run_write_stopped p a v k b e hc]

/-- On plain memory a command completes, and changes memory and STATUS only (R71). -/
theorem exec_of_allows {i : Instr} {s : State} (h : s.allows i) :
    exec i s = .next { s with
      mem := ((program i s.operands).run s.platform s.bus).bus.mem
      status := 0x00000000#32 } := by
  have hvisits := program_visits i s.operands
  have hplain (a : Addr) (ha : a ∈ (program i s.operands).addresses) := (s.platform.ordinary_iff a).mp (h a ha)
  obtain ⟨hstop, -⟩ := hvisits.run_completes (fun a ha => (hplain a ha).1) s.bus
  have hdraws := hvisits.run_draws (fun a ha => (hplain a ha).2) s.bus
  rw [exec_eq_runCommand, State.runCommand, State.finish_of_completed hstop, State.withBus, hdraws]
  rfl

/-! ### PLOT -/

/-- Settles O17: off screen PLOT has no access; on screen it is a read and a write of one byte. -/
theorem plotOrsOnePixel : Obligations.PlotOrsOnePixel := by
  refine ⟨rfl, ?_⟩
  intro s x y a
  refine ⟨fun hoff => ?off, fun hon => ⟨?address, fun hplain => ?plain, fun hwin hbad => ?bad⟩⟩
  case off =>
    have hscreen : ¬ onScreen x y = true := by
      rw [onScreen_iff]
      omega
    exact (noOp_of_program_eq_done (i := .plot) (s := s) (if_neg hscreen)).2
  all_goals
    have hscreen : onScreen x y = true := (onScreen_iff x y).mpr (by omega)
    have hprog : program .plot s.operands =
        .read a fun v => .write a (v ||| (0x80#8 >>> (x.toNat % 8))) .done := if_pos hscreen
  case address =>
    have hindex : y * 80 + x / 8 = ((y.toNat * 80 + x.toNat / 8 : Nat) : Int) := by omega
    rw [hindex, BitVec.ofInt_natCast]
    rfl
  case plain =>
    obtain ⟨hcheck, hdev⟩ := (s.platform.ordinary_iff a).mp hplain
    have hallows : s.allows .plot := by
      intro b hb
      rw [hprog] at hb
      obtain rfl : b = a := by simpa [BusProg.addresses] using hb
      exact hplain
    have hbit : (x % 8).toNat = x.toNat % 8 := by omega
    rw [exec_of_allows hallows, hprog, BusProg.run_read _ _ _ _ hcheck, BusProg.run_write _ _ _ _ _ hcheck, hbit]
    simp [hdev, Bus.valueAt]
  case bad =>
    have hcheck := (s.platform.check_eq_refused a).mpr ⟨hwin, hbad⟩
    have hrun : (program .plot s.operands).run s.platform s.bus = ⟨some .refused, s.bus⟩ := by
      rw [hprog, BusProg.run_read_stopped _ _ _ _ _ hcheck]
    rw [exec_of_refused (by rw [hrun]), hrun]
    rfl

/-! ### What a span command leaves -/

/-- The span commands, each with the value it draws (R77 to R80). -/
def spanInks : List (Instr × Bool) := [(.plot, true), (.hline, true), (.fillrect, true), (.clearrect, false)]

theorem spanOp_of_mem_spanInks {i : Instr} {ink : Bool} (h : (i, ink) ∈ spanInks) :
    spriteKind i = none ∧ (spanOp i).ink = ink := by
  simp only [spanInks, List.mem_cons, List.not_mem_nil, or_false, Prod.mk.injEq] at h
  rcases h with ⟨rfl, rfl⟩ | ⟨rfl, rfl⟩ | ⟨rfl, rfl⟩ | ⟨rfl, rfl⟩ <;> exact ⟨rfl, rfl⟩

/-- Settles O18: the run draws the rectangle, and what is outside it is kept as for every command. -/
theorem spanCommandsDrawTheirFootprint : Obligations.SpanCommandsDrawTheirFootprint := by
  intro s i ink hi hallows
  obtain ⟨hk, rfl⟩ := spanOp_of_mem_spanInks hi
  have hexec := exec_of_allows hallows
  obtain ⟨hframe, hspared, -⟩ := noCommandWritesOutsideItsFootprint i s _ hexec
  refine ⟨_, hexec, rfl, fun X hX r hr => ?_, hframe⟩
  obtain ⟨rect, hon, hprog, hcovers⟩ := drawsRect_of_not_sprite hk s.operands
  split
  · next hfoot =>
    rw [State.allows, hprog] at hallows
    dsimp only
    rw [hprog]
    exact (rectRows_inks hon hallows s.bus).2 X r hX hr (.inl ((hcovers X hX r hr).mp hfoot))
  · next hfoot => exact hspared X hX r hr (by simpa using hfoot)

/-! ### One span command after another -/

/-- FILLRECT and CLEARRECT access the same bytes (R75, R79, R80). -/
theorem addresses_clearrect (o : Operands) : (program .clearrect o).addresses = (program .fillrect o).addresses := by
  simp only [program, clearrectProg, fillrectProg]
  split
  · rfl
  · rw [(makes_rectRows _ _ _).visits.addresses_eq, (makes_rectRows _ _ _).visits.addresses_eq]

theorem allows_clearrect_iff {s : State} : s.allows .clearrect ↔ s.allows .fillrect := by
  simp only [State.allows, addresses_clearrect]

/-- Two span commands that `s` allows, one after the other: the operands, the platform and the framebuffer's address do
not change with memory and STATUS, so the second draws over what the first left. -/
theorem span_then_span {s : State} {i i' : Instr} {ink ink' : Bool}
    (hi : (i, ink) ∈ spanInks) (hi' : (i', ink') ∈ spanInks) (h : s.allows i) (h' : s.allows i') :
    ∃ t u, exec i s = .next t ∧ exec i' t = .next u ∧
      (∀ X < 640, ∀ r < 400, t.mem.pixel s.fbBase X r =
        if footprint i s.operands X r then ink else s.mem.pixel s.fbBase X r) ∧
      (∀ X < 640, ∀ r < 400, u.mem.pixel s.fbBase X r =
        if footprint i' s.operands X r then ink' else t.mem.pixel s.fbBase X r) ∧
      ∀ a, ¬ inFramebuffer s.fbBase a → u.mem.read a = t.mem.read a := by
  obtain ⟨t, ht, hts, hpixels, -⟩ := spanCommandsDrawTheirFootprint s i ink hi h
  have hops : t.operands = s.operands := by rw [hts]; rfl
  have hfb : t.fbBase = s.fbBase := congrArg Operands.fb hops
  have hallows : t.allows i' := by rw [hts]; exact h'
  obtain ⟨u, hu, -, hpixels', hframe⟩ := spanCommandsDrawTheirFootprint t i' ink' hi' hallows
  rw [hops, hfb] at hpixels'
  rw [hfb] at hframe
  exact ⟨t, u, ht, hu, hpixels, hpixels', hframe⟩

/-- Settles O21: the second of the two draws over the first, on the same rectangle. -/
theorem fillThenClearAndClearThenFill : Obligations.FillThenClearAndClearThenFill := by
  intro s hfill
  have hclear := allows_clearrect_iff.mpr hfill
  have hfoot : footprint .clearrect s.operands = footprint .fillrect s.operands := rfl
  constructor
  · obtain ⟨t, u, ht, hu, htpix, hupix, -⟩ :=
      span_then_span (ink := true) (ink' := false) (by simp [spanInks]) (by simp [spanInks]) hfill hclear
    have hpixels (X : Nat) (hX : X < 640) (r : Nat) (hr : r < 400) : u.mem.pixel s.fbBase X r =
        if footprint .fillrect s.operands X r then false else s.mem.pixel s.fbBase X r := by
      rw [hupix X hX r hr, htpix X hX r hr, hfoot]
      split <;> rfl
    refine ⟨t, u, ht, hu, hpixels, forall₅_congr fun X hX r hr hin => ?_⟩
    rw [hpixels X hX r hr, if_pos hin, eq_comm]
  · obtain ⟨t, u, ht, hu, -, hupix, -⟩ :=
      span_then_span (ink := false) (ink' := true) (by simp [spanInks]) (by simp [spanInks]) hclear hfill
    exact ⟨t, u, ht, hu, fun X hX r hr hin => (hupix X hX r hr).trans (if_pos hin)⟩

/-- Settles O22: the second run finds its footprint drawn. -/
theorem spanCommandsAreIdempotent : Obligations.SpanCommandsAreIdempotent := by
  intro s i hi hallows
  have hmap : i ∈ spanInks.map Prod.fst := hi
  obtain ⟨⟨i', ink⟩, hmem, rfl⟩ := List.mem_map.mp hmap
  obtain ⟨t, u, ht, hu, htpix, hupix, hframe⟩ := span_then_span hmem hmem hallows hallows
  refine ⟨t, u, ht, hu, fun a => ?_⟩
  by_cases ha : inFramebuffer s.fbBase a
  · refine Memory.read_eq_of_pixel_eq (fun X hX r hr => ?_) ha
    rw [hupix X hX r hr, htpix X hX r hr]
    split <;> rfl
  · exact hframe a ha

/-- HLINE fills the same columns whichever endpoint comes first (R82). -/
theorem hlineClip_comm (x1 x2 y : Int) : hlineClip x1 x2 y = hlineClip x2 x1 y := by
  simp only [hlineClip, min_comm x1 x2, max_comm x1 x2]

/-- Settles O19: the two endpoints enter HLINE through its clip only, which is symmetric. -/
theorem hlineIsSymmetricInItsEndpoints : Obligations.HlineIsSymmetricInItsEndpoints := by
  intro s swapped s'
  have hlow : lowHalf swapped = highHalf s.arg0 := congrArg BitVec.toInt BitVec.extractLsb'_append_eq_right
  have hhigh : highHalf swapped = lowHalf s.arg0 := congrArg BitVec.toInt BitVec.extractLsb'_append_eq_left
  have hprog : program .hline s'.operands = program .hline s.operands := by
    have hclip : hlineClip s'.operands.x s'.operands.x2 s'.operands.y =
        hlineClip s.operands.x s.operands.x2 s.operands.y := by
      simp only [s', State.operands, hlow, hhigh, hlineClip_comm (highHalf s.arg0)]
    simp only [program, hlineProg, hclip]
    rfl
  have hrun : (program .hline s'.operands).run s'.platform s'.bus =
      (program .hline s.operands).run s.platform s.bus := by rw [hprog]; rfl
  refine ⟨hrun, fun t ht => ?_⟩
  rw [exec_eq_runCommand, State.runCommand] at ht ⊢
  have hts := Host.Outcome.next.inj (ht.symm.trans (State.finish_eq_next s ht))
  rw [hrun, State.finish_eq_next s' ht, hts]

end Sys2Proof.Machine
end

section
/-! SUPPORT. Sprites by columns (R88 to R92): which target word holds a screen column, what its mask and its positioned
sprite have there, and the columns of a whole row (R112). -/

namespace Sys2Proof.Machine

/-! ### The target words of a row -/

/-- Different target words of a row have different word indices (R89 to R91). -/
theorem nodup_map_widx {x : Int} {w : WordWidth} {g : Regime} (hg : hclip x w = some g) :
    ((targets w g).map Target.widx).Nodup := by
  rw [map_widx_targets hg]
  split_ifs <;> simp

theorem target_eq_of_widx_eq {x : Int} {w : WordWidth} {g : Regime} (hg : hclip x w = some g) {t t' : Target}
    (ht : t ∈ targets w g) (ht' : t' ∈ targets w g) (h : t'.widx = t.widx) : t' = t :=
  List.inj_on_of_nodup_map (nodup_map_widx hg) ht' ht h

theorem column_div_wordBits {w : WordWidth} {j c : Nat} (hc : c < wordBits w) :
    (j * wordBits w + c) / wordBits w = j := by
  rw [Nat.mul_comm, Nat.mul_add_div (by omega), Nat.div_eq_of_lt hc, Nat.add_zero]

/-- Every column of the sprite that is on screen is in a target word (R92). -/
theorem exists_target_of_column {x : Int} {w : WordWidth} {g : Regime} (hg : hclip x w = some g) {X : Nat}
    (hX : X < 640) (hin : x ≤ X ∧ (X : Int) < x + wordBits w) : ∃ t ∈ targets w g, t.widx = X / wordBits w := by
  suffices X / wordBits w ∈ (targets w g).map Target.widx by simpa using this
  rw [map_widx_targets hg]
  rcases wordBits_cases w with hw | hw | hw
  all_goals
    rw [hw] at hin ⊢
    split_ifs <;> simp <;> omega

/-- The footprint mask has a 1 exactly at the columns of the sprite (R92). -/
theorem getLsbD_mask_of_target {x : Int} {w : WordWidth} {g : Regime} (hg : hclip x w = some g) {t : Target}
    (ht : t ∈ targets w g) {X : Nat} (hX : t.widx = X / wordBits w) :
    (t.mask w).getLsbD (wordBits w - 1 - X % wordBits w) = decide (x ≤ X ∧ (X : Int) < x + wordBits w) := by
  have hcolumn := target_column hg ht
  have hsplit := Nat.div_add_mod' X (wordBits w)
  have hpos : 0 < wordBits w := by have := wordBits_cases w; omega
  rw [← hX] at hsplit
  rw [t.getLsbD_mask w (Nat.mod_lt X hpos), decide_eq_decide]
  omega

/-- Where the mask is 1, the shift has put the sprite's bit for that column there (R92). -/
theorem Target.getLsbD_positioned (t : Target) {w : WordWidth} {c : Nat} (hc : c < wordBits w)
    (hmask : (t.mask w).getLsbD (wordBits w - 1 - c) = true) (sprite : SpriteWord w) :
    (t.positioned sprite).getLsbD (wordBits w - 1 - c) =
      sprite.getLsbD (wordBits w - 1 - (c - t.shift.offset).toNat) := by
  rw [t.getLsbD_mask w hc, decide_eq_true_eq] at hmask
  cases hs : t.shift with
  | right n =>
    rw [hs, Shift.offset] at hmask
    rw [positioned, hs, Shift.apply, Shift.offset, BitVec.getLsbD_ushiftRight]
    congr 1
    omega
  | left n =>
    rw [hs, Shift.offset] at hmask
    rw [positioned, hs, Shift.apply, Shift.offset, BitVec.getLsbD_shiftLeft,
      show wordBits w - 1 - c - n = wordBits w - 1 - (c - -(n : Int)).toNat by omega]
    simp only [show wordBits w - 1 - c < wordBits w by omega, show ¬ wordBits w - 1 - c < n by omega,
      decide_true, decide_false, Bool.not_false, Bool.true_and]

/-- The positioned sprite shows sprite column `X - x` at screen column `X` (R92). -/
theorem getLsbD_positioned_of_target {x : Int} {w : WordWidth} {g : Regime} (hg : hclip x w = some g) {t : Target}
    (ht : t ∈ targets w g) {X : Nat} (hX : t.widx = X / wordBits w) (hin : x ≤ X ∧ (X : Int) < x + wordBits w)
    (sprite : SpriteWord w) :
    (t.positioned sprite).getLsbD (wordBits w - 1 - X % wordBits w) =
      sprite.getLsbD (wordBits w - 1 - ((X : Int) - x).toNat) := by
  have hcolumn := target_column hg ht
  have hsplit := Nat.div_add_mod' X (wordBits w)
  have hpos : 0 < wordBits w := by have := wordBits_cases w; omega
  have hmask := (getLsbD_mask_of_target hg ht hX).trans (decide_eq_true hin)
  rw [← hX] at hsplit
  rw [t.getLsbD_positioned (Nat.mod_lt X hpos) hmask,
    show ((X % wordBits w : Nat) : Int) - t.shift.offset = X - x by omega]

/-- Settles O28: a target's columns are those that its shift leaves in the word, and REPINV is its own equation. -/
theorem targetMasksCoverTheFootprint : Obligations.TargetMasksCoverTheFootprint := by
  intro w x g hg
  refine ⟨fun t ht => ⟨target_widx_lt hg ht, fun sprite => ?inside, fun c hc => ?column⟩,
    fun X hX hlo hhi => ?exactlyOne, fun _ _ _ => rfl⟩
  case inside =>
    refine BitVec.eq_of_getLsbD_eq fun n hn => ?_
    rw [BitVec.getLsbD_and, BitVec.getLsbD_not, decide_eq_true hn, Bool.true_and]
    cases hmask : (t.mask w).getLsbD n with
    | true => simp
    | false => simp [t.getLsbD_positioned_of_mask hmask sprite]
  case column =>
    have hdiv : t.widx = (t.widx * wordBits w + c) / wordBits w := (column_div_wordBits hc).symm
    have hmod : (t.widx * wordBits w + c) % wordBits w = c := by
      rw [Nat.mul_comm, Nat.mul_add_mod, Nat.mod_eq_of_lt hc]
    have hmask := getLsbD_mask_of_target hg ht hdiv
    have hbit := getLsbD_positioned_of_target hg ht hdiv
    rw [hmod] at hmask hbit
    refine ⟨?_, fun hset => hbit (by simpa [hmask] using hset)⟩
    rw [hmask, decide_eq_decide]
    omega
  case exactlyOne =>
    obtain ⟨t, ht, hwidx⟩ := exists_target_of_column hg hX ⟨hlo, by omega⟩
    exact ⟨t, ht, hwidx, fun t' ht' h => target_eq_of_widx_eq hg ht ht' (h.trans hwidx.symm)⟩

/-! ### The columns of a row -/

/-- The target words of a row cover the sprite's columns that are on screen (R92). -/
theorem mem_rowColumns {x : Int} {w : WordWidth} {g : Regime} (hg : hclip x w = some g) {X : Nat} :
    X ∈ rowColumns w g ↔ X < 640 ∧ x ≤ X ∧ (X : Int) < x + wordBits w := by
  simp only [rowColumns, List.mem_filter, List.mem_range, SW_eq, List.any_eq_true, Bool.and_eq_true, beq_iff_eq]
  refine and_congr_right fun hX => ⟨?_, fun hin => ?_⟩
  · rintro ⟨t, ht, hwidx, hmask⟩
    simpa [getLsbD_mask_of_target hg ht hwidx] using hmask
  · obtain ⟨t, ht, hwidx⟩ := exists_target_of_column hg hX hin
    exact ⟨t, ht, hwidx, (getLsbD_mask_of_target hg ht hwidx).trans (decide_eq_true hin)⟩

/-- They cover them in one piece (R92). -/
theorem rowColumns_eq_range' {x : Int} {w : WordWidth} {g : Regime} (hg : hclip x w = some g) {first count : Nat}
    (hfirst : (first : Int) = max 0 x) (hcount : (first + count : Int) = min 640 (x + wordBits w)) :
    rowColumns w g = List.range' first count := by
  refine List.Pairwise.eq_of_mem_iff (List.pairwise_lt_range.filter _) List.pairwise_lt_range' fun X => ?_
  rw [mem_rowColumns hg, List.mem_range'_1]
  omega

/-- At each of them the row shows the sprite's bit for that column (R92). -/
theorem rowBit_of_mem {x : Int} {w : WordWidth} {g : Regime} (hg : hclip x w = some g) {X : Nat}
    (hX : X ∈ rowColumns w g) (sprite : SpriteWord w) :
    rowBit w g sprite X = sprite.getLsbD (wordBits w - 1 - ((X : Int) - x).toNat) := by
  obtain ⟨hlt, hin⟩ := (mem_rowColumns hg).mp hX
  obtain ⟨t, ht, hwidx⟩ := exists_target_of_column hg hlt hin
  rw [← getLsbD_positioned_of_target hg ht hwidx hin, Bool.eq_iff_iff]
  simp only [rowBit, List.any_eq_true, Bool.and_eq_true, beq_iff_eq]
  refine ⟨?_, fun hbit => ⟨t, ht, hwidx, hbit⟩⟩
  rintro ⟨t', ht', hwidx', hbit⟩
  rwa [target_eq_of_widx_eq hg ht ht' (hwidx'.trans hwidx.symm)] at hbit

theorem exists_hclip {x : Int} {w : WordWidth} (hx : -(wordBits w : Int) < x ∧ x < 640) :
    ∃ g, hclip x w = some g := by
  refine Option.ne_none_iff_exists'.mp fun hnone => ?_
  have := (hclip_eq_none x w).mp hnone
  omega

/-- Settles O29: both rows are those of a sprite cut by an edge of the screen. -/
theorem clipSymmetryAtBothEdges : Obligations.ClipSymmetryAtBothEdges := by
  intro w k hk hkw
  have hw := wordBits_cases w
  obtain ⟨g, hg⟩ := exists_hclip (x := -(k : Int)) (w := w) (by omega)
  obtain ⟨g', hg'⟩ := exists_hclip (x := 640 - ((wordBits w : Int) - k)) (w := w) (by omega)
  have hleft : rowColumns w g = List.range (wordBits w - k) := by
    rw [List.range_eq_range']
    exact rowColumns_eq_range' hg (by omega) (by omega)
  have hright : rowColumns w g' = List.range' (640 - wordBits w + k) (wordBits w - k) :=
    rowColumns_eq_range' hg' (by omega) (by omega)
  refine ⟨g, g', hg, hg', hleft, hright, by rw [hleft, List.length_range], by rw [hright, List.length_range'],
    fun sprite X hX => ?_, fun sprite X hX => ?_⟩
  · rw [rowBit_of_mem hg hX, show ((X : Int) - -k).toNat = X + k by omega]
  · rw [rowBit_of_mem hg' hX,
      show ((X : Int) - (640 - ((wordBits w : Int) - k))).toNat = X - (640 - wordBits w + k) by omega]

end Sys2Proof.Machine
end

section
/-! SUPPORT. What a sprite command draws on plain memory (R93, R94, R110): one target word, one row, and row after row,
each composed from the memory that the rows above it left (R141). -/

namespace Sys2Proof.Machine

/-! ### Sequences on plain memory -/

/-- Every access of a sequence falls on plain memory, outside the block's own window. -/
def BusProg.Plain (p : Platform) (x : BusProg) : Prop := ∀ a ∈ x.addresses, p.ordinary a = true

theorem BusProg.plain_seq_iff {p : Platform} {x y : BusProg} : (x.seq y).Plain p ↔ x.Plain p ∧ y.Plain p := by
  simp only [Plain, addresses_seq, List.forall_mem_append]

theorem BusProg.plain_seqAll_map_iff {p : Platform} {ι : Type} {f : ι → BusProg} {is : List ι} :
    (BusProg.seqAll (is.map f)).Plain p ↔ ∀ i ∈ is, (f i).Plain p := by
  simp only [Plain, addresses_seqAll, List.flatMap_map, List.mem_flatMap]
  exact ⟨fun h i hi a ha => h a ⟨i, hi, ha⟩, fun h a ⟨i, hi, ha⟩ => h i hi a ha⟩

/-- On plain memory ReadBE goes on with the word that stands there (R16, R47). -/
theorem BusProg.run_readBE_of_plain {p : Platform} {w n : Nat} {a : Addr} {k : BitVec w → BusProg} {l : List Addr}
    (hk : ∀ v, (k v).Visits l) (h : (BusProg.readBE w a n k).Plain p) (b : Bus) :
    (k (BitVec.ofNat w (b.mem.bytesFrom n a 0))).Plain p ∧ ∃ b' : Bus, b'.mem = b.mem ∧
      (BusProg.readBE w a n k).run p b = (k (BitVec.ofNat w (b.mem.bytesFrom n a 0))).run p b' := by
  rw [Plain, (visits_readBE n a k l hk).addresses_eq, List.forall_mem_append] at h
  obtain ⟨log, hrun⟩ := run_readBytes p n a 0 (fun v => k (BitVec.ofNat w v)) b h.1
  refine ⟨?_, { b with log := log ++ b.log }, rfl, hrun⟩
  rw [Plain, (hk _).addresses_eq]
  exact h.2

/-! ### Sequences that change each pixel of a set by a function -/

/-- A run of the sequence comes to its end, puts each screen pixel `(X, r)` of `F` through `φ X`, and changes no other
screen pixel. -/
structure BusProg.Merges (p : Platform) (fb : Addr) (F : Nat → Nat → Prop) (φ : Nat → Bool → Bool)
    (x : BusProg) : Prop where
  spares : x.SparesOutside p fb F
  merges : ∀ b : Bus, (x.run p b).stop = none ∧ ∀ X r : Nat, X < 640 → r < 400 → F X r →
    (x.run p b).bus.mem.pixel fb X r = φ X (b.mem.pixel fb X r)

/-- Sequences one after another, each on pixels of its own. -/
theorem BusProg.Merges.seqAll_map {p : Platform} {fb : Addr} {φ : Nat → Bool → Bool} {ι : Type}
    {f : ι → BusProg} {F : ι → Nat → Nat → Prop} {is : List ι} (h : ∀ i ∈ is, (f i).Merges p fb (F i) φ)
    (hapart : is.Pairwise fun i j => ∀ X r, F i X r → ¬ F j X r) :
    (BusProg.seqAll (is.map f)).Merges p fb (fun X r => ∃ i ∈ is, F i X r) φ := by
  refine ⟨.seqAll_map fun i hi => (h i hi).spares.mono fun X _ r _ hF => ⟨i, hi, hF⟩, ?_⟩
  induction is with
  | nil => exact fun b => ⟨rfl, fun X r _ _ hF => by simp at hF⟩
  | cons i is ih =>
    intro b
    obtain ⟨hhead, htail⟩ := List.pairwise_cons.mp hapart
    have hi := h i (by simp)
    obtain ⟨hstop, hfirst⟩ := hi.merges b
    obtain ⟨hstop', hrest⟩ := ih (fun j hj => h j (by simp [hj])) htail ((f i).run p b).bus
    have hspared : (BusProg.seqAll (is.map f)).SparesOutside p fb (fun X r => ∃ j ∈ is, F j X r) :=
      .seqAll_map fun j hj => (h j (by simp [hj])).spares.mono fun X _ r _ hF => ⟨j, hj, hF⟩
    rw [List.map_cons, seqAll_cons, run_seq, hstop]
    refine ⟨hstop', fun X r hX hr ⟨j, hj, hF⟩ => ?_⟩
    rcases List.mem_cons.mp hj with rfl | hj
    · rw [hspared _ X r hX hr fun ⟨j', hj', hF'⟩ => hhead j' hj' X r hF hF', hfirst X r hX hr hF]
    · rw [hrest X r hX hr ⟨j, hj, hF⟩, hi.spares b X r hX hr fun hF' => hhead j hj X r hF' hF]

/-! ### One target word -/

/-- Inside the mask a merge is the mode's function of the pixel and the sprite's bit (R93, R110). -/
theorem getLsbD_merge {w : WordWidth} (mode : Mode) (old s : SpriteWord w) {f : SpriteWord w} {n : Nat}
    (hf : f.getLsbD n = true) : (merge mode old s f).getLsbD n = mergePixel mode (old.getLsbD n) (s.getLsbD n) := by
  have hn : n < wordBits w := BitVec.lt_of_getLsbD hf
  cases mode with
  | or => exact BitVec.getLsbD_or
  | xor => exact BitVec.getLsbD_xor
  | rep => simp [merge, mergePixel, hf]
  | repinv => simp [merge, mergePixel, hf]
  | alpha => simp [merge, mergePixel, hn]

/-- The sprite's pixels that lie in a target word. -/
def Target.draws (t : Target) (w : WordWidth) (x : Int) (row X r : Nat) : Prop :=
  r = row ∧ t.widx = X / wordBits w ∧ x ≤ X ∧ (X : Int) < x + wordBits w

/-- On plain memory a target word is written back as the merge of the word that stands there (R94). -/
theorem run_composeTarget {p : Platform} {w : WordWidth} {mode : Mode} {fb : Addr} {row : Nat} {s : SpriteWord w}
    {t : Target} (h : (composeTarget w mode fb row s t).Plain p) (b : Bus) :
    ((composeTarget w mode fb row s t).run p b).stop = none ∧
      ((composeTarget w mode fb row s t).run p b).bus.mem =
        b.mem.writeWord (wordBytes w) (fbWordAddr w fb row t.widx)
          (merge mode (BitVec.ofNat (wordBits w) (b.mem.bytesFrom (wordBytes w) (fbWordAddr w fb row t.widx) 0))
            (t.positioned s) (t.mask w)) := by
  obtain ⟨hwrite, b', hmem, hrun⟩ := BusProg.run_readBE_of_plain (fun _ => BusProg.visits_writeBE _ _ _) h b
  rw [BusProg.Plain, BusProg.addresses_writeBE] at hwrite
  obtain ⟨log, hrun'⟩ := BusProg.run_writeBE p _ _ _ b' hwrite
  rw [composeTarget, hrun, hrun', hmem]
  exact ⟨rfl, rfl⟩

theorem composeTarget_merges {p : Platform} {w : WordWidth} {mode : Mode} {fb : Addr} {row : Nat} {s : SpriteWord w}
    {x : Int} {g : Regime} {t : Target} (hg : hclip x w = some g) (ht : t ∈ targets w g) (hrow : row < 400)
    (h : (composeTarget w mode fb row s t).Plain p) :
    (composeTarget w mode fb row s t).Merges p fb (t.draws w x row) fun X v =>
      mergePixel mode v (s.getLsbD (wordBits w - 1 - ((X : Int) - x).toNat)) := by
  refine ⟨composeTarget_sparesOutside mode s hrow (target_widx_lt hg ht) fun c hc hmask => ?_, fun b => ?_⟩
  · have hcolumn := target_column hg ht
    rw [t.getLsbD_mask w hc, decide_eq_true_eq] at hmask
    exact ⟨rfl, (column_div_wordBits hc).symm, by omega, by omega⟩
  · obtain ⟨hstop, hmem⟩ := run_composeTarget h b
    refine ⟨hstop, ?_⟩
    rintro X r - - ⟨rfl, hwidx, hin⟩
    have hmask := (getLsbD_mask_of_target hg ht hwidx).trans (decide_eq_true hin)
    have hsplit : X = t.widx * wordBits w + X % wordBits w := by rw [hwidx, Nat.div_add_mod']
    have hpos : 0 < wordBits w := by have := wordBits_cases w; omega
    have hc := Nat.mod_lt X hpos
    calc ((composeTarget w mode fb r s t).run p b).bus.mem.pixel fb X r
      _ = mergePixel mode (b.mem.pixel fb (t.widx * wordBits w + X % wordBits w) r)
            ((t.positioned s).getLsbD (wordBits w - 1 - X % wordBits w)) := by
          rw [hmem]
          conv_lhs => rw [hsplit]
          rw [Memory.pixel_writeWord _ _ _ _ _ _ _ hc, getLsbD_merge mode _ _ hmask,
            Memory.getLsbD_bytesFrom_eq_pixel _ _ _ _ _ _ hc]
      _ = _ := by rw [← hsplit, getLsbD_positioned_of_target hg ht hwidx hin]

/-! ### One row -/

/-- The bitmap row word that is read has sprite column `c` at its bit `colbit_W(c)` (R18, R43). -/
theorem Memory.getLsbD_bytesFrom_eq_spriteBit (m : Memory) (w : WordWidth) (bm : Addr) {c : Nat} (i : Nat)
    (hc : c < wordBits w) :
    (BitVec.ofNat (wordBits w) (m.bytesFrom (wordBytes w) (bitmapRowAddr w bm i) 0)).getLsbD (wordBits w - 1 - c) =
      m.spriteBit bm w c i := by
  have hw := wordBits_eq w
  rw [BitVec.getLsbD_ofNat, testBit_bytesFrom, if_pos (by omega),
    show wordBytes w - 1 - (wordBits w - 1 - c) / 8 = c / 8 by omega,
    show (wordBits w - 1 - c) % 8 = 7 - c % 8 by omega, bitmapRowAddr, BitVec.add_assoc, ← BitVec.ofNat_add]
  simp only [show wordBits w - 1 - c < wordBits w by omega, decide_true, Bool.true_and, spriteBit]

/-- On plain memory a row leaves each of the sprite's columns on screen at the mode's function of its pixel and of the
sprite's bit, both as they stand when the row begins (R87, R94, R110). -/
theorem run_composeRow {p : Platform} {w : WordWidth} {mode : Mode} {o : Operands} {g : Regime} {row : Nat}
    (hg : hclip o.x w = some g) (hrow : row < 400) (h : (composeRow w mode o (targets w g) row).Plain p) (b : Bus)
    {X : Nat} (hX : X < 640) (hin : o.x ≤ X ∧ (X : Int) < o.x + wordBits w) :
    ((composeRow w mode o (targets w g) row).run p b).bus.mem.pixel o.fb X row =
      mergePixel mode (b.mem.pixel o.fb X row)
        (b.mem.spriteBit o.bm w ((X : Int) - o.x).toNat ((row : Int) - o.y).toNat) := by
  obtain ⟨hwords, b', hmem, hrun⟩ := BusProg.run_readBE_of_plain
    (fun s => BusProg.Visits.seqAll_map _ _ (targets w g) fun t => visits_composeTarget w mode o.fb row s t) h b
  have hapart : (targets w g).Pairwise fun t t' => ∀ X r, t.draws w o.x row X r → ¬ t'.draws w o.x row X r :=
    (List.pairwise_map.mp (nodup_map_widx hg)).imp fun hne X r ⟨_, ht, _⟩ ⟨_, ht', _⟩ => hne (ht.trans ht'.symm)
  have hmerges := BusProg.Merges.seqAll_map
    (fun t ht => composeTarget_merges hg ht hrow (BusProg.plain_seqAll_map_iff.mp hwords t ht)) hapart
  obtain ⟨t, ht, hwidx⟩ := exists_target_of_column hg hX hin
  rw [composeRow, hrun, (hmerges.merges b').2 X row hX hrow ⟨t, ht, rfl, hwidx, hin⟩, hmem,
    Memory.getLsbD_bytesFrom_eq_spriteBit _ _ _ _ (by omega)]

/-! ### Row after row -/

theorem spriteFootprint_withHeight_iff {w : WordWidth} {o : Operands} {h : Int} {X r : Nat} :
    spriteFootprint w (o.withHeight h) X r = true ↔
      (o.x ≤ X ∧ (X : Int) < o.x + wordBits w) ∧ o.y ≤ r ∧ (r : Int) < o.y + h :=
  spriteFootprint_iff

theorem spriteFootprint_rowBelow_iff {w : WordWidth} {o : Operands} {n X r : Nat} :
    spriteFootprint w (o.rowBelow w n) X r = true ↔
      (o.x ≤ X ∧ (X : Int) < o.x + wordBits w) ∧ o.y + n ≤ r ∧ (r : Int) < o.y + n + 1 :=
  spriteFootprint_iff

/-- On screen, the row below `n` rows is that row of the row loop (R94). -/
theorem compose_rowBelow {w : WordWidth} {mode : Mode} {o : Operands} {g : Regime} {n r : Nat}
    (hg : hclip o.x w = some g) (hr : r < 400) (hrow : (r : Int) = o.y + n) :
    compose w mode (o.rowBelow w n) = composeRow w mode o (targets w g) r := by
  have hone : drawnRows (o.rowBelow w n).y (o.rowBelow w n).h = [r] := by
    simp only [drawnRows, Operands.rowBelow, ← hrow]
    rw [show (max 0 (r : Int)).toNat = r by omega, show (min ((r : Int) + 1) 400 - max 0 (r : Int)).toNat = 1 by omega,
      List.range'_one]
  rw [compose_eq_drawnRows (o := o.rowBelow w n) hg, hone, List.map_singleton, BusProg.seqAll_cons,
    BusProg.seqAll_nil, BusProg.seq_done, composeRow_rowBelow hrow]

theorem plain_compose_of_le {p : Platform} {w : WordWidth} {mode : Mode} {o : Operands} {n m : Nat} (hnm : n ≤ m)
    (h : (compose w mode (o.withHeight m)).Plain p) : (compose w mode (o.withHeight n)).Plain p := by
  induction hnm with
  | refl => exact h
  | @step m _ ih =>
    rw [Nat.cast_succ, compose_succ, BusProg.plain_seq_iff] at h
    exact ih h.1

theorem run_completes_of_plain {p : Platform} {w : WordWidth} {mode : Mode} {o : Operands}
    (h : (compose w mode o).Plain p) (b : Bus) : ((compose w mode o).run p b).stop = none := by
  obtain ⟨l, hvisits⟩ := exists_visits_compose w mode o
  rw [BusProg.Plain, hvisits.addresses_eq] at h
  exact (hvisits.run_completes (fun a ha => ((p.ordinary_iff a).mp (h a ha)).1) b).1

/-- The memory once a sprite's rows above row `n` are drawn: what the command leaves with height `n`. -/
def Bus.memAfterRows (b : Bus) (p : Platform) (w : WordWidth) (mode : Mode) (o : Operands) (n : Nat) : Memory :=
  ((compose w mode (o.withHeight n)).run p b).bus.mem

/-- R110 with each bitmap row as it is read: a footprint pixel is drawn once, in its own row, from the memory that the
rows above it left. -/
theorem Bus.pixel_memAfterRows {p : Platform} {w : WordWidth} {mode : Mode} {o : Operands} (b : Bus) {n : Nat}
    (h : (compose w mode (o.withHeight n)).Plain p) {X r : Nat} (hX : X < 640) (hr : r < 400)
    (hin : spriteFootprint w (o.withHeight n) X r = true) :
    (b.memAfterRows p w mode o n).pixel o.fb X r = mergePixel mode (b.mem.pixel o.fb X r)
      ((b.memAfterRows p w mode o ((r : Int) - o.y).toNat).spriteBit o.bm w
        ((X : Int) - o.x).toNat ((r : Int) - o.y).toNat) := by
  induction n with
  | zero =>
    obtain ⟨-, hfirst, hlast⟩ := spriteFootprint_withHeight_iff.mp hin
    omega
  | succ n ih =>
    rw [Nat.cast_succ, compose_succ, BusProg.plain_seq_iff] at h
    obtain ⟨habove, hbelow⟩ := h
    have hrun : b.memAfterRows p w mode o (n + 1) =
        ((compose w mode (o.rowBelow w n)).run p ((compose w mode (o.withHeight n)).run p b).bus).bus.mem := by
      rw [memAfterRows, Nat.cast_succ, compose_succ, BusProg.run_seq, run_completes_of_plain habove]
    obtain ⟨hcolumn, hfirst, hlast⟩ := spriteFootprint_withHeight_iff.mp hin
    rw [hrun]
    by_cases hrow : (r : Int) = o.y + n
    · obtain ⟨g, hg⟩ := exists_hclip (x := o.x) (w := w) (by omega)
      have hkept : (b.memAfterRows p w mode o n).pixel o.fb X r = b.mem.pixel o.fb X r := by
        refine (compose_staysIn p w mode (o.withHeight n)).spares b X r hX hr fun hF => ?_
        obtain ⟨-, -, hlt⟩ := spriteFootprint_withHeight_iff.mp hF
        omega
      rw [compose_rowBelow hg hr hrow] at hbelow ⊢
      rw [run_composeRow hg hr hbelow _ hX hcolumn, ← hkept, show ((r : Int) - o.y).toNat = n by omega]
      rfl
    · rw [← ih habove (spriteFootprint_withHeight_iff.mpr ⟨hcolumn, hfirst, by omega⟩)]
      refine (compose_staysIn p w mode (o.rowBelow w n)).spares _ X r hX hr fun hF => ?_
      obtain ⟨-, hge, hlt⟩ := spriteFootprint_rowBelow_iff.mp hF
      omega

end Sys2Proof.Machine
end

section
/-! SUPPORT. The sprite commands by pixels (R110), with each bitmap row as it is read and with a bitmap apart from the
framebuffer, and the laws that follow (R113 to R116). -/

namespace Sys2Proof.Machine

/-! ### The state that a sprite command leaves -/

theorem highHalf_bounds (v : Word) : -32768 ≤ highHalf v ∧ highHalf v ≤ 32767 := by
  have hle := BitVec.le_toInt (v.extractLsb' 16 16)
  have hlt := BitVec.toInt_lt (x := v.extractLsb' 16 16)
  simp only [highHalf]
  omega

/-- A negative height draws as little as height 0 does (R86). -/
theorem compose_withHeight_toNat (w : WordWidth) (mode : Mode) (o : Operands) :
    compose w mode (o.withHeight o.h.toNat) = compose w mode o := by
  by_cases hh : o.h ≤ 0
  · have hzero : (o.h.toNat : Int) ≤ 0 := by omega
    rw [compose_of_no_row (o := o) ((vclip_eq_none _ _).mpr (.inl hh)),
      compose_of_no_row (o := o.withHeight o.h.toNat) ((vclip_eq_none _ _).mpr (.inl hzero))]
  · rw [Operands.withHeight, Int.toNat_of_nonneg (by omega)]

/-- The operands with ARG1 packed anew from the same `y` and another height. -/
theorem State.operands_with_height (s : State) {n : Nat} (hn : n ≤ 32767) :
    ({ s with arg1 := pack (lowHalf s.arg1) n } : State).operands = s.operands.withHeight n :=
  State.operands_of_arg1_eq_pack rfl (lowHalf_bounds s.arg1) (by omega)

/-- `Bus.memAfterRows` for the command whose operands the registers of `s` hold. -/
def State.memAfterRows (s : State) (w : WordWidth) (mode : Mode) (n : Nat) : Memory :=
  s.bus.memAfterRows s.platform w mode s.operands n

section
variable {i : Instr} {w : WordWidth} {mode : Mode} {s : State}

theorem plain_compose_of_allows (hk : spriteKind i = some (w, mode)) (h : s.allows i) {n : Nat}
    (hn : n ≤ (highHalf s.arg1).toNat) : (compose w mode (s.operands.withHeight n)).Plain s.platform := by
  refine plain_compose_of_le hn ?_
  rw [show highHalf s.arg1 = s.operands.h from rfl, compose_withHeight_toNat, ← program_eq_compose hk]
  exact h

/-- The command with the first `n` rows only leaves `State.memAfterRows`. -/
theorem exec_rows (hk : spriteKind i = some (w, mode)) (h : s.allows i) {n : Nat} (hn : n ≤ (highHalf s.arg1).toNat) :
    exec i { s with arg1 := pack (lowHalf s.arg1) n } = .next { s with
      arg1 := pack (lowHalf s.arg1) n
      mem := s.memAfterRows w mode n
      status := 0x00000000#32 } := by
  have hops := s.operands_with_height (n := n) (by have := highHalf_bounds s.arg1; omega)
  have hallows : ({ s with arg1 := pack (lowHalf s.arg1) n } : State).allows i := by
    rw [State.allows, hops, program_eq_compose hk]
    exact plain_compose_of_allows hk h hn
  rw [exec_of_allows hallows, hops, program_eq_compose hk]
  rfl

/-- The whole command leaves what its rows leave. -/
theorem exec_sprite_of_allows (hk : spriteKind i = some (w, mode)) (h : s.allows i) :
    exec i s = .next { s with mem := s.memAfterRows w mode (highHalf s.arg1).toNat, status := 0x00000000#32 } := by
  rw [exec_of_allows h, program_eq_compose hk, ← compose_withHeight_toNat]
  rfl

/-- No row is drawn outside the framebuffer. -/
theorem State.read_memAfterRows (hk : spriteKind i = some (w, mode)) (h : s.allows i) {n : Nat}
    (hn : n ≤ (highHalf s.arg1).toNat) {a : Addr} (ha : ¬ inFramebuffer s.fbBase a) :
    (s.memAfterRows w mode n).read a = s.mem.read a :=
  (noCommandWritesOutsideItsFootprint i _ _ (exec_rows hk h hn)).1 a ha

/-- The footprint of the first `n` rows. -/
theorem spriteFootprint_rows_iff {n X r : Nat} : spriteFootprint w (s.operands.withHeight n) X r = true ↔
    (lowHalf s.arg0 ≤ X ∧ (X : Int) < lowHalf s.arg0 + wordBits w) ∧
      lowHalf s.arg1 ≤ r ∧ (r : Int) < lowHalf s.arg1 + n :=
  spriteFootprint_withHeight_iff

/-- `Bus.pixel_memAfterRows` in the state. -/
theorem State.pixel_memAfterRows (hk : spriteKind i = some (w, mode)) (h : s.allows i) {n : Nat}
    (hn : n ≤ (highHalf s.arg1).toNat) {X r : Nat} (hX : X < 640) (hr : r < 400)
    (hin : spriteFootprint w (s.operands.withHeight n) X r = true) :
    (s.memAfterRows w mode n).pixel s.fbBase X r = mergePixel mode (s.mem.pixel s.fbBase X r)
      ((s.memAfterRows w mode ((r : Int) - lowHalf s.arg1).toNat).spriteBit s.bmBase w
        ((X : Int) - lowHalf s.arg0).toNat ((r : Int) - lowHalf s.arg1).toNat) :=
  s.bus.pixel_memAfterRows (plain_compose_of_allows hk h hn) hX hr hin

theorem footprint_sprite_iff (hk : spriteKind i = some (w, mode)) {X r : Nat} : footprint i s.operands X r = true ↔
    (lowHalf s.arg0 ≤ X ∧ (X : Int) < lowHalf s.arg0 + wordBits w) ∧
      lowHalf s.arg1 ≤ r ∧ (r : Int) < lowHalf s.arg1 + highHalf s.arg1 := by
  rw [footprint_of_sprite hk]
  exact spriteFootprint_iff

end

/-- Settles O26: the rows above row `r` are those of the command with height `r - y`. -/
theorem spritePixelsFromRowsAsRead : Obligations.SpritePixelsFromRowsAsRead := by
  intro s i w mode hk hallows
  have hexec := exec_sprite_of_allows hk hallows
  obtain ⟨hframe, hspared, -⟩ := noCommandWritesOutsideItsFootprint i s _ hexec
  refine ⟨_, hexec, rfl, hframe, hspared, fun r hr hfirst hlast => ?_⟩
  have hrow : (r : Int) - lowHalf s.arg1 = ((r : Int) - lowHalf s.arg1).toNat := by omega
  rw [hrow]
  refine ⟨_, exec_rows hk hallows (by omega), fun X hX hin => ?_⟩
  refine s.pixel_memAfterRows hk hallows le_rfl hX hr ?_
  obtain ⟨hcolumn, -⟩ := (footprint_sprite_iff hk).mp hin
  exact spriteFootprint_rows_iff.mpr ⟨hcolumn, hfirst, by omega⟩

/-! ### A bitmap apart from the framebuffer -/

/-- Bytes outside the framebuffer hold the bits of a bitmap that is apart from it (R141). -/
theorem spriteBit_eq_of_apart {w : WordWidth} {o : Operands} {m m' : Memory} (hapart : bitmapApart w o)
    (hframe : ∀ a, ¬ inFramebuffer o.fb a → m'.read a = m.read a) {X r : Nat} (hr : r < 400)
    (hin : spriteFootprint w o X r = true) :
    m'.spriteBit o.bm w ((X : Int) - o.x).toNat ((r : Int) - o.y).toNat =
      m.spriteBit o.bm w ((X : Int) - o.x).toNat ((r : Int) - o.y).toNat := by
  obtain ⟨hcolumn, hfirst, hlast⟩ := spriteFootprint_iff.mp hin
  have hbits := wordBits_eq w
  rw [Memory.spriteBit, Memory.spriteBit, hframe]
  rw [inFramebuffer, Nat.not_lt]
  exact hapart r hr _ (by omega) hfirst hlast

/-- Settles O25: the rows above a row change no byte of a bitmap that is apart from the framebuffer. -/
theorem spriteCommandsDrawTheirPixels : Obligations.SpriteCommandsDrawTheirPixels := by
  intro s i w mode hk hallows hapart
  obtain ⟨t, hexec, hts, hframe, hspared, hrows⟩ := spritePixelsFromRowsAsRead s i w mode hk hallows
  refine ⟨t, hexec, hts, fun X hX r hr => ?_, hframe⟩
  split
  · next hin =>
    obtain ⟨-, hfirst, hlast⟩ := (footprint_sprite_iff hk).mp hin
    obtain ⟨u, hu, hpixel⟩ := hrows r hr hfirst hlast
    obtain ⟨hframe', -⟩ := noCommandWritesOutsideItsFootprint i _ u hu
    rw [hpixel X hX hin]
    exact congrArg _ (spriteBit_eq_of_apart hapart hframe' hr (footprint_of_sprite hk s.operands ▸ hin))
  · next hout => exact hspared X hX r hr (by simpa using hout)

/-! ### The same sprite in two modes -/

/-- A sprite command accesses the same bytes in every mode (R94). -/
theorem addresses_compose_mode (w : WordWidth) (mode mode' : Mode) (o : Operands) :
    (compose w mode o).addresses = (compose w mode' o).addresses := by
  cases hg : hclip o.x w with
  | none => rw [compose_of_no_column hg, compose_of_no_column hg]
  | some g => rw [(makes_compose hg).visits.addresses_eq, (makes_compose hg).visits.addresses_eq]

theorem allows_of_same_width {w : WordWidth} {mode mode' : Mode} {i i' : Instr} {s : State}
    (hk : spriteKind i = some (w, mode)) (hk' : spriteKind i' = some (w, mode')) (h : s.allows i) : s.allows i' := by
  rwa [State.allows, program_eq_compose hk', addresses_compose_mode w mode' mode, ← program_eq_compose hk]

/-- On a blank footprint REP and OR draw the same, row by row, wherever the bitmap lies (R113). -/
theorem read_memAfterRows_rep_eq_or {w : WordWidth} {iRep iOr : Instr} {s : State}
    (hRep : spriteKind iRep = some (w, .rep)) (hOr : spriteKind iOr = some (w, .or)) (h : s.allows iRep)
    (hblank : ∀ X < 640, ∀ r < 400, footprint iRep s.operands X r = true → s.mem.pixel s.fbBase X r = false)
    {n : Nat} (hn : n ≤ (highHalf s.arg1).toNat) (a : Addr) :
    (s.memAfterRows w .rep n).read a = (s.memAfterRows w .or n).read a := by
  have h' := allows_of_same_width hRep hOr h
  induction n using Nat.strong_induction_on generalizing a with
  | _ n ih =>
    by_cases ha : inFramebuffer s.fbBase a
    case neg => rw [s.read_memAfterRows hRep h hn ha, s.read_memAfterRows hOr h' hn ha]
    refine Memory.read_eq_of_pixel_eq (fun X hX r hr => ?_) ha
    by_cases hin : spriteFootprint w (s.operands.withHeight n) X r = true
    · obtain ⟨hcolumn, hfirst, hlast⟩ := spriteFootprint_rows_iff.mp hin
      have hsame := ih ((r : Int) - lowHalf s.arg1).toNat (by omega) (by omega)
      have hzero := hblank X hX r hr ((footprint_sprite_iff hRep).mpr ⟨hcolumn, hfirst, by omega⟩)
      rw [s.pixel_memAfterRows hRep h hn hX hr hin, s.pixel_memAfterRows hOr h' hn hX hr hin, hzero]
      simp only [mergePixel, Bool.false_or, Memory.spriteBit, hsame]
    · have hspared (mode : Mode) : (s.memAfterRows w mode n).pixel s.fbBase X r = s.mem.pixel s.fbBase X r :=
        (compose_staysIn s.platform w mode (s.operands.withHeight n)).spares s.bus X r hX hr hin
      rw [hspared, hspared]

/-- Settles O30: row by row for REP and OR, and by the pixel rule for REPINV and XOR. -/
theorem replaceEqualsOverlayOnBlankFootprint : Obligations.ReplaceEqualsOverlayOnBlankFootprint := by
  intro s w iRep iOr iInv iXor hRep hOr hInv hXor hallows hblank
  constructor
  · exact ⟨_, _, exec_sprite_of_allows hRep hallows,
      exec_sprite_of_allows hOr (allows_of_same_width hRep hOr hallows),
      read_memAfterRows_rep_eq_or hRep hOr hallows hblank le_rfl⟩
  · intro hapart
    obtain ⟨t, ht, -, htpix, -⟩ :=
      spriteCommandsDrawTheirPixels s iInv w .repinv hInv (allows_of_same_width hRep hInv hallows) hapart
    obtain ⟨u, hu, -, hupix, -⟩ :=
      spriteCommandsDrawTheirPixels s iXor w .xor hXor (allows_of_same_width hRep hXor hallows) hapart
    refine ⟨t, u, ht, hu, fun X hX r hr hin => ?_⟩
    have hzero := hblank X hX r hr hin
    rw [footprint_of_sprite hRep] at hin
    rw [htpix X hX r hr, hupix X hX r hr, footprint_of_sprite hInv, footprint_of_sprite hXor, if_pos hin, if_pos hin,
      hzero]
    exact ⟨rfl, Bool.false_xor _⟩

/-! ### The same sprite at two columns -/

/-- REP and REPINV do not look at the pixel (R110). -/
theorem mergePixel_congr {mode : Mode} {p p' : Bool} (b : Bool) (h : mode = .rep ∨ mode = .repinv ∨ p = p') :
    mergePixel mode p b = mergePixel mode p' b := by
  rcases h with rfl | rfl | rfl <;> rfl

/-- Settles O31: the pixel rule looks at the columns through `X - x` only. -/
theorem splitWordsMoveThePixelsRight : Obligations.SplitWordsMoveThePixelsRight := by
  intro s i w mode hk hx hfits _ m s0 hallows hallows0 hapart
  have hm : m ≤ lowHalf s.arg0 := by
    have hsplit := Int.ediv_mul_add_emod (lowHalf s.arg0) (wordBits w)
    have hword := Int.mul_nonneg (Int.ediv_nonneg hx (wordBits w).cast_nonneg) (wordBits w).cast_nonneg
    omega
  have hbounds := lowHalf_bounds s.arg0
  have hlow : lowHalf s0.arg0 = lowHalf s.arg0 - m := lowHalf_pack _ _ (by omega)
  -- not `hapart` itself, with which the kernel would compare the columns of the two states by evaluation
  have hapart0 : bitmapApart w s0.operands := fun r hr k hk => hapart r hr k hk
  obtain ⟨t, ht, -, htpix, -⟩ := spriteCommandsDrawTheirPixels s i w mode hk hallows hapart
  obtain ⟨u, hu, -, hupix, -⟩ := spriteCommandsDrawTheirPixels s0 i w mode hk hallows0 hapart0
  refine ⟨t, u, ht, hu, fun X hX r hr hin0 => ?_⟩
  obtain ⟨hcolumn, hrows⟩ := (footprint_sprite_iff hk).mp hin0
  have hin : footprint i s.operands (X + m) r = true := (footprint_sprite_iff hk).mpr ⟨by omega, hrows⟩
  refine ⟨hin, fun hpixel => ?_⟩
  have hdist : (((X + m : Nat) : Int) - lowHalf s.arg0).toNat = ((X : Int) - lowHalf s0.arg0).toNat := by omega
  rw [htpix (X + m) (by omega) r hr, if_pos hin, (hupix X hX r hr).trans (if_pos hin0), hdist]
  exact mergePixel_congr _ hpixel

/-! ### One sprite command after another -/

/-- Two sprite commands on the same place, the second with bitmap `q`: it finds the pixels that the first left, and its
own bits unchanged. -/
theorem sprite_then_sprite {s : State} {i i' : Instr} {w : WordWidth} {mode mode' : Mode} {q : Addr}
    (hk : spriteKind i = some (w, mode)) (hk' : spriteKind i' = some (w, mode')) (h : s.allows i)
    (h' : ({ s with bmBase := q } : State).allows i') (hapart : bitmapApart w s.operands)
    (hapart' : bitmapApart w { s.operands with bm := q }) :
    ∃ t u, exec i s = .next t ∧ exec i' { t with bmBase := q } = .next u ∧ t.bmBase = s.bmBase ∧
      (∀ X < 640, ∀ r < 400, t.mem.pixel s.fbBase X r =
        if footprint i s.operands X r then mergePixel mode (s.mem.pixel s.fbBase X r)
          (s.mem.spriteBit s.bmBase w ((X : Int) - lowHalf s.arg0).toNat ((r : Int) - lowHalf s.arg1).toNat)
        else s.mem.pixel s.fbBase X r) ∧
      (∀ X < 640, ∀ r < 400, u.mem.pixel s.fbBase X r =
        if footprint i s.operands X r then mergePixel mode' (t.mem.pixel s.fbBase X r)
          (s.mem.spriteBit q w ((X : Int) - lowHalf s.arg0).toNat ((r : Int) - lowHalf s.arg1).toNat)
        else s.mem.pixel s.fbBase X r) ∧
      ∀ a, ¬ inFramebuffer s.fbBase a → t.mem.read a = s.mem.read a ∧ u.mem.read a = s.mem.read a := by
  obtain ⟨t, ht, hts, htpix, htframe⟩ := spriteCommandsDrawTheirPixels s i w mode hk h hapart
  obtain ⟨m, rfl⟩ : ∃ m, t = { s with mem := m, status := 0x00000000#32 } := ⟨t.mem, hts⟩
  obtain ⟨u, hu, -, hupix, huframe⟩ :=
    spriteCommandsDrawTheirPixels { s with bmBase := q, mem := m, status := 0x00000000#32 } i' w mode' hk' h' hapart'
  refine ⟨_, u, ht, hu, rfl, htpix, fun X hX r hr => ?_, fun a ha => ⟨htframe a ha, ?_⟩⟩
  · have hfoot : footprint i' ({ s with bmBase := q, mem := m, status := 0x00000000#32 } : State).operands =
        footprint i s.operands := by rw [footprint_of_sprite hk, footprint_of_sprite hk']; rfl
    rw [hupix X hX r hr, hfoot]
    split
    · next hin =>
      rw [footprint_of_sprite hk] at hin
      exact congrArg _ (spriteBit_eq_of_apart hapart' htframe hr hin)
    · next hout => exact (htpix X hX r hr).trans (if_neg hout)
  · exact (huframe a ha).trans (htframe a ha)

/-- Only XOR is undone by drawing again; every other mode has its result at once (R115). -/
theorem mergePixel_twice (mode : Mode) (p b : Bool) :
    mergePixel mode (mergePixel mode p b) b = if mode = .xor then p else mergePixel mode p b := by
  cases mode <;> cases p <;> cases b <;> rfl

/-- Settles O32: the second run finds what the first left, pixel by pixel. -/
theorem repeatedSpriteCommands : Obligations.RepeatedSpriteCommands := by
  intro s i w mode hk hallows hapart
  obtain ⟨t, u, ht, hu, hbm, htpix, hupix, hframe⟩ := sprite_then_sprite hk hk hallows hallows hapart hapart
  rw [← hbm] at hu
  refine ⟨t, u, ht, hu, fun hmode a => ?_, fun hmode a => ?_⟩
  all_goals
    by_cases ha : inFramebuffer s.fbBase a
    case neg =>
      obtain ⟨hta, hua⟩ := hframe a ha
      simp only [hta, hua]
    refine Memory.read_eq_of_pixel_eq (fun X hX r hr => ?_) ha
    rw [hupix X hX r hr, htpix X hX r hr]
    split
    · simp [mergePixel_twice, hmode]
    · rfl

/-- Settles O33: OR on the pixels that ALPHA left. -/
theorem maskThenOverlay : Obligations.MaskThenOverlay := by
  intro s w iAlpha iOr q hAlpha hOr hallows hallows' hapart hapart'
  obtain ⟨t, u, ht, hu, -, htpix, hupix, -⟩ := sprite_then_sprite hAlpha hOr hallows hallows' hapart hapart'
  refine ⟨t, u, ht, hu, ?_⟩
  intro bit
  have hpixels : ∀ X : Nat, X < 640 → ∀ r : Nat, r < 400 → u.mem.pixel s.fbBase X r =
      if footprint iAlpha s.operands X r then (s.mem.pixel s.fbBase X r && !bit s.bmBase X r) || bit q X r
      else s.mem.pixel s.fbBase X r := by
    intro X hX r hr
    rw [hupix X hX r hr, htpix X hX r hr]
    split <;> rfl
  refine ⟨hpixels, fun hinside X hX r hr hin => ?_⟩
  have hmask := hinside X hX r hr hin
  rw [hpixels X hX r hr, if_pos hin]
  cases hq : bit q X r with
  | true => simp [hmask hq]
  | false => cases bit s.bmBase X r <;> simp

end Sys2Proof.Machine
end

section
/-! SUPPORT. The precise error of an illegal word (R119) and the idle block (R132). -/

namespace Sys2Proof.Machine

/-- Settles O4: the word decodes to no command, so issue stores it and raises ILLEGAL_CMD. -/
theorem illegalCommandChangesCmdAndStatusOnly : Obligations.IllegalCommandChangesCmdAndStatusOnly :=
  fun _ _ _ hillegal hhost => step_cmdWrite_illegal hillegal hhost

/-- The other case of a step beside `step_eq_perform`: nothing is pending (R132). -/
theorem step_eq_self_of_idle {s : State} (hidle : s.host = []) : step s = .next s := by
  simp only [step, performNext, hidle]

/-- Settles O6: a step of the idle block performs no access. -/
theorem idleStepKeepsEverything : Obligations.IdleStepKeepsEverything :=
  fun _ hidle => step_eq_self_of_idle hidle

end Sys2Proof.Machine
end

section
/-! SUPPORT. Reset between commands (R133) and during one (R135, U5), and the two halves of a packed register for every
pair of integers (R145). -/

namespace Sys2Proof.Machine

/-! ### A reset between commands -/

/-- Settles O12: a reset step is `State.resetRegisters`, which names the six registers only. -/
theorem resetTouchesNothingElse : Obligations.ResetTouchesNothingElse :=
  fun _ _ hs => step_reset hs

/-! ### A reset during a command -/

@[simp] theorem State.drawnBus_mem (s : State) : s.drawnBus.mem = s.mem := rfl
@[simp] theorem State.drawnBus_log (s : State) : s.drawnBus.log = [] := rfl

@[simp] theorem BusProg.cut_zero (x : BusProg) : x.cut 0 = .done := by cases x <;> rfl

/-- A command cut after `n` accesses leaves in memory what the first `n` accesses of the whole command's run leave
there (R135). -/
theorem BusProg.run_cut (p : Platform) (x : BusProg) (n : Nat) (b : Bus) :
    ∃ own : List Access, (x.run p b).bus.log = own.reverse ++ b.log ∧
      ((x.cut n).run p b).bus.mem = b.mem.replay p (own.take n) := by
  induction n generalizing x b with
  | zero =>
    obtain ⟨own, hlog, -⟩ := x.run_performs p b
    exact ⟨own, hlog, by rw [cut_zero]; rfl⟩
  | succ n ih =>
    cases x with
    | done => exact ⟨[], rfl, rfl⟩
    | read a k =>
      cases hc : p.check a with
      | none =>
        obtain ⟨own, hlog, hmem⟩ := ih (k (b.valueAt p a)) (b.afterRead p a)
        rw [cut, run_read p a k b hc, run_read p a _ b hc]
        exact ⟨.read a (b.valueAt p a) :: own, by simp [hlog], hmem⟩
      | some e =>
        rw [cut, run_read_stopped p a k b e hc, run_read_stopped p a _ b e hc]
        exact ⟨[], rfl, rfl⟩
    | write a v k =>
      cases hc : p.check a with
      | none =>
        obtain ⟨own, hlog, hmem⟩ := ih k (b.afterWrite p a v)
        rw [cut, run_write p a v k b hc, run_write p a v _ b hc]
        exact ⟨.write a v :: own, by simp [hlog], hmem⟩
      | some e =>
        rw [cut, run_write_stopped p a v k b e hc, run_write_stopped p a v _ b e hc]
        exact ⟨[], rfl, rfl⟩

/-- Settles O13: with no foreign writes the cut command's run is undisturbed, and it meets no address of the window. -/
theorem resetDuringCommandLeavesAPrefix : Obligations.ResetDuringCommandLeavesAPrefix := by
  intro s c i rest hdec hs hwin
  let n := Config.resetPoint s.draws
  have hcut := (program_visits i s.operands).cut n
  obtain ⟨_, -, hends⟩ :=
    hcut.runAmong_racesTo (fun a ha => hwin a (List.mem_of_mem_take ha)) s.draws 0 [] s.drawnBus
  have hstep := (step_resetDuringCmd hdec (by simp) hs).trans (State.finishByReset_of_endsAfter hends)
  obtain ⟨own, hlog, hmem⟩ := (program i s.operands).run_cut s.platform n s.drawnBus
  refine ⟨_, n, hstep, ?_, ?_, State.readReg_geom _⟩
  · simpa [RunEnd.performed, hlog, BusProg.runAmong_nil] using hmem
  · simp

/-! ### Packed operands out of range -/

/-- The two's complement number of an integer's 16 low bits (R15, R145). -/
theorem toInt_ofInt_sixteen (v : Int) : (BitVec.ofInt 16 v).toInt = (v + 32768) % 65536 - 32768 := by
  rw [BitVec.toInt_ofInt, Int.bmod_def]
  omega

theorem lowHalf_pack_eq_emod (lo hi : Int) : lowHalf (pack lo hi) = (lo + 32768) % 65536 - 32768 := by
  rw [lowHalf, pack, BitVec.extractLsb'_append_eq_right, toInt_ofInt_sixteen]

theorem highHalf_pack_eq_emod (lo hi : Int) : highHalf (pack lo hi) = (hi + 32768) % 65536 - 32768 := by
  rw [highHalf, pack, BitVec.extractLsb'_append_eq_left, toInt_ofInt_sixteen]

/-- Settles O47: a half in `[-32768, 32767]` is kept, and what is read always lies there. -/
theorem packedOperandsAreReadModulo : Obligations.PackedOperandsAreReadModulo := by
  refine ⟨fun v u => ?_, highHalf_pack_eq_emod 0 (65536 + 10)⟩
  rw [lowHalf_pack_eq_emod v u, highHalf_pack_eq_emod u v]
  exact ⟨rfl, rfl, by omega, by omega⟩

end Sys2Proof.Machine
end

section
/-! SUPPORT. How many byte reads and byte writes each command makes (R146), from the kinds of its accesses. -/

namespace Sys2Proof.Machine

/-! ### Counting accesses by kind -/

/-- How many of these accesses are writes (`true`) or reads (`false`). -/
def countKind (write : Bool) (T : List (Bool × Addr)) : Nat := T.countP fun e => e.1 == write

@[simp] theorem countKind_nil (write : Bool) : countKind write [] = 0 := rfl

@[simp] theorem countKind_append (write : Bool) (T U : List (Bool × Addr)) :
    countKind write (T ++ U) = countKind write T + countKind write U := List.countP_append

@[simp] theorem countKind_readsOf (write : Bool) (l : List Addr) :
    countKind write (readsOf l) = if write then 0 else l.length := by
  cases write <;> simp [countKind, readsOf, Function.comp_def]

@[simp] theorem countKind_writesOf (write : Bool) (l : List Addr) :
    countKind write (writesOf l) = if write then l.length else 0 := by
  cases write <;> simp [countKind, writesOf, Function.comp_def]

/-- Parts that each have `n` accesses of a kind have `n` times their number together. -/
theorem countKind_flatMap_const {ι : Type} {write : Bool} {f : ι → List (Bool × Addr)} {n : Nat} {is : List ι}
    (h : ∀ i ∈ is, countKind write (f i) = n) : countKind write (is.flatMap f) = is.length * n := by
  induction is with
  | nil => simp
  | cons i is ih =>
    rw [List.flatMap_cons, countKind_append, h i (by simp), ih fun j hj => h j (by simp [hj]), List.length_cons,
      Nat.succ_mul, Nat.add_comm]

/-- Every access is a read or a write. -/
theorem length_eq_countKind (T : List (Bool × Addr)) : T.length = countKind false T + countKind true T := by
  rw [List.length_eq_countP_add_countP fun e : Bool × Addr => e.1 == false]
  simp [countKind]

theorem countP_isRead (own : List Access) : own.countP Access.isRead = countKind false (own.map Access.kind) := by
  rw [countKind, List.countP_map]
  exact congrArg (own.countP ·) (funext fun z => by cases z <;> rfl)

theorem countP_isWrite (own : List Access) : own.countP Access.isWrite = countKind true (own.map Access.kind) := by
  rw [countKind, List.countP_map]
  exact congrArg (own.countP ·) (funext fun z => by cases z <;> rfl)

/-! ### The accesses a command makes and performs -/

/-- A command's list of addresses has an entry for each of so many reads and writes, and where all of them are permitted
its run performs exactly these (R146). -/
def HasAccessCounts (o : Operands) (s : State) (i : Instr) (reads writes : Nat) : Prop :=
  (program i o).addresses.length = reads + writes ∧
    ((∀ a ∈ (program i o).addresses, s.platform.check a = none) →
      ((program i o).run s.platform s.bus).performed.countP Access.isRead = reads ∧
      ((program i o).run s.platform s.bus).performed.countP Access.isWrite = writes)

/-- The counts of a command are those of the kinds of its accesses. -/
theorem BusProg.Makes.hasAccessCounts {o : Operands} {i : Instr} {T : List (Bool × Addr)}
    (h : (program i o).Makes T) (s : State) {reads writes : Nat} (hreads : countKind false T = reads)
    (hwrites : countKind true T = writes) : HasAccessCounts o s i reads writes := by
  have haddr : (program i o).addresses = T.map Prod.snd := h.visits.addresses_eq
  refine ⟨by rw [haddr, List.length_map, length_eq_countKind, hreads, hwrites], fun hok => ?_⟩
  have hall : ∀ e ∈ T, (s.platform.check e.2).isNone = true := fun e he => by
    rw [hok e.2 (haddr ▸ List.mem_map_of_mem he)]
    rfl
  have hperf := h.performed s s.platform
  rw [List.takeWhile_eq_self_iff.mpr hall] at hperf
  rw [countP_isRead, countP_isWrite, hperf]
  exact ⟨hreads, hwrites⟩

/-! ### PLOT -/

theorem plot_hasAccessCounts_on_screen {o : Operands} (s : State) (h : onScreen o.x o.y = true) :
    HasAccessCounts o s .plot 1 1 := by
  let a := fbByteAddr o.fb o.y.toNat (o.x.toNat / 8)
  have hprog : program .plot o = .read a fun v => .write a (v ||| (0x80#8 >>> (o.x.toNat % 8))) .done := if_pos h
  have hmakes : (program .plot o).Makes [(false, a), (true, a)] := hprog ▸ .read fun _ => .write .done
  exact hmakes.hasAccessCounts s rfl rfl

theorem plot_hasAccessCounts_off_screen {o : Operands} (s : State) (h : ¬ onScreen o.x o.y = true) :
    HasAccessCounts o s .plot 0 0 := by
  have hprog : program .plot o = .done := if_neg h
  have hmakes : (program .plot o).Makes [] := hprog ▸ .done
  exact hmakes.hasAccessCounts s rfl rfl

/-! ### Spans and rectangles -/

/-- A byte of a span is covered exactly where its eight pixels are in the span (R74). -/
theorem spanMask_eq_full_iff {lo hi j : Nat} (hhi : j ≤ hi / 8) :
    spanMask lo hi j = 0xFF#8 ↔ lo ≤ 8 * j ∧ 8 * j + 7 ≤ hi := by
  have hbit (k : Nat) (hk : k < 8) := getLsbD_spanMask (lo := lo) hhi hk
  constructor
  · intro hfull
    have hfirst := hbit 0 (by omega)
    have hlast := hbit 7 (by omega)
    rw [hfull, getLsbD_fullMask, decide_eq_decide] at hfirst hlast
    omega
  · rintro ⟨hlo, hlast⟩
    refine BitVec.eq_of_getLsbD_eq fun n hn => ?_
    rw [getLsbD_fullMask, show n = 7 - (7 - n) by omega, hbit (7 - n) (by omega), decide_eq_decide]
    omega

/-- A byte of a span is written once, and read where it is a boundary byte (R75). -/
theorem countKind_spanByteKinds (write : Bool) (fb : Addr) (row : Nat) {lo hi j : Nat} (hhi : j ≤ hi / 8) :
    countKind write (spanByteKinds fb row lo hi j) =
      if write then 1 else if lo ≤ 8 * j ∧ 8 * j + 7 ≤ hi then 0 else 1 := by
  simp only [← spanMask_eq_full_iff hhi, spanByteKinds]
  split <;> cases write <;> simp

/-- The kinds of the accesses of a span (R75). -/
def spanRowKinds (fb : Addr) (row lo hi : Nat) : List (Bool × Addr) :=
  (List.range' (lo / 8) (hi / 8 + 1 - lo / 8)).flatMap (spanByteKinds fb row lo hi)

theorem makes_spanRow (fb : Addr) (row lo hi : Nat) (op : SpanOp) :
    (spanRow fb row lo hi op).Makes (spanRowKinds fb row lo hi) :=
  .seqAll_map _ _ _ (makes_spanByte fb row lo hi op)

/-- A span writes each of its bytes once (R75). -/
theorem countKind_true_spanRowKinds (fb : Addr) (row lo hi : Nat) :
    countKind true (spanRowKinds fb row lo hi) = hi / 8 + 1 - lo / 8 := by
  have hwrites (j : Nat) (hj : j ∈ List.range' (lo / 8) (hi / 8 + 1 - lo / 8)) :
      countKind true (spanByteKinds fb row lo hi j) = 1 :=
    countKind_spanByteKinds true fb row (mem_spanBytes.mp hj).2
  rw [spanRowKinds, countKind_flatMap_const hwrites, List.length_range', Nat.mul_one]

/-- A span reads its boundary bytes: its bytes strictly between the first and the last are covered (R75). -/
theorem countKind_false_spanRowKinds (fb : Addr) (row : Nat) {lo hi : Nat} (hle : lo ≤ hi) :
    countKind false (spanRowKinds fb row lo hi) = boundaryBytes lo hi := by
  have hreads {j : Nat} (hj : j ≤ hi / 8) := countKind_spanByteKinds (lo := lo) false fb row hj
  simp only [Bool.false_eq_true, if_false] at hreads
  by_cases hone : lo / 8 = hi / 8
  · have hbytes : List.range' (lo / 8) (hi / 8 + 1 - lo / 8) = [hi / 8] := by
      rw [hone, Nat.add_sub_cancel_left, List.range'_one]
    rw [spanRowKinds, hbytes, List.flatMap_singleton, hreads le_rfl, boundaryBytes, if_pos hone]
    split_ifs <;> omega
  · have hbytes : List.range' (lo / 8) (hi / 8 + 1 - lo / 8) =
        [lo / 8] ++ List.range' (lo / 8 + 1) (hi / 8 - lo / 8 - 1) ++ [hi / 8] := by
      rw [show hi / 8 + 1 - lo / 8 = 1 + (hi / 8 - lo / 8 - 1) + 1 by omega, List.range'_1_concat,
        ← List.range'_append_1, List.range'_one, show lo / 8 + (1 + (hi / 8 - lo / 8 - 1)) = hi / 8 by omega]
    have hinterior : countKind false ((List.range' (lo / 8 + 1) (hi / 8 - lo / 8 - 1)).flatMap
        (spanByteKinds fb row lo hi)) = 0 := by
      refine (countKind_flatMap_const (n := 0) fun j hj => ?_).trans (Nat.mul_zero _)
      rw [List.mem_range'_1] at hj
      rw [hreads (by omega), if_pos (by omega)]
    rw [spanRowKinds, hbytes, List.flatMap_append, List.flatMap_append, countKind_append, countKind_append, hinterior,
      List.flatMap_singleton, List.flatMap_singleton, hreads (by omega), hreads le_rfl, boundaryBytes, if_neg hone]
    split_ifs <;> omega

theorem hline_hasAccessCounts {o : Operands} (s : State) {lo hi : Nat}
    (h : hlineClip o.x o.x2 o.y = some (lo, hi)) :
    HasAccessCounts o s .hline (boundaryBytes lo hi) (hi / 8 + 1 - lo / 8) := by
  obtain ⟨-, -, hle, -⟩ := hlineClip_eq_some h
  have hprog : program .hline o = spanRow o.fb o.y.toNat lo hi .set := by simp [program, hlineProg, h]
  have hmakes := hprog ▸ makes_spanRow o.fb o.y.toNat lo hi .set
  exact hmakes.hasAccessCounts s (countKind_false_spanRowKinds _ _ hle) (countKind_true_spanRowKinds _ _ _ _)

/-- A rectangle's accesses are those of its rows' spans, `n` of a kind in each. -/
theorem countKind_rectKinds {write : Bool} {fb : Addr} {r : Rect} {n : Nat}
    (h : ∀ row, countKind write (spanRowKinds fb row r.col (r.col + r.len - 1)) = n) :
    countKind write (rectKinds fb r) = r.height * n := by
  have hrows : rectKinds fb r =
      (List.range' r.row r.height).flatMap fun row => spanRowKinds fb row r.col (r.col + r.len - 1) := rfl
  rw [hrows, countKind_flatMap_const fun row _ => h row, List.length_range']

/-- FILLRECT and CLEARRECT make the accesses of their clipped rectangle (R79, R80). -/
theorem exists_rectRows_of_rectClip {i : Instr} {o : Operands} {r : Rect} (hi : i ∈ [Instr.fillrect, .clearrect])
    (hclip : rectClip o.x o.x2 o.y o.h = some r) : ∃ op, program i o = rectRows o.fb r op := by
  simp only [List.mem_cons, List.not_mem_nil, or_false] at hi
  rcases hi with rfl | rfl
  · exact ⟨.set, by simp [program, fillrectProg, hclip]⟩
  · exact ⟨.clr, by simp [program, clearrectProg, hclip]⟩

/-- The counts of a command that draws a clipped rectangle, whatever it does to its pixels (R76, R79, R80). -/
theorem rect_hasAccessCounts {o : Operands} (s : State) {i : Instr} {r : Rect} {op : SpanOp}
    (hclip : rectClip o.x o.x2 o.y o.h = some r) (hprog : program i o = rectRows o.fb r op) :
    HasAccessCounts o s i (r.height * boundaryBytes r.col (r.col + r.len - 1))
      (r.height * ((r.col + r.len - 1) / 8 + 1 - r.col / 8)) := by
  obtain ⟨_, hlen, _⟩ := rectClip_eq_some hclip
  have hle : r.col ≤ r.col + r.len - 1 := by omega
  exact (hprog ▸ makes_rectRows o.fb r op).hasAccessCounts s
    (countKind_rectKinds fun row => countKind_false_spanRowKinds o.fb row hle)
    (countKind_rectKinds fun row => countKind_true_spanRowKinds o.fb row _ _)

/-! ### Sprites -/

@[simp] theorem length_byteAddrs (n : Nat) (a : Addr) : (byteAddrs n a).length = n := by
  rw [byteAddrs_eq_map_range, List.length_map, List.length_range]

/-- A screen row of a sprite reads its bitmap row, and reads and writes its target words (R94). -/
theorem countKind_rowKinds (write : Bool) (w : WordWidth) (o : Operands) (ts : List Target) (row : Nat) :
    countKind write (rowKinds w o ts row) =
      (if write then 0 else wordBytes w) + wordBytes w * ts.length := by
  have hword : ∀ q ∈ ts.map fun t => (row, t.widx), countKind write (targetKinds w o.fb q) = wordBytes w :=
    fun q _ => by cases write <;> simp [targetKinds]
  rw [rowKinds, countKind_append, countKind_flatMap_const hword, countKind_readsOf, length_byteAddrs,
    List.length_map, Nat.mul_comm]

/-- A sprite that is split over two words has two target words in a row, any other one (R89 to R91). -/
theorem length_targets {x : Int} {w : WordWidth} {g : Regime} (hg : hclip x w = some g) :
    (targets w g).length =
      if x < 0 ∨ x > 640 - (wordBits w : Int) ∨ x % (wordBits w : Int) = 0 then 1 else 2 := by
  rw [← List.length_map Target.widx, map_widx_targets hg]
  split_ifs <;> simp <;> omega

theorem sprite_hasAccessCounts {o : Operands} (s : State) {i : Instr} {w : WordWidth} {mode : Mode} {g : Regime}
    (hk : spriteKind i = some (w, mode)) (hg : hclip o.x w = some g) :
    HasAccessCounts o s i ((drawnRows o.y o.h).length * (wordBytes w + wordBytes w * (targets w g).length))
      ((drawnRows o.y o.h).length * (wordBytes w * (targets w g).length)) := by
  have hmakes : (program i o).Makes _ := program_eq_compose hk o ▸ makes_compose hg
  refine hmakes.hasAccessCounts s ?_ ?_
  · exact countKind_flatMap_const fun row _ => countKind_rowKinds false w o (targets w g) row
  · refine countKind_flatMap_const fun row _ => ?_
    rw [countKind_rowKinds, if_pos rfl, Nat.zero_add]

/-! ### The obligation on the counts -/

/-- Settles O42: each command's accesses of known kinds, counted along its rows. -/
theorem accessCountsOfTheCommands : Obligations.AccessCountsOfTheCommands := by
  intro o s makes
  refine ⟨BusProg.Makes.hasAccessCounts (i := .nop) .done s rfl rfl, ?_, ?_, ?_, ?_⟩
  · have hon := onScreen_iff o.x o.y
    split
    · exact plot_hasAccessCounts_on_screen s (hon.mpr (by omega))
    · exact plot_hasAccessCounts_off_screen s (by rw [hon]; omega)
  · intro hdraws lo hi
    cases hclip : hlineClip o.x o.x2 o.y with
    | none =>
      rw [hlineClip_eq_none] at hclip
      omega
    | some span =>
      obtain ⟨hlo, hhi, -⟩ := hlineClip_eq_some hclip
      obtain ⟨hleft, hright⟩ : span.1 = lo ∧ span.2 = hi := by omega
      rw [← hleft, ← hright]
      exact hline_hasAccessCounts s hclip
  · intro i hi hdraws lo right rows
    cases hclip : rectClip o.x o.x2 o.y o.h with
    | none =>
      rw [rectClip_eq_none] at hclip
      omega
    | some r =>
      obtain ⟨hcol, hlen, -, hheight, -⟩ := rectClip_eq_some hclip
      obtain ⟨hlo, hright, hrows⟩ : r.col = lo ∧ r.col + r.len - 1 = right ∧ r.height = rows := by omega
      obtain ⟨op, hprog⟩ := exists_rectRows_of_rectClip hi hclip
      rw [← hlo, ← hright, ← hrows]
      exact rect_hasAccessCounts s hclip hprog
  · intro i w mode hk hdraws rows words
    obtain ⟨_, _, _, hx⟩ := hdraws
    obtain ⟨g, hg⟩ := exists_hclip hx
    have hrows : (drawnRows o.y o.h).length = rows := List.length_range'
    have hwords : (targets w g).length = words := length_targets hg
    rw [← hrows, ← hwords]
    exact sprite_hasAccessCounts s hk hg

end Sys2Proof.Machine
end
